-- ==== Sys2Proof/Word.lean ====
section
/-! DEFINITION. The word types of the core: bus words, half words, bytes. -/

namespace Sys2Proof

/-- A 32-bit bus word: every register and every command word (20_memory.md R52, 30_encoding.md R70). -/
abbrev Word := BitVec 32

/-- A 16-bit quantity: FCSREG, CALL_HI, an output sample (10_state.md R30, R31; 00_scope.md R8). -/
abbrev Half := BitVec 16

/-- One byte of a frame field (00_scope.md R11). -/
abbrev Byte := BitVec 8

/-- A bit sequence in transmission order: the first bit of the list is the first bit sent
(00_scope.md, section 5). -/
abbrev BitSeq := List Bool

end Sys2Proof
end

