-- ==== Sys2Proof/Config.lean ====
section
/-! DEFINITION. What one instance of the core fixes (its parameters), and the free values. -/

namespace Sys2Proof

/-- The parameters of one instance of the core. They are data of the instance: `State` carries them, no step
changes them, and a statement about every state is a statement about every instance (assumption 1). -/
structure Config where
  /-- CAP, the capacity of the bit buffer in bits (00_scope.md R4). -/
  cap : Nat
  /-- NRZI_INIT, the line state the NRZI encoder starts every frame from (00_scope.md R5). -/
  nrziInit : Bool
  /-- FS, the sample rate of the sample port, in samples per second (00_scope.md R6). -/
  fs : Nat
  /-- BASE, the physical address of the 64 KiB register window (00_scope.md R9). -/
  base : Nat
deriving DecidableEq, Repr

/-- The legal parameter values (00_scope.md R4 and R6). -/
abbrev Config.Legal (c : Config) : Prop :=
  c.cap % 32 = 0 ∧ 32 ≤ c.cap ∧ c.cap ≤ 491520 ∧ 0 < c.fs

/-- WAVE, from the phase accumulator to an output sample: an uninterpreted total function (00_scope.md R7). -/
opaque Config.wave : BitVec 32 → BitVec 16

/-- The values drawn by register reads made while BUSY = 1 (20_memory.md R59): draw number `n` reads this.
DESIGN CHOICE: assumption 4. -/
opaque Config.freeRead : Nat → Word

/-- The NRZI_INIT of the instance that `State.reset` describes: left open by 00_scope.md R5. -/
opaque Config.freeNrziInit : Bool

/-- One less than the FS of the instance that `State.reset` describes: left open by 00_scope.md R6, which
asks for a positive integer. -/
opaque Config.freeFsPred : Nat

/-- The BASE of the instance that `State.reset` describes: left open by 00_scope.md R9. -/
opaque Config.freeBase : Nat

/-- The reference instance: CAP at its default 65536 (00_scope.md R4), every open parameter free. -/
def Config.reference : Config where
  cap := 65536
  nrziInit := Config.freeNrziInit
  fs := Config.freeFsPred + 1
  base := Config.freeBase

end Sys2Proof
end

