-- ==== Sys2Proof/Syntax.lean ====
section
/-! DEFINITION. The command set: one constructor per row of spec/opcode_table.json (30_encoding.md R71). -/

namespace Sys2Proof

/-- The four tone profiles, a closed enumeration (44_afsk.md R181). -/
inductive Profile where
  | p300
  | p600
  | p1200
  | p2400
deriving DecidableEq, Repr

/-- The eleven commands with their operand fields (30_encoding.md R71, R72). -/
inductive Instr where
  /-- NOP: do nothing (45_control.md R210). -/
  | nop
  /-- CLEAR: discard the frame and start a new one (45_control.md R211). -/
  | clear
  /-- ADDR: append one address field; callsign length CLEN, last flag LAST, SSID (40_address_frame.md R103). -/
  | addr (clen : Nat) (last : Bool) (ssid : Nat)
  /-- CTLPID: append the control and PID bytes (40_address_frame.md R106). -/
  | ctlpid
  /-- INFO: append one information byte (40_address_frame.md R107). -/
  | info (byte : Byte)
  /-- FCS: append the frame check sequence (41_fcs.md R132). -/
  | fcs
  /-- STUFF: bit-stuff the body (42_stuff_frame.md R151). -/
  | stuff
  /-- FRAME: add the two flags (42_stuff_frame.md R154). -/
  | frame
  /-- NRZI: line-encode the framed sequence (43_nrzi.md R171). -/
  | nrzi
  /-- MOD: modulate the physical bits (44_afsk.md R184). -/
  | mod (prof : Profile)
  /-- RUN: FCS, STUFF, FRAME, NRZI and MOD in one command (45_control.md R212). -/
  | run (prof : Profile)
deriving DecidableEq, Repr

end Sys2Proof
end

