-- ==== Sys2Proof/WellFormed.lean ====
section
/-! DEFINITION. Which instruction terms have a word: every operand within its field (30_encoding.md R72). -/

namespace Sys2Proof

/-- Every operand fits its field: CLEN is 3 bits and SSID 4 bits wide. CLEN = 7 is well formed: it decodes, and
is rejected at completion (30_encoding.md R74). The other operands cannot leave their fields. -/
def WellFormed : Instr → Bool
  | .addr clen _ ssid => decide (clen < 8) && decide (ssid < 16)
  | .nop => true
  | .clear => true
  | .ctlpid => true
  | .info _ => true
  | .fcs => true
  | .stuff => true
  | .frame => true
  | .nrzi => true
  | .mod _ => true
  | .run _ => true

end Sys2Proof
end

