-- ==== Sys2Proof/Decode.lean ====
section
/-! DEFINITION. The decoder of 30_encoding.md R74, total on any 32-bit word and rejecting by name, and the
encoder of R72 and R75. -/

namespace Sys2Proof

/-- Why a word is illegal (30_encoding.md R73). -/
inductive Reject where
  /-- OPCODE is none of the eleven of R71. -/
  | unusedOpcode
  /-- The opcode is used, and a bit that R72 reserves is 1. -/
  | reservedBits
deriving DecidableEq, Repr

/-- Bits 31:24 of a command word (30_encoding.md R70). -/
def opcodeOf (w : Word) : Byte := w.extractLsb' 24 8

/-- The profile a PROF field names: every 2-bit value names one (44_afsk.md R181). -/
def Profile.ofCode (c : BitVec 2) : Profile :=
  if c = 0#2 then .p300 else if c = 1#2 then .p600 else if c = 2#2 then .p1200 else .p2400

/-- The PROF code of a profile (44_afsk.md R181). -/
def Profile.code : Profile → BitVec 2
  | .p300 => 0#2
  | .p600 => 1#2
  | .p1200 => 2#2
  | .p2400 => 3#2

/-- A command whose reserved bits are required to be 0 (30_encoding.md R73). -/
def whenReserved (zero : Bool) (i : Instr) : Except Reject Instr :=
  if zero then .ok i else .error .reservedBits

/-- The decoder (30_encoding.md R74). -/
def decode (w : Word) : Except Reject Instr :=
  let op := opcodeOf w
  let none24 : Bool := w.extractLsb' 0 24 == 0#24
  if op = 0x00#8 then whenReserved none24 .nop
  else if op = 0x01#8 then whenReserved none24 .clear
  else if op = 0x10#8 then
    whenReserved (w.extractLsb' 5 3 == 0#3 && w.extractLsb' 11 13 == 0#13)
      (.addr (w.extractLsb' 8 3).toNat (w.getLsbD 4) (w.extractLsb' 0 4).toNat)
  else if op = 0x11#8 then whenReserved none24 .ctlpid
  else if op = 0x12#8 then whenReserved (w.extractLsb' 8 16 == 0#16) (.info (w.extractLsb' 0 8))
  else if op = 0x20#8 then whenReserved none24 .fcs
  else if op = 0x30#8 then whenReserved none24 .stuff
  else if op = 0x40#8 then whenReserved none24 .frame
  else if op = 0x50#8 then whenReserved none24 .nrzi
  else if op = 0x60#8 then
    whenReserved (w.extractLsb' 2 22 == 0#22) (.mod (Profile.ofCode (w.extractLsb' 0 2)))
  else if op = 0x70#8 then
    whenReserved (w.extractLsb' 2 22 == 0#22) (.run (Profile.ofCode (w.extractLsb' 0 2)))
  else .error .unusedOpcode

/-- The OPCODE of each command (30_encoding.md R71). -/
def Instr.opcode : Instr → Byte
  | .nop => 0x00#8
  | .clear => 0x01#8
  | .addr _ _ _ => 0x10#8
  | .ctlpid => 0x11#8
  | .info _ => 0x12#8
  | .fcs => 0x20#8
  | .stuff => 0x30#8
  | .frame => 0x40#8
  | .nrzi => 0x50#8
  | .mod _ => 0x60#8
  | .run _ => 0x70#8

/-- The operand field, bits 23:0, of each command, reserved bits 0 (30_encoding.md R72). -/
def Instr.operandField : Instr → BitVec 24
  | .addr clen last ssid =>
      0#13 ++ BitVec.ofNat 3 clen ++ 0#3 ++ BitVec.ofBool last ++ BitVec.ofNat 4 ssid
  | .info byte => 0#16 ++ byte
  | .mod prof => 0#22 ++ prof.code
  | .run prof => 0#22 ++ prof.code
  | .nop => 0#24
  | .clear => 0#24
  | .ctlpid => 0#24
  | .fcs => 0#24
  | .stuff => 0#24
  | .frame => 0#24
  | .nrzi => 0#24

/-- The word of a command: OPCODE in bits 31:24, operands below (30_encoding.md R70, R75). -/
def encode (i : Instr) : Word := i.opcode ++ i.operandField

/-- The word that a table row's bits stand for: a command is one 32-bit word, so bits past `nbits` are 0
(assumption 15). -/
def tableWord (nbits w : Nat) : Word := BitVec.ofNat 32 (w % 2 ^ nbits)

/-- The instruction the decoder reads from a row of spec/opcode_table.json. -/
def decodeTableWord (nbits w : Nat) : Option Instr :=
  match decode (tableWord nbits w) with
  | .ok i => some i
  | .error _ => none

end Sys2Proof
end

