-- ==== Sys2Proof/Machine/State.lean ====
section
/-! DEFINITION. The state of the machine: everything 10_state.md R20 to R40 gives the core, the emission in progress
(44_afsk.md R186), the two output histories (R37), and the environment's side of the bus and of the sink. -/

namespace Sys2Proof.Machine

/-- The stage sequencer's values (10_state.md R26). -/
inductive Stage where
  /-- S_ADDR, code 0: accepting addresses. -/
  | addr
  /-- S_CTL, code 1: the last address appended. -/
  | ctl
  /-- S_INFO, code 2: control and PID appended. -/
  | info
  /-- S_FCS, code 3: FCS appended. -/
  | fcs
  /-- S_STUFFED, code 4: body stuffed. -/
  | stuffed
  /-- S_FRAMED, code 5: flags added. -/
  | framed
  /-- S_LINE, code 6: the buffer holds physical bits. -/
  | line
  /-- S_DONE, code 7: frame modulated. -/
  | done
  /-- S_ERROR, code 15: an error ended the frame. -/
  | error
deriving DecidableEq, Repr

/-- The kinds of error (60_exceptions.md R230, codes 1 to 5). -/
inductive Err where
  | invalidAddress
  | pathTooLong
  | bufferOverflow
  | sequence
  | illegalCommand
deriving DecidableEq, Repr

/-- PEND: the accepted command word with its callsign snapshot (10_state.md R33). -/
structure Pending where
  word : Word
  callLo : Word
  callHi : Half
deriving DecidableEq, Repr

/-- A segment record SEG(tone, prof, last) (44_afsk.md R180). -/
structure Seg where
  /-- true for Mark, false for Space. -/
  tone : Bool
  prof : Profile
  last : Bool
deriving DecidableEq, Repr

/-- A sample record SMP(y, last) (44_afsk.md R180). -/
structure Smp where
  y : Half
  last : Bool
deriving DecidableEq, Repr

/-- A MOD, or a RUN in its MOD step, that has passed its checks and is emitting its records (44_afsk.md R186,
45_control.md R212). For a RUN, `bits` and `fcs` are the settled results of its FCS to NRZI steps, which reach
BITBUF and FCSREG in the completion step (10_state.md R33). -/
structure Transmit where
  prof : Profile
  /-- The physical bits being sent. -/
  bits : BitSeq
  /-- What FCSREG holds once the command has completed. -/
  fcs : Half
  /-- The number of segment records the sink has accepted. -/
  seg : Nat
  /-- n, the number of samples the sink has accepted (10_state.md R36). -/
  smp : Nat
  /-- P, the NCO phase accumulator (10_state.md R36, 44_afsk.md R193). -/
  phase : BitVec 32
  /-- The segment port's `last` record, once the sink has accepted it. It joins the history of deliveries in the completion
  step, so that a reset before that leaves no `last` record delivered (70_reset_and_hazards.md R265; DESIGN CHOICE:
  assumption 10). -/
  segLast : Option Seg
  /-- The same for the sample port. -/
  smpLast : Option Smp
deriving DecidableEq, Repr

/-- The two output ports (44_afsk.md R180). -/
inductive Port where
  | segment
  | sample
deriving DecidableEq, Repr

/-- One action of the environment, or one turn given to the core's agent (10_state.md R20). -/
inductive Event where
  /-- The host reads `bytes` bytes at physical address `addr` (20_memory.md R51). -/
  | read (addr bytes : Nat)
  /-- The host writes `value`, `bytes` bytes wide, at physical address `addr`. -/
  | write (addr bytes : Nat) (value : Word)
  /-- The hardware reset (70_reset_and_hazards.md R260). -/
  | reset
  /-- The sink starts or stops accepting records on a port (44_afsk.md R186). -/
  | sink (port : Port) (ready : Bool)
  /-- The core's agent takes a turn. -/
  | core
deriving DecidableEq, Repr

/-- The one memory of the core, BITBUF, as the sequence SEQ of its cells in use: cell `i` is element `i`, and LEN is
the length (10_state.md R21). Cells at LEN or above hold nothing: no rule can observe them (assumption 7). -/
abbrev Memory := BitSeq

/-- The form of the memory: LEN never exceeds CAP (10_state.md R22). -/
def Memory.wf (cap : Nat) (m : Memory) : Bool := decide (m.length ≤ cap)

/-- The whole machine: the instance's parameters, the core's registers, its transient and output state, and the
environment's side of its interfaces. -/
structure State where
  /-- The instance's parameters, which CONFIG reports (R32); no step changes them. -/
  cfg : Config
  /-- BITBUF and LEN (R21). -/
  bitbuf : Memory
  /-- ADDRCNT (R23). -/
  addrcnt : BitVec 4
  /-- INFOCNT (R24). -/
  infocnt : Word
  /-- STAGE (R26). -/
  stage : Stage
  /-- ERR (R27): `none` is code 0, no error held. -/
  err : Option Err
  /-- ERRCMD (R28). -/
  errcmd : Word
  /-- ERRSTG (R29): the stage in force when the failing step began; S_ADDR (0) when no error is held. -/
  errstg : Stage
  /-- FCSREG (R30). -/
  fcsreg : Half
  /-- CALL_LO (R31). -/
  callLo : Word
  /-- CALL_HI (R31). -/
  callHi : Half
  /-- PEND (R33); BUSY is 1 exactly when it is not `none`. -/
  pend : Option Pending
  /-- DROP (R34). -/
  drop : Bool
  /-- The emission in progress, with the working state P and n of R36. -/
  tx : Option Transmit
  /-- Every record the segment port has delivered, oldest first (R37). -/
  segOut : List Seg
  /-- Every record the sample port has delivered, oldest first (R37). -/
  smpOut : List Smp
  /-- Whether the sink accepts on the segment port now (44_afsk.md R186). -/
  segReady : Bool
  /-- Whether the sink accepts on the sample port now (44_afsk.md R186). -/
  smpReady : Bool
  /-- What the environment does next, and when the core takes its turns: read and consumed by `step`. -/
  inbox : List Event
  /-- The word the host's last read returned. -/
  rdata : Word
  /-- The MODEL's own counter of free draws: how many reads have drawn a free value (R59). -/
  draws : Nat
deriving DecidableEq, Repr

/-- What stops a step as a fault. -/
inductive Fault where
  /-- A host access at a physical address outside the core's 64 KiB window (00_scope.md R9, 20_memory.md R50):
  the address does not exist in the core's address space. Raised by the bus. Safe: no run goes on. -/
  | outsideWindow
deriving DecidableEq, Repr

/-- What the model gives no step for. -/
inductive Refusal where
  /-- An instruction that has no meaning yet: raised by no arm of `exec` today. Safe. -/
  | notModelled (mnemonic : String)
  /-- A host access that is not 32 bits wide or not at a multiple of 4 (20_memory.md R51). Raised by the bus.
  Safe: the spec itself says the model refuses it and gives no step. -/
  | unsupportedAccess
deriving DecidableEq, Repr

/-- The core right after reset in a given instance (10_state.md R40, 70_reset_and_hazards.md R260), nothing delivered yet and
nothing scheduled. DESIGN CHOICE: `segReady`, `smpReady`, `rdata` and `draws` are the model's (assumptions 4, 5, 6). -/
def State.resetOf (cfg : Config) : State where
  cfg := cfg
  bitbuf := []
  addrcnt := 0#4
  infocnt := 0#32
  stage := .addr
  err := none
  errcmd := 0#32
  errstg := .addr
  fcsreg := 0x0000#16
  callLo := 0x00000000#32
  callHi := 0x0000#16
  pend := none
  drop := false
  tx := none
  segOut := []
  smpOut := []
  segReady := true
  smpReady := true
  inbox := []
  rdata := 0#32
  draws := 0

/-- The machine right after reset: the reference instance (10_state.md R40). -/
def State.reset : State := State.resetOf Config.reference

end Sys2Proof.Machine
end

