-- ==== Sys2Proof/Machine/Flags.lean ====
section
/-! DEFINITION. Status: the codes of STAGE and ERR, the STATUS and CONFIG words, and the stages each command is
accepted in. -/

namespace Sys2Proof.Machine

/-- The code of a stage (10_state.md R26). -/
def Stage.code : Stage → BitVec 4
  | .addr => 0#4
  | .ctl => 1#4
  | .info => 2#4
  | .fcs => 3#4
  | .stuffed => 4#4
  | .framed => 5#4
  | .line => 6#4
  | .done => 7#4
  | .error => 15#4

/-- The code of an error kind (60_exceptions.md R230). -/
def Err.code : Err → BitVec 4
  | .invalidAddress => 1#4
  | .pathTooLong => 2#4
  | .bufferOverflow => 3#4
  | .sequence => 4#4
  | .illegalCommand => 5#4

/-- ERR as the register reads: 0 when no error is held (10_state.md R27). -/
def errField : Option Err → BitVec 4
  | none => 0#4
  | some e => e.code

/-- LEN, the number of cells in use (10_state.md R21). -/
def State.len (s : State) : Nat := s.bitbuf.length

/-- BUSY: 1 exactly when PEND is not none (10_state.md R33). -/
def State.busy (s : State) : Bool := s.pend.isSome

/-- STATUS (10_state.md R35): from the top, 12 reserved bits, ERRSTG, ADDRCNT, ERR, STAGE, 2 reserved bits, DROP,
BUSY. -/
def State.status (s : State) : Word :=
  0#12 ++ s.errstg.code ++ s.addrcnt ++ errField s.err ++ s.stage.code ++ 0#2
    ++ BitVec.ofBool s.drop ++ BitVec.ofBool s.busy

/-- CONFIG (10_state.md R32): CAP/32 in bits 15:0, NRZI_INIT in bit 16. -/
def Config.word (c : Config) : Word :=
  0#15 ++ BitVec.ofBool c.nrziInit ++ BitVec.ofNat 16 (c.cap / 32)

/-- `accept(d)`: the stages a command is accepted in (60_exceptions.md R236). -/
def accepts : Instr → Stage → Bool
  | .nop, _ => true
  | .clear, _ => true
  | .addr _ _ _, st => st == .addr
  | .ctlpid, st => st == .ctl
  | .info _, st => st == .info
  | .fcs, st => st == .info
  | .run _, st => st == .info
  | .stuff, st => st == .fcs
  | .frame, st => st == .stuffed
  | .nrzi, st => st == .framed
  | .mod _, st => st == .line

end Sys2Proof.Machine
end

