-- ==== Sys2Proof/Machine/Operands.lean ====
section
/-! DEFINITION. Operand forms: the expansion of bytes into bits, the word and the callsign snapshot a command runs
with, and the fields of an address. -/

namespace Sys2Proof.Machine

/-- `bits8(b)`: a byte, least significant bit first (00_scope.md R11). -/
def bits8 (b : Byte) : BitSeq :=
  [b.getLsbD 0, b.getLsbD 1, b.getLsbD 2, b.getLsbD 3, b.getLsbD 4, b.getLsbD 5, b.getLsbD 6, b.getLsbD 7]

/-- `bytes(b0, …, bn)`: the expansions of the bytes, in order (00_scope.md R11, 20_memory.md R57). -/
def bytes : List Byte → BitSeq
  | [] => []
  | b :: bs => bits8 b ++ bytes bs

/-- The number whose bits are the sequence, the first bit least significant. -/
def bitsToNat : BitSeq → Nat
  | [] => 0
  | b :: bs => b.toNat + 2 * bitsToNat bs

/-- What command `i` runs with: the word and the callsign snapshot in PEND (10_state.md R33, 20_memory.md R60). With nothing
pending, which no step of the machine reaches, the command is taken as accepted at this instant (assumption 8). -/
def State.current (i : Instr) (s : State) : Pending :=
  match s.pend with
  | some p => p
  | none => { word := encode i, callLo := s.callLo, callHi := s.callHi }

/-- CALL_BYTE(j), for j = 0 to 5, of a snapshot: characters 0 to 3 in CALL_LO, 4 and 5 in CALL_HI
(10_state.md R31). -/
def Pending.callByte (p : Pending) (j : Nat) : Byte :=
  if j < 4 then p.callLo.extractLsb' (8 * j) 8 else p.callHi.extractLsb' (8 * (j - 4)) 8

/-- `cb(j)`: character j, or a space at or past the length, shifted left by one (40_address_frame.md R101). -/
def Pending.shiftedChar (p : Pending) (clen j : Nat) : Byte :=
  (if j < clen then p.callByte j else 0x20#8) <<< 1

/-- The six callsign bytes (40_address_frame.md R101). -/
def Pending.callBytes (p : Pending) (clen : Nat) : List Byte :=
  [p.shiftedChar clen 0, p.shiftedChar clen 1, p.shiftedChar clen 2,
   p.shiftedChar clen 3, p.shiftedChar clen 4, p.shiftedChar clen 5]

/-- The C bit: 1 for the Destination, position 0, only (40_address_frame.md R102). -/
def cBit (pos : BitVec 4) : Bool := pos == 0#4

/-- The seventh byte of an address: C, two reserved ones, SSID, X (40_address_frame.md R102). -/
def ssidByte (pos : BitVec 4) (ssid : BitVec 4) (last : Bool) : Byte :=
  ((BitVec.ofBool (cBit pos)).zeroExtend 8 <<< 7) ||| (1#8 <<< 6) ||| (1#8 <<< 5)
    ||| (ssid.zeroExtend 8 <<< 1) ||| (BitVec.ofBool last).zeroExtend 8

/-- The seven bytes of the address field at position `pos` (40_address_frame.md R103). -/
def Pending.addressField (p : Pending) (clen : Nat) (pos : BitVec 4) (ssid : Nat) (last : Bool) : List Byte :=
  p.callBytes clen ++ [ssidByte pos (BitVec.ofNat 4 ssid) last]

/-- The two bytes CTLPID appends: control 0x03, PID 0xF0 (40_address_frame.md R106). -/
def controlPid : List Byte := [0x03#8, 0xF0#8]

end Sys2Proof.Machine
end

