-- ==== Sys2Proof/Machine/Ops.lean ====
section
/-! DEFINITION. The named operations the commands share: the handshake, error entry and the return from it, the
capacity-checked append, and running a command's body. -/

namespace Sys2Proof.Machine

/-- The handshake of a completion: `PEND <- none; BUSY <- 0`, and no emission in progress (10_state.md R33). -/
def State.finish (s : State) : State := { s with pend := none, tx := none }

/-- Error entry, `raise E` (60_exceptions.md R232): the failing word and the stage in force go to ERRCMD and ERRSTG, STAGE
becomes S_ERROR, and nothing else changes. -/
def State.raise (e : Err) (w : Word) (s : State) : State :=
  { s with err := some e, errcmd := w, errstg := s.stage, stage := .error }

/-- The return from the error state, and the start of a new frame: the effect of CLEAR (45_control.md R211,
60_exceptions.md R241). LEN <- 0 leaves no cell in use. -/
def State.clearFrame (s : State) : State :=
  { s with
    bitbuf := [], addrcnt := 0#4, infocnt := 0#32, fcsreg := 0x0000#16
    err := none, errcmd := 0#32, errstg := .addr, drop := false, stage := .addr }

/-- Replace the bit sequence, `SEQ <- t`, after the capacity check, which comes before any change
(60_exceptions.md R235, 10_state.md R22). -/
def State.setSeq (t : BitSeq) (s : State) : Except Err State :=
  if s.cfg.cap < t.length then .error .bufferOverflow else .ok { s with bitbuf := t }

/-- `append(b)`, after the capacity check: BufferOverflow when LEN + |b| > CAP (60_exceptions.md R235). -/
def State.append (b : BitSeq) (s : State) : Except Err State :=
  s.setSeq (s.bitbuf ++ b)

/-- Require a stage, or raise Sequence; then go on (60_exceptions.md R236). -/
def State.inStage (st : Stage) (s : State) (go : Except Err State) : Except Err State :=
  if s.stage = st then go else .error .sequence

/-- One step inside a command, with error entry if it fails (45_control.md R212): the state to go on from, or the
state after error entry. -/
def attempt (w : Word) (body : State → Except Err State) (s : State) : Except State State :=
  match body s with
  | .ok t => .ok t
  | .error e => .error (s.raise e w)

/-- The completion of a command that is one step (60_exceptions.md R234): in S_ERROR it is ignored (R233); an error its body
raises is entered with the command's own word (R232); otherwise the body's effect stands. The handshake ends
it in every case (10_state.md R33). -/
def runBody (i : Instr) (body : State → Except Err State) (s : State) : Host.Outcome State Fault Refusal :=
  if s.stage = .error then .next s.finish
  else
    match attempt (s.current i).word body s with
    | .ok t => .next t.finish
    | .error t => .next t.finish

/-- The completion of an illegal word (60_exceptions.md R237): IllegalCommand in every stage but S_ERROR, where it is
ignored (R233). -/
def runIllegal (w : Word) (s : State) : Host.Outcome State Fault Refusal :=
  if s.stage = .error then .next s.finish else .next (s.raise .illegalCommand w).finish

/-- Accepting a command word: the word and the callsign registers as they are now go to PEND
(10_state.md R33). A fresh command has emitted nothing. -/
def State.accept (w : Word) (s : State) : State :=
  { s with pend := some { word := w, callLo := s.callLo, callHi := s.callHi }, tx := none }

/-- Hardware reset at run time (70_reset_and_hazards.md R260, R265): every register to its reset value, the pending command
discarded, and with it a `last` record that is accepted and not yet delivered (assumption 10). The parameters, what the
ports have delivered (10_state.md R37) and the environment's side are not the core's registers and stay. -/
def State.hwReset (s : State) : State :=
  { s with
    bitbuf := [], addrcnt := 0#4, infocnt := 0#32, stage := .addr, err := none, errcmd := 0#32
    errstg := .addr, fcsreg := 0x0000#16, callLo := 0#32, callHi := 0#16, pend := none, drop := false, tx := none }

/-- The sink starts or stops accepting on a port (44_afsk.md R186). -/
def State.setReady (p : Port) (ready : Bool) (s : State) : State :=
  match p with
  | .segment => { s with segReady := ready }
  | .sample => { s with smpReady := ready }

end Sys2Proof.Machine
end

