-- ==== Sys2Proof/Machine/Bus.lean ====
section
/-! DEFINITION. The host bus: the address map, reads and writes (20_memory.md). -/

namespace Sys2Proof.Machine

/-- What an offset of the window names (20_memory.md R52, R53, R54). -/
inductive Reg where
  | cmd
  | status
  | len
  | infocnt
  | errcmd
  | fcs
  | callLo
  | callHi
  | config
  | bufwin (k : Nat)
  | unmapped
deriving DecidableEq, Repr

/-- The offset of a physical address in the 64 KiB window at BASE, if it lies there (00_scope.md R9,
20_memory.md R50). -/
def windowOffset (c : Config) (addr : Nat) : Option Nat :=
  if c.base ≤ addr ∧ addr < c.base + 0x10000 then some (addr - c.base) else none

/-- The address map (20_memory.md R52, R53, R54). -/
def regAt (cap off : Nat) : Reg :=
  if off = 0x000 then .cmd
  else if off = 0x004 then .status
  else if off = 0x008 then .len
  else if off = 0x00C then .infocnt
  else if off = 0x010 then .errcmd
  else if off = 0x014 then .fcs
  else if off = 0x018 then .callLo
  else if off = 0x01C then .callHi
  else if off = 0x020 then .config
  else if 0x1000 ≤ off ∧ (off - 0x1000) / 4 < cap / 32 then .bufwin ((off - 0x1000) / 4)
  else .unmapped

/-- The offset a register is at (20_memory.md R52, R53); for `unmapped`, the first unmapped offset (R54). A `bufwin` index at or
above CAP / 32 names no register, and its offset is whatever the map has there (assumption 12). -/
def Reg.offset : Reg → Nat
  | .cmd => 0x000
  | .status => 0x004
  | .len => 0x008
  | .infocnt => 0x00C
  | .errcmd => 0x010
  | .fcs => 0x014
  | .callLo => 0x018
  | .callHi => 0x01C
  | .config => 0x020
  | .bufwin k => 0x1000 + 4 * k
  | .unmapped => 0x024

/-- Word k of the buffer window: bit j is BITBUF[32k + j], and 0 at or past LEN (20_memory.md R53). -/
def windowWord (m : Memory) (k : Nat) : Word :=
  BitVec.ofNat 32 (bitsToNat ((m.drop (32 * k)).take 32))

/-- What a register holds, read with BUSY = 0 (20_memory.md R52 to R55). -/
def State.regValue (r : Reg) (s : State) : Word :=
  match r with
  | .cmd => 0#32
  | .status => s.status
  | .len => BitVec.ofNat 32 s.len
  | .infocnt => s.infocnt
  | .errcmd => s.errcmd
  | .fcs => s.fcsreg.zeroExtend 32
  | .callLo => s.callLo
  | .callHi => s.callHi.zeroExtend 32
  | .config => Config.word s.cfg
  | .bufwin k => windowWord s.bitbuf k
  | .unmapped => 0#32

/-- Whether a read made while BUSY = 1 returns any value: STATUS but its bit 0, every other read-only register but CONFIG,
and the window (20_memory.md R59). -/
def Reg.drawnWhileBusy : Reg → Bool
  | .status => true
  | .len => true
  | .infocnt => true
  | .errcmd => true
  | .fcs => true
  | .bufwin _ => true
  | .cmd => false
  | .callLo => false
  | .callHi => false
  | .config => false
  | .unmapped => false

/-- A drawn read: STATUS.BUSY is exact, everything else is free (20_memory.md R59). -/
def drawnValue (r : Reg) (draw : Word) : Word :=
  if r = .status then draw ||| 1#32 else draw

/-- A host read of a register (20_memory.md R58, R59): it returns one word and changes no state of the core. -/
def State.readReg (r : Reg) (s : State) : State :=
  if s.busy && r.drawnWhileBusy then
    { s with rdata := drawnValue r (Config.freeRead s.draws), draws := s.draws + 1 }
  else { s with rdata := s.regValue r }

/-- A host write of a register: a CMD write is accepted, or dropped while BUSY = 1 (10_state.md R33, R34); CALL writes take
effect at once (20_memory.md R60); every other write is ignored (R53 to R55). -/
def State.writeReg (r : Reg) (v : Word) (s : State) : State :=
  match r with
  | .cmd => if s.busy then { s with drop := true } else s.accept v
  | .callLo => { s with callLo := v }
  | .callHi => { s with callHi := v.extractLsb' 0 16 }
  | .status => s
  | .len => s
  | .infocnt => s
  | .errcmd => s
  | .fcs => s
  | .config => s
  | .bufwin _ => s
  | .unmapped => s

/-- One host access to the register at a physical address: only a whole, aligned word of the window has a step
(20_memory.md R50, R51; assumption 11). -/
def busAccess (addr bytes : Nat) (go : Reg → State) (c : Config) : Host.Outcome State Fault Refusal :=
  match windowOffset c addr with
  | none => .fault .outsideWindow
  | some off => if bytes = 4 ∧ off % 4 = 0 then .next (go (regAt c.cap off)) else .refused .unsupportedAccess

/-- A host read (20_memory.md R51, R58). -/
def busRead (addr bytes : Nat) (s : State) : Host.Outcome State Fault Refusal :=
  busAccess addr bytes (fun r => s.readReg r) s.cfg

/-- A host write (20_memory.md R51, R58). -/
def busWrite (addr bytes : Nat) (v : Word) (s : State) : Host.Outcome State Fault Refusal :=
  busAccess addr bytes (fun r => s.writeReg r v) s.cfg

end Sys2Proof.Machine
end

