-- ==== Sys2Proof/Machine/AddressFrame.lean ====
section
/-! DEFINITION. Units 1 and 2, the address encoder and the frame assembler: ADDR, CTLPID, INFO (40_address_frame.md). -/

namespace Sys2Proof.Machine

/-- ADDR's checks, in the order of 40_address_frame.md R103, and its effect, with the snapshot `p`. -/
def addrBody (clen : Nat) (last : Bool) (ssid : Nat) (p : Pending) (s : State) : Except Err State :=
  s.inStage .addr
    (if 6 < clen then .error .invalidAddress
     else if s.addrcnt = 0#4 ∧ last = true then .error .sequence
     else if s.addrcnt = 9#4 ∧ last = false then .error .pathTooLong
     else
       (s.append (bytes (p.addressField clen s.addrcnt ssid last))).map fun t =>
         { t with addrcnt := s.addrcnt + 1#4, stage := if last then .ctl else .addr })

/-- ADDR (40_address_frame.md R103): append one 7-byte address field built from the snapshot taken at acceptance. -/
def execAddr (clen : Nat) (last : Bool) (ssid : Nat) (s : State) : Host.Outcome State Fault Refusal :=
  runBody (.addr clen last ssid) (addrBody clen last ssid (s.current (.addr clen last ssid))) s

/-- CTLPID's check and effect (40_address_frame.md R106). -/
def ctlpidBody (s : State) : Except Err State :=
  s.inStage .ctl
    ((s.append (bytes controlPid)).map fun t => { t with stage := .info })

/-- CTLPID (40_address_frame.md R106): append the control byte 0x03 and the PID byte 0xF0. -/
def execCtlpid (s : State) : Host.Outcome State Fault Refusal :=
  runBody .ctlpid ctlpidBody s

/-- INFO's check and effect (40_address_frame.md R107). -/
def infoBody (byte : Byte) (s : State) : Except Err State :=
  s.inStage .info
    ((s.append (bits8 byte)).map fun t => { t with infocnt := s.infocnt + 1#32 })

/-- INFO (40_address_frame.md R107): append one information byte as it is. -/
def execInfo (byte : Byte) (s : State) : Host.Outcome State Fault Refusal :=
  runBody (.info byte) (infoBody byte) s

end Sys2Proof.Machine
end

