-- ==== Sys2Proof/Machine/Afsk.lean ====
section
/-! DEFINITION. Unit 7, the AFSK modulator, its two ports and its NCO: MOD (44_afsk.md). -/

namespace Sys2Proof.Machine

/-- The baud of a profile (44_afsk.md R181). -/
def baud : Profile → Nat
  | .p300 => 300
  | .p600 => 600
  | .p1200 => 1200
  | .p2400 => 2400

/-- The mark frequency in Hz (44_afsk.md R181). -/
def markHz : Profile → Nat
  | .p300 => 1600
  | .p600 => 1470
  | .p1200 => 1200
  | .p2400 => 800

/-- The space frequency in Hz (44_afsk.md R181). -/
def spaceHz : Profile → Nat
  | .p300 => 1900
  | .p600 => 1930
  | .p1200 => 2200
  | .p2400 => 2600

/-- `freq(PROF, p)`: mark for a physical 1, space for a physical 0 (44_afsk.md R182). -/
def freqHz (prof : Profile) (bit : Bool) : Nat := if bit then markHz prof else spaceHz prof

/-- The duration of one segment in milliseconds, an exact rational (44_afsk.md R183). -/
def bitDurationMs (prof : Profile) : Rat := 1000 / (baud prof : Rat)

/-- The frequency a segment record stands for (44_afsk.md R180, R182). -/
def Seg.hz (r : Seg) : Nat := freqHz r.prof r.tone

/-- The duration a segment record stands for (44_afsk.md R180, R183). -/
def Seg.durationMs (r : Seg) : Rat := bitDurationMs r.prof

/-- TW(f): f * 2^32 / FS rounded to the nearest integer, halves up, mod 2^32 (44_afsk.md R191). -/
def tuningWord (fs f : Nat) : BitVec 32 := BitVec.ofNat 32 ((2 * f * 2 ^ 32 + fs) / (2 * fs))

/-- Ns = ceil(LEN * FS / baud), the number of samples of `len` physical bits (44_afsk.md R192). -/
def numSamples (fs : Nat) (prof : Profile) (len : Nat) : Nat := (len * fs + (baud prof - 1)) / baud prof

/-- i(n) = floor(n * baud / FS), the physical bit that keys sample n (44_afsk.md R192). -/
def sampleBit (fs : Nat) (prof : Profile) (n : Nat) : Nat := n * baud prof / fs

/-- The tuning word that advances the phase after sample n (44_afsk.md R193). -/
def phaseIncrement (fs : Nat) (prof : Profile) (bits : BitSeq) (n : Nat) : BitVec 32 :=
  tuningWord fs (freqHz prof (bits.getD (sampleBit fs prof n) false))

/-- The start of an emission: no record accepted, P = 0, n = 0 (44_afsk.md R193, 70_reset_and_hazards.md R262). -/
def Transmit.start (prof : Profile) (bits : BitSeq) (fcs : Half) : Transmit where
  prof := prof
  bits := bits
  fcs := fcs
  seg := 0
  smp := 0
  phase := 0#32
  segLast := none
  smpLast := none

/-- Whether segment records remain (44_afsk.md R184). -/
def Transmit.segLeft (t : Transmit) : Bool := decide (t.seg < t.bits.length)

/-- Whether samples remain at sample rate `fs` (44_afsk.md R184). -/
def Transmit.smpLeft (fs : Nat) (t : Transmit) : Bool :=
  decide (t.smp < numSamples fs t.prof t.bits.length)

/-- The next segment record (44_afsk.md R184). -/
def Transmit.segRecord (t : Transmit) : Seg where
  tone := t.bits.getD t.seg false
  prof := t.prof
  last := t.seg + 1 == t.bits.length

/-- The next sample record: WAVE of the phase before its update (44_afsk.md R194). -/
def Transmit.smpRecord (fs : Nat) (t : Transmit) : Smp where
  y := Config.wave t.phase
  last := t.smp + 1 == numSamples fs t.prof t.bits.length

/-- What the segment port delivers as the sink accepts its next record: that record, or nothing yet if it is the `last`
(70_reset_and_hazards.md R265, assumption 10). -/
def Transmit.segNow (t : Transmit) : List Seg := if t.segRecord.last then [] else [t.segRecord]

/-- What the sample port delivers as the sink accepts its next sample (70_reset_and_hazards.md R265, assumption 10). -/
def Transmit.smpNow (fs : Nat) (t : Transmit) : List Smp :=
  if (t.smpRecord fs).last then [] else [t.smpRecord fs]

/-- The emission after the sink has accepted its next segment record. -/
def Transmit.segSent (t : Transmit) : Transmit :=
  { t with seg := t.seg + 1, segLast := if t.segRecord.last then some t.segRecord else t.segLast }

/-- The emission after the sink has accepted its next sample: the phase advances, and is never reset (44_afsk.md R193). -/
def Transmit.smpSent (fs : Nat) (t : Transmit) : Transmit :=
  { t with
    smp := t.smp + 1, phase := t.phase + phaseIncrement fs t.prof t.bits t.smp
    smpLast := if (t.smpRecord fs).last then some (t.smpRecord fs) else t.smpLast }

/-- The sink accepts the next segment record. -/
def State.sendSeg (t : Transmit) (s : State) : State :=
  { s with segOut := s.segOut ++ t.segNow, tx := some t.segSent }

/-- The sink accepts the next sample. -/
def State.sendSmp (t : Transmit) (s : State) : State :=
  { s with smpOut := s.smpOut ++ t.smpNow s.cfg.fs, tx := some (t.smpSent s.cfg.fs) }

/-- The completion of an emitting command: its register and BITBUF effects, all in this step (10_state.md R33,
44_afsk.md R186), and with them the delivery of the accepted `last` records (assumption 10). -/
def State.commit (t : Transmit) (s : State) : State :=
  { s with
    bitbuf := t.bits, fcsreg := t.fcs, stage := .done
    segOut := s.segOut ++ t.segLast.toList, smpOut := s.smpOut ++ t.smpLast.toList }

/-- One turn of an emitting command (44_afsk.md R186): one record on a port that has one left and whose sink accepts, the
segment port first; the completion once the sink has accepted both ports' last; otherwise a wait (assumption 5). -/
def transmitStep (t : Transmit) (s : State) : Host.Outcome State Fault Refusal :=
  if t.segLeft && s.segReady then .next (s.sendSeg t)
  else if t.smpLeft s.cfg.fs && s.smpReady then .next (s.sendSmp t)
  else if t.segLeft || t.smpLeft s.cfg.fs then .next { s with tx := some t }
  else .next (s.commit t).finish

/-- MOD's stage check (44_afsk.md R184): it raises no other error and changes nothing yet. -/
def modCheck (s : State) : Except Err State := s.inStage .line (.ok s)

/-- MOD (44_afsk.md R184, R186): one turn of it. The stage check is made at the first turn; later turns go on with the emission
in progress. -/
def execMod (prof : Profile) (s : State) : Host.Outcome State Fault Refusal :=
  match s.tx with
  | some t => transmitStep t s
  | none =>
    if s.stage = .error then .next s.finish
    else
      match attempt (s.current (.mod prof)).word modCheck s with
      | .error t => .next t.finish
      | .ok t => transmitStep (Transmit.start prof t.bitbuf t.fcsreg) s

end Sys2Proof.Machine
end

