-- ==== Sys2Proof/Machine/Fcs.lean ====
section
/-! DEFINITION. Unit 3, the CRC engine: FCS (41_fcs.md). -/

namespace Sys2Proof.Machine

/-- One bit through the CRC register: shift right, and XOR with 0x8408 if the bit shifted out differs from the input
bit (41_fcs.md R130). -/
def crcStep (r : Half) (b : Bool) : Half :=
  if r.getLsbD 0 = b then r >>> 1 else (r >>> 1) ^^^ 0x8408#16

/-- The CRC register `r` after a bit sequence, from the value `r` (41_fcs.md R130). -/
def crcRegister (r : Half) : BitSeq → Half
  | [] => r
  | b :: bs => crcRegister (crcStep r b) bs

/-- `crc16(s)`: initial register 0xFFFF, output complemented (41_fcs.md R130). -/
def crc16 (s : BitSeq) : Half := crcRegister 0xFFFF#16 s ^^^ 0xFFFF#16

/-- `fcs_bits(f)`: the low byte, then the high byte, each least significant bit first (41_fcs.md R131). -/
def fcsBits (f : Half) : BitSeq := bits8 (f.extractLsb' 0 8) ++ bits8 (f.extractLsb' 8 8)

/-- FCS's checks and effect (41_fcs.md R132). -/
def fcsBody (s : State) : Except Err State :=
  s.inStage .info
    ((s.append (fcsBits (crc16 s.bitbuf))).map fun t => { t with fcsreg := crc16 s.bitbuf, stage := .fcs })

/-- FCS (41_fcs.md R132): compute the frame check sequence over the whole sequence and append it. -/
def execFcs (s : State) : Host.Outcome State Fault Refusal :=
  runBody .fcs fcsBody s

end Sys2Proof.Machine
end

