-- ==== Sys2Proof/Machine/Nrzi.lean ====
section
/-! DEFINITION. Unit 6, the NRZI encoder: NRZI (43_nrzi.md). -/

namespace Sys2Proof.Machine

/-- `nrzi(s, init)`: a logical 0 toggles the line state, a logical 1 holds it, and the state after that is the physical bit
(43_nrzi.md R170). -/
def nrzi (line : Bool) : BitSeq → BitSeq
  | [] => []
  | true :: bs => line :: nrzi line bs
  | false :: bs => (!line) :: nrzi (!line) bs

/-- NRZI's check and effect: LEN does not change, so no overflow is possible (43_nrzi.md R171). -/
def nrziBody (s : State) : Except Err State :=
  s.inStage .framed (.ok { s with bitbuf := nrzi s.cfg.nrziInit s.bitbuf, stage := .line })

/-- NRZI (43_nrzi.md R171): line-encode the framed sequence in place, from NRZI_INIT. -/
def execNrzi (s : State) : Host.Outcome State Fault Refusal :=
  runBody .nrzi nrziBody s

end Sys2Proof.Machine
end

