-- ==== Sys2Proof/Machine/StuffFrame.lean ====
section
/-! DEFINITION. Units 4 and 5, the bit stuffer and the frame framer: STUFF, FRAME (42_stuff_frame.md). -/

namespace Sys2Proof.Machine

/-- The stuffer with its run counter at `cnt` (42_stuff_frame.md R150): a 0 goes in right after the fifth consecutive 1, and
starts no run. -/
def stuffFrom (cnt : Nat) : BitSeq → BitSeq
  | [] => []
  | true :: bs => if cnt + 1 = 5 then true :: false :: stuffFrom 0 bs else true :: stuffFrom (cnt + 1) bs
  | false :: bs => false :: stuffFrom 0 bs

/-- `stuff(s)`: the run counter starts at 0 (42_stuff_frame.md R150). -/
def stuff (s : BitSeq) : BitSeq := stuffFrom 0 s

/-- STUFF's checks and effect (42_stuff_frame.md R151). -/
def stuffBody (s : State) : Except Err State :=
  s.inStage .fcs
    ((s.setSeq (stuff s.bitbuf)).map fun t => { t with stage := .stuffed })

/-- STUFF (42_stuff_frame.md R151): bit-stuff the frame body in place. -/
def execStuff (s : State) : Host.Outcome State Fault Refusal :=
  runBody .stuff stuffBody s

/-- FLAG, the expansion of 0x7E (42_stuff_frame.md R153). -/
def flag : BitSeq := bits8 0x7E#8

/-- FRAME's checks and effect (42_stuff_frame.md R154). -/
def frameBody (s : State) : Except Err State :=
  s.inStage .stuffed
    ((s.setSeq (flag ++ s.bitbuf ++ flag)).map fun t => { t with stage := .framed })

/-- FRAME (42_stuff_frame.md R154): add one flag on each side of the body. -/
def execFrame (s : State) : Host.Outcome State Fault Refusal :=
  runBody .frame frameBody s

end Sys2Proof.Machine
end

