-- ==== Sys2Proof/Machine/Control.lean ====
section
/-! DEFINITION. The control commands NOP, CLEAR and RUN (45_control.md). -/

namespace Sys2Proof.Machine

/-- NOP (45_control.md R210): only the handshake takes place, in any stage. -/
def execNop (s : State) : Host.Outcome State Fault Refusal :=
  .next s.finish

/-- CLEAR (45_control.md R211): start a new frame; accepted in every stage, S_ERROR included. -/
def execClear (s : State) : Host.Outcome State Fault Refusal :=
  .next s.clearFrame.finish

/-- The FCS, STUFF, FRAME and NRZI steps of a RUN in order, each with its own checks; the first that fails ends it, after
error entry from the state that step began in (45_control.md R212). -/
def lineUp (w : Word) (s : State) : Except State State :=
  match attempt w fcsBody s with
  | .error t => .error t
  | .ok s1 =>
    match attempt w stuffBody s1 with
    | .error t => .error t
    | .ok s2 =>
      match attempt w frameBody s2 with
      | .error t => .error t
      | .ok s3 => attempt w nrziBody s3

/-- RUN (45_control.md R212): one turn of it. At the first turn the FCS to NRZI steps are settled, and an error they raise
completes RUN at once; otherwise its MOD step emits their result, as MOD does (assumption 9). -/
def execRun (prof : Profile) (s : State) : Host.Outcome State Fault Refusal :=
  match s.tx with
  | some t => transmitStep t s
  | none =>
    if s.stage = .error then .next s.finish
    else
      match lineUp (s.current (.run prof)).word s with
      | .error t => .next t.finish
      | .ok t => transmitStep (Transmit.start prof t.bitbuf t.fcsreg) s

end Sys2Proof.Machine
end

