-- ==== Sys2Proof/Machine/Dispatch.lean ====
section
/-! DEFINITION. The one dispatch from a command to its meaning. -/

namespace Sys2Proof.Machine

/-- The meaning of command `i`: one turn of the core's agent on it, pending in `s` (10_state.md R33, 44_afsk.md R186). -/
def exec (i : Instr) (s : State) : Host.Outcome State Fault Refusal :=
  match i with
  | .nop => Sys2Proof.Machine.execNop s
  | .clear => Sys2Proof.Machine.execClear s
  | .addr clen last ssid => Sys2Proof.Machine.execAddr clen last ssid s
  | .ctlpid => Sys2Proof.Machine.execCtlpid s
  | .info byte => Sys2Proof.Machine.execInfo byte s
  | .fcs => Sys2Proof.Machine.execFcs s
  | .stuff => Sys2Proof.Machine.execStuff s
  | .frame => Sys2Proof.Machine.execFrame s
  | .nrzi => Sys2Proof.Machine.execNrzi s
  | .mod prof => Sys2Proof.Machine.execMod prof s
  | .run prof => Sys2Proof.Machine.execRun prof s

end Sys2Proof.Machine
end

