-- ==== Sys2Proof/Machine/Agents.lean ====
section
/-! DEFINITION. The agents: one turn of the core, and what each action of the environment does (10_state.md R20). -/

namespace Sys2Proof.Machine

/-- One turn of the core's agent on a pending command (60_exceptions.md R234): decode its word, then run the command or
raise IllegalCommand. -/
def runPending (p : Pending) (s : State) : Host.Outcome State Fault Refusal :=
  match decode p.word with
  | .ok i => exec i s
  | .error _ => runIllegal p.word s

/-- One turn of the core's agent (10_state.md R33); with nothing pending the core is idle and every register keeps its value
(60_exceptions.md R246). -/
def coreStep (s : State) : Host.Outcome State Fault Refusal :=
  match s.pend with
  | none => .next s
  | some p => runPending p s

/-- What one event does. -/
def deliver (e : Event) (s : State) : Host.Outcome State Fault Refusal :=
  match e with
  | .read addr bytes => busRead addr bytes s
  | .write addr bytes value => busWrite addr bytes value s
  | .reset => .next s.hwReset
  | .sink port ready => .next (s.setReady port ready)
  | .core => coreStep s

/-- One step of the machine: the next scheduled event, or, with none scheduled, a turn of the core
(70_reset_and_hazards.md R269; assumption 2). -/
def agentStep (s : State) : Host.Outcome State Fault Refusal :=
  match s.inbox with
  | [] => coreStep s
  | e :: rest => deliver e { s with inbox := rest }

/-- The state with a command word accepted and the core given the next turn. -/
def State.loadCommand (w : Word) (s : State) : State :=
  { s.accept w with inbox := .core :: s.inbox }

end Sys2Proof.Machine
end

