-- ==== Sys2Proof/Machine/Step.lean ====
section
/-! DEFINITION. The step function, and how a command word is put where the next step takes it. -/

namespace Sys2Proof.Machine

/-- One step of the machine: one event of the schedule, or one turn of the core. -/
def step (s : State) : Host.Outcome State Fault Refusal := agentStep s

/-- The core fetches nothing: a command comes to run by the CMD write that accepts it (20_memory.md R63). So the word is
accepted, as by that write, and the next turn is the core's. -/
def State.withFetchWord (s : State) (nbits w : Nat) : State := s.loadCommand (tableWord nbits w)

end Sys2Proof.Machine
end

