-- ==== Sys2Proof/Machine/Artifact.lean ====
section
/-! DEFINITION. What one MOD delivers as a whole, in the spec's closed forms: the two record sequences, the phase
sequence, and the line image of a frame. -/

namespace Sys2Proof.Machine

/-- The segment records of a MOD, one per physical bit (44_afsk.md R184). -/
def segRecords (prof : Profile) (bits : BitSeq) : List Seg :=
  (List.range bits.length).map fun i =>
    { tone := bits.getD i false, prof := prof, last := i + 1 == bits.length }

/-- P_n, the phase before sample n's update (44_afsk.md R193, R194). -/
def phaseAt (fs : Nat) (prof : Profile) (bits : BitSeq) : Nat → BitVec 32
  | 0 => 0#32
  | n + 1 => phaseAt fs prof bits n + phaseIncrement fs prof bits n

/-- The sample records of a MOD (44_afsk.md R184, R194). -/
def smpRecords (fs : Nat) (prof : Profile) (bits : BitSeq) : List Smp :=
  (List.range (numSamples fs prof bits.length)).map fun n =>
    { y := Config.wave (phaseAt fs prof bits n), last := n + 1 == numSamples fs prof bits.length }

/-- What a port has delivered once the sink has accepted `k` of its records `rs` and the command has not completed: all of
these but the last of `rs` (70_reset_and_hazards.md R265, assumption 10). -/
def openPrefix {α : Type} (rs : List α) (k : Nat) : List α := rs.take (min k (rs.length - 1))

/-- The last of a port's records `rs`, if it is among the `k` the sink has accepted: what the completion delivers. -/
def closing {α : Type} (rs : List α) (k : Nat) : Option α := if k < rs.length then none else rs.getLast?

/-- A body with its frame check sequence (41_fcs.md R132). -/
def withFcs (body : BitSeq) : BitSeq := body ++ fcsBits (crc16 body)

/-- A body with its frame check sequence, stuffed and framed (42_stuff_frame.md R151, R154). -/
def framed (body : BitSeq) : BitSeq := flag ++ stuff (withFcs body) ++ flag

/-- The physical bits of a body (43_nrzi.md R171). -/
def lineImage (init : Bool) (body : BitSeq) : BitSeq := nrzi init (framed body)

/-- What an address was built from: its snapshot, its length and its SSID. -/
structure Address where
  snapshot : Pending
  clen : Nat
  ssid : Nat
deriving DecidableEq, Repr

/-- The bytes of an address chain, each at its position; the last carries X = 1 when the chain is closed
(40_address_frame.md R103, R108). -/
def chainBytes (closed : Bool) (as : List Address) : List Byte :=
  (as.mapIdx fun i a =>
    a.snapshot.addressField a.clen (BitVec.ofNat 4 i) a.ssid (closed && i + 1 == as.length)).flatten

/-- The frame before its FCS (40_address_frame.md R108). -/
def frameBits (as : List Address) (info : List Byte) : BitSeq :=
  bytes (chainBytes true as ++ controlPid ++ info)

end Sys2Proof.Machine
end

