-- ==== Sys2Proof/Machine/HostProgram.lean ====
section
/-! DEFINITION. The host's side: its bus operations by register, and the pseudo-instructions and frame protocol of host
programs (30_encoding.md R75, R76; 70_reset_and_hazards.md R263). Polling is a closed loop here; on the bus it
is the same reads and core turns as a schedule of events. -/

namespace Sys2Proof.Machine

/-- Go on from a next state; a stop stays a stop. -/
def andThen (o : Host.Outcome State Fault Refusal) (f : State → Host.Outcome State Fault Refusal) :
    Host.Outcome State Fault Refusal :=
  match o with
  | .next s => f s
  | .fault r => .fault r
  | .refused r => .refused r

/-- `n` steps of the machine; a stop ends them. -/
def steps : Nat → State → Host.Outcome State Fault Refusal
  | 0, s => .next s
  | n + 1, s => andThen (step s) (steps n)

/-- `RD reg`: MemRead(offset(reg), 4) (30_encoding.md R75). -/
def rd (r : Reg) (s : State) : Host.Outcome State Fault Refusal := busRead (s.cfg.base + r.offset) 4 s

/-- `WR reg, value`: MemWrite(offset(reg), 4, value) (30_encoding.md R75). -/
def wr (r : Reg) (v : Word) (s : State) : Host.Outcome State Fault Refusal :=
  busWrite (s.cfg.base + r.offset) 4 v s

/-- How far a host program has got when it has been watched for a while. -/
inductive HostResult where
  /-- Every line has run, or the machine stopped in one. -/
  | ended (o : Host.Outcome State Fault Refusal)
  /-- It is still in a WAIT: every STATUS read so far gave BUSY = 1. -/
  | waiting (s : State)
deriving Repr

/-- Go on with the next line; a program that waits, or whose machine has stopped, does not. -/
def hostThen (r : HostResult) (f : State → HostResult) : HostResult :=
  match r with
  | .ended (.next s) => f s
  | .ended (.fault e) => .ended (.fault e)
  | .ended (.refused e) => .ended (.refused e)
  | .waiting s => .waiting s

/-- `WAIT`: repeat `RD STATUS` until bit 0 reads 0 (30_encoding.md R76), the core taking a turn before each read, watched for
`polls` reads: if all of them gave 1 the program waits on (assumption 14). -/
def waitIdle : Nat → State → HostResult
  | 0, s => .waiting s
  | polls + 1, s =>
    hostThen (.ended (coreStep s)) fun t =>
      hostThen (.ended (rd .status t)) fun u =>
        if u.rdata.getLsbD 0 then waitIdle polls u else .ended (.next u)

/-- Character j of a callsign, or a space where it is shorter (30_encoding.md R76). -/
def charAt (chars : List Byte) (j : Nat) : Byte := chars.getD j 0x20#8

/-- The word `SETCALL` writes to CALL_LO (30_encoding.md R76). -/
def callLoWord (chars : List Byte) : Word :=
  charAt chars 3 ++ charAt chars 2 ++ charAt chars 1 ++ charAt chars 0

/-- The word `SETCALL` writes to CALL_HI (30_encoding.md R76). -/
def callHiWord (chars : List Byte) : Word := 0#16 ++ charAt chars 5 ++ charAt chars 4

/-- One line of a host program (30_encoding.md R75, R76). -/
inductive HostLine where
  | wr (r : Reg) (v : Word)
  | rd (r : Reg)
  | wait
  /-- A bare command mnemonic: write its word to CMD, then WAIT. -/
  | command (i : Instr)
  /-- SETCALL: 0 to 6 characters. -/
  | setCall (chars : List Byte)
deriving DecidableEq, Repr

/-- What a line does (30_encoding.md R76), each WAIT watched for `polls` reads. DESIGN CHOICE (assumption 14): the core takes
turns only inside a WAIT, none before, within or after another line, though a completion may come at any point after the
acceptance (00_scope.md R10); a WR CMD straight after a WR CMD therefore finds BUSY = 1 here. The schedule that `step`
reads has every other interleaving. -/
def HostLine.perform (polls : Nat) (l : HostLine) (s : State) : HostResult :=
  match l with
  | .wr r v => .ended (Machine.wr r v s)
  | .rd r => .ended (Machine.rd r s)
  | .wait => waitIdle polls s
  | .command i => hostThen (.ended (Machine.wr .cmd (encode i) s)) (waitIdle polls)
  | .setCall chars =>
    hostThen (.ended (Machine.wr .callLo (callLoWord chars) s)) fun t =>
      .ended (Machine.wr .callHi (callHiWord chars) t)

/-- A host program, line by line, each WAIT watched for `polls` reads. DESIGN CHOICE (assumption 14): between the lines the core
takes no turn, and the sink's flags stay as they are throughout, though the sink may stop and start at any point
(44_afsk.md R186). -/
def runProgram (polls : Nat) : List HostLine → State → HostResult
  | [], s => .ended (.next s)
  | l :: ls, s => hostThen (l.perform polls s) (runProgram polls ls)

/-- The program runs from `s` to its end, in `t`: each of its WAITs repeats as often as it takes (30_encoding.md R76). -/
def Runs (ls : List HostLine) (s t : State) : Prop := ∃ polls, runProgram polls ls s = .ended (.next t)

/-- A callsign with its SSID, as the host holds it. -/
structure Station where
  call : List Byte
  ssid : Nat
deriving DecidableEq, Repr

/-- `ADDRESS "s", ssid, last` (30_encoding.md R76). -/
def addressLines (a : Station) (last : Bool) : List HostLine :=
  [.setCall a.call, .command (.addr a.call.length last a.ssid)]

/-- The ADDRESS lines of a chain, LAST = 1 only on the final one (70_reset_and_hazards.md R263). -/
def chainLines : List Station → List HostLine
  | [] => []
  | [a] => addressLines a true
  | a :: b :: rest => addressLines a false ++ chainLines (b :: rest)

/-- `INFOS "t"` (30_encoding.md R76). -/
def infoLines (t : List Byte) : List HostLine := t.map fun b => .command (.info b)

/-- Steps 2 to 4 of the frame protocol: the addresses, the control and PID bytes, the payload
(70_reset_and_hazards.md R263). -/
def bodyLines (chain : List Station) (t : List Byte) : List HostLine :=
  chainLines chain ++ [.command .ctlpid] ++ infoLines t

/-- The frame protocol, with RUN for its last part (70_reset_and_hazards.md R263). -/
def frameLines (chain : List Station) (t : List Byte) (prof : Profile) : List HostLine :=
  [.command .clear] ++ bodyLines chain t ++ [.command (.run prof), .rd .status]

/-- The snapshot an ADDRESS line's ADDR is accepted with. -/
def Station.address (a : Station) (last : Bool) : Address where
  snapshot :=
    { word := encode (.addr a.call.length last a.ssid), callLo := callLoWord a.call
      callHi := (callHiWord a.call).extractLsb' 0 16 }
  clen := a.call.length
  ssid := a.ssid

end Sys2Proof.Machine
end

