-- ==== Sys2Proof/Machine/Receiver.lean ====
section
/-! DEFINITION. The receiver's side of the laws: the functions the spec states its round trips with. No step of the core uses
them; the spec keeps receiving out of the core's scope (00_scope.md R3). -/

namespace Sys2Proof.Machine

/-- The receiver's scan: a 0 that follows five consecutive 1s is deleted; `cnt` counts the 1s so far, to 5
(42_stuff_frame.md R152; assumption 16). -/
def unstuffFrom (cnt : Nat) : BitSeq → BitSeq
  | [] => []
  | true :: bs => true :: unstuffFrom (if cnt < 5 then cnt + 1 else 5) bs
  | false :: bs => if cnt = 5 then unstuffFrom 0 bs else false :: unstuffFrom 0 bs

/-- `unstuff(t)` (42_stuff_frame.md R152). -/
def unstuff (t : BitSeq) : BitSeq := unstuffFrom 0 t

/-- `unnrzi(p, init)`: 1 where the physical bit equals the one before it (43_nrzi.md R173). -/
def unnrzi (prev : Bool) : BitSeq → BitSeq
  | [] => []
  | b :: bs => (b == prev) :: unnrzi b bs

/-- `decode_call(a)`: the six bytes shifted right by one, trailing spaces removed (40_address_frame.md R109). -/
def decodeCall (field : List Byte) : List Byte :=
  ((((field.take 6).map fun (b : Byte) => b >>> 1).reverse).dropWhile fun (b : Byte) => b == 0x20#8).reverse

/-- `decode_ssid(a)`: bits 4:1 of the seventh byte (40_address_frame.md R109). -/
def decodeSsid (field : List Byte) : Nat := ((field.getD 6 0#8).extractLsb' 1 4).toNat

/-- The register after a receiver has run the CRC over a body and its FCS, with no final complement
(41_fcs.md R133). -/
def residue (s : BitSeq) : Half := crcRegister 0xFFFF#16 (s ++ fcsBits (crc16 s))

end Sys2Proof.Machine
end

