-- ==== Sys2Proof/Safety.lean ====
section
/-! DEFINITION. What a safe state is: the invariants the spec gives the machine, in the terms statements use. -/

namespace Sys2Proof.Machine

/-- The registers agree with one another: the capacity bound (10_state.md R22), the bounds of ADDRCNT (R23,
40_address_frame.md R104, R105), the error registers (R27, R28, R29), and an emission only under a pending
command in a stage that may emit (44_afsk.md R186, 45_control.md R212). -/
structure Coherent (s : State) : Prop where
  legal : s.cfg.Legal
  capacity : Memory.wf s.cfg.cap s.bitbuf = true
  chainOpen : s.stage = .addr → s.addrcnt.toNat ≤ 9
  chainClosed : s.stage ≠ .addr → s.stage ≠ .error → 2 ≤ s.addrcnt.toNat ∧ s.addrcnt.toNat ≤ 10
  chainBound : s.addrcnt.toNat ≤ 10
  errorHeld : s.stage = .error ↔ s.err ≠ none
  noErrorHeld : s.err = none → s.errcmd = 0#32 ∧ s.errstg = .addr
  emission : ∀ t, s.tx = some t →
    t.bits.length ≤ s.cfg.cap ∧
      ∃ p, s.pend = some p ∧
        ((s.stage = .line ∧ decode p.word = .ok (.mod t.prof))
          ∨ (s.stage = .info ∧ decode p.word = .ok (.run t.prof)))

/-- An emission in progress is exactly a prefix of the command's artifact: what is sent is the frame's line image, P is
P_n, and each port has delivered the records accepted so far, in order, but for its last, which is held
(44_afsk.md R184, R186, R193; 70_reset_and_hazards.md R265; the holding is assumption 10). -/
structure EmissionOnCourse (s : State) : Prop where
  source : ∀ t, s.tx = some t →
    (s.stage = .line ∧ t.bits = s.bitbuf ∧ t.fcs = s.fcsreg)
      ∨ (s.stage = .info ∧ t.bits = lineImage s.cfg.nrziInit s.bitbuf ∧ t.fcs = crc16 s.bitbuf)
  counts : ∀ t, s.tx = some t →
    t.seg ≤ t.bits.length ∧ t.smp ≤ numSamples s.cfg.fs t.prof t.bits.length
  phase : ∀ t, s.tx = some t → t.phase = phaseAt s.cfg.fs t.prof t.bits t.smp
  segments : ∀ t, s.tx = some t →
    ∃ before, s.segOut = before ++ openPrefix (segRecords t.prof t.bits) t.seg
  samples : ∀ t, s.tx = some t →
    ∃ before, s.smpOut = before ++ openPrefix (smpRecords s.cfg.fs t.prof t.bits) t.smp
  segHeld : ∀ t, s.tx = some t → t.segLast = closing (segRecords t.prof t.bits) t.seg
  smpHeld : ∀ t, s.tx = some t → t.smpLast = closing (smpRecords s.cfg.fs t.prof t.bits) t.smp

/-- The chain of `as` is what ADDRCNT counts, each address within the length ADDR accepts. -/
def ChainOf (s : State) (as : List Address) : Prop :=
  as.length = s.addrcnt.toNat ∧ ∀ a ∈ as, a.clen ≤ 6

/-- The payload of `info` is what INFOCNT counts. -/
def PayloadOf (s : State) (info : List Byte) : Prop := info.length = s.infocnt.toNat

/-- In a stage past the FCS the buffer is the image `f` of some frame, and FCSREG its check sequence. -/
def FinishedAs (s : State) (f : BitSeq → BitSeq) : Prop :=
  ∃ as info, ChainOf s as ∧ PayloadOf s info ∧ s.bitbuf = f (frameBits as info)
    ∧ s.fcsreg = crc16 (frameBits as info)

/-- What the buffer holds in each stage: the frame of 40_address_frame.md R108 as far as it has come
(10_state.md R26, 40_address_frame.md R105). -/
def FrameContents (s : State) : Prop :=
  match s.stage with
  | .addr => ∃ as, ChainOf s as ∧ PayloadOf s [] ∧ s.bitbuf = bytes (chainBytes false as)
  | .ctl => ∃ as, ChainOf s as ∧ PayloadOf s [] ∧ s.bitbuf = bytes (chainBytes true as)
  | .info => ∃ as info, ChainOf s as ∧ PayloadOf s info ∧ s.bitbuf = frameBits as info
  | .fcs => FinishedAs s withFcs
  | .stuffed => FinishedAs s fun body => stuff (withFcs body)
  | .framed => FinishedAs s framed
  | .line => FinishedAs s (lineImage s.cfg.nrziInit)
  | .done => FinishedAs s (lineImage s.cfg.nrziInit)
  | .error => True

end Sys2Proof.Machine
end

