-- ==== Sys2Proof/Certificates/Slice0/Obligations.lean ====
section
/-! DEFINITION. The statements, each from the rules of the spec its docstring names. -/

namespace Sys2Proof.Machine

/-- The eleven rows of the opcode table as (match, mask) (30_encoding.md R71, R72). -/
def legalRows : List (Word × Word) :=
  [(0x00000000#32, 0xFFFFFFFF#32), (0x01000000#32, 0xFFFFFFFF#32), (0x10000000#32, 0xFFFFF8E0#32),
   (0x11000000#32, 0xFFFFFFFF#32), (0x12000000#32, 0xFFFFFF00#32), (0x20000000#32, 0xFFFFFFFF#32),
   (0x30000000#32, 0xFFFFFFFF#32), (0x40000000#32, 0xFFFFFFFF#32), (0x50000000#32, 0xFFFFFFFF#32),
   (0x60000000#32, 0xFFFFFFFC#32), (0x70000000#32, 0xFFFFFFFC#32)]

/-- The state a command leaves that raises `e` with word `w`: error entry (60_exceptions.md R232) and the end of the
handshake, and nothing else changed. -/
def errorEntered (e : Err) (w : Word) (s : State) : State :=
  { s with err := some e, errcmd := w, errstg := s.stage, stage := .error, pend := none, tx := none }

/-- The state CLEAR leaves (45_control.md R211). -/
def cleared (s : State) : State :=
  { s with
    bitbuf := [], addrcnt := 0#4, infocnt := 0#32, fcsreg := 0#16, err := none, errcmd := 0#32
    errstg := .addr, drop := false, stage := .addr, pend := none, tx := none }

/-- The stage an accepted command leaves when it completes without error (60_exceptions.md R236). -/
def nextStage : Instr → Stage → Stage
  | .nop, st => st
  | .clear, _ => .addr
  | .addr _ last _, _ => if last then .ctl else .addr
  | .ctlpid, _ => .info
  | .info _, _ => .info
  | .fcs, _ => .fcs
  | .stuff, _ => .stuffed
  | .frame, _ => .framed
  | .nrzi, _ => .line
  | .mod _, _ => .done
  | .run _, _ => .done

/-- The commands that emit records (10_state.md R37). -/
def Emits (i : Instr) : Prop := ∃ prof, i = .mod prof ∨ i = .run prof

/-- The core's agent takes the next turn: it is scheduled, or nothing is. -/
def CoreTurn (s : State) : Prop := s.inbox = [] ∨ ∃ rest, s.inbox = .core :: rest

/-- The core's agent takes the next turn, and `rest` is what the schedule holds after it. -/
def TakesTurn (s : State) (rest : List Event) : Prop := (s.inbox = [] ∧ rest = []) ∨ s.inbox = .core :: rest

/-- The pending command is a CLEAR, and the core takes the next turn. -/
def ClearCompletesNow (s : State) : Prop :=
  CoreTurn s ∧ ∃ p, s.pend = some p ∧ decode p.word = .ok .clear

/-- Both ports' sinks accept, and nothing is scheduled (44_afsk.md R186). -/
def SinkAccepts (s : State) : Prop := s.segReady = true ∧ s.smpReady = true ∧ s.inbox = []

/-- The sizes a body of these bits must meet for RUN's three capacity checks (45_control.md R212, 60_exceptions.md R235). -/
def BodyFits (cap : Nat) (body : BitSeq) : Prop :=
  body.length + 16 ≤ cap ∧ (stuff (withFcs body)).length + 16 ≤ cap

/-- A MOD or a RUN is pending that passes its checks at its first turn, and `bits` are the physical bits it will send
(44_afsk.md R184, 45_control.md R212). -/
def WillEmit (s : State) (prof : Profile) (bits : BitSeq) : Prop :=
  s.tx = none ∧ ∃ p, s.pend = some p ∧
    ((decode p.word = .ok (.mod prof) ∧ s.stage = .line ∧ bits = s.bitbuf)
      ∨ (decode p.word = .ok (.run prof) ∧ s.stage = .info ∧ BodyFits s.cfg.cap s.bitbuf
          ∧ bits = lineImage s.cfg.nrziInit s.bitbuf))

/-- How many turns an emission of these bits takes: one a record, and the completion (44_afsk.md R186). -/
def emissionTurns (fs : Nat) (prof : Profile) (bits : BitSeq) : Nat :=
  bits.length + numSamples fs prof bits.length + 1

/-- A chain the host may send: 2 to 10 stations, callsigns of at most 6 characters, SSIDs of 4 bits
(40_address_frame.md R104, 70_reset_and_hazards.md R264). -/
def ChainValid (chain : List Station) : Prop :=
  2 ≤ chain.length ∧ chain.length ≤ 10 ∧ ∀ a ∈ chain, a.call.length ≤ 6 ∧ a.ssid < 16

/-- The body of a frame for this chain and payload (40_address_frame.md R108). -/
def bodyOf (chain : List Station) (info : List Byte) : BitSeq :=
  frameBits (chain.map fun a => a.address false) info

/-- The records of one RUN of `body` are appended to both histories (44_afsk.md R184, 45_control.md R212). -/
def Delivered (prof : Profile) (bits : BitSeq) (s t : State) : Prop :=
  t.segOut = s.segOut ++ segRecords prof bits ∧ t.smpOut = s.smpOut ++ smpRecords s.cfg.fs prof bits

end Sys2Proof.Machine

open Sys2Proof Sys2Proof.Machine

/-! ## Encoding -/

/-- Decoding the word of a well-formed command gives it back, every operand at every value its field admits
(30_encoding.md R72, R74, R75). -/
def Obligations.DecodeOfEncode : Prop :=
  ∀ i : Instr, WellFormed i = true → decode (encode i) = .ok i

/-- A legal word decodes to a well-formed command whose word it is: no two words spell one command
(30_encoding.md R70, R74, R75). -/
def Obligations.EncodeOfDecode : Prop :=
  ∀ (w : Word) (i : Instr), decode w = .ok i → WellFormed i = true ∧ encode i = w

/-- The legal words are exactly those of the opcode table's rows (30_encoding.md R71, R72, R73; opcode_table.json). -/
def Obligations.LegalWordsAreTheTableRows : Prop :=
  ∀ w : Word, (∃ i, decode w = .ok i) ↔ ∃ r ∈ legalRows, w &&& r.2 = r.1

/-- Words of the spec's own table of decodings (95_test_vectors.md, section 2.10). -/
def Obligations.DecodeSampleWords : Prop :=
  decode 0x00000000#32 = .ok .nop ∧ decode 0x01000000#32 = .ok .clear
    ∧ decode 0x1000061F#32 = .ok (.addr 6 true 15) ∧ decode 0x10000700#32 = .ok (.addr 7 false 0)
    ∧ decode 0x120000FF#32 = .ok (.info 0xFF#8) ∧ decode 0x60000003#32 = .ok (.mod .p2400)
    ∧ decode 0x70000001#32 = .ok (.run .p600) ∧ decode 0x02000000#32 = .error .unusedOpcode
    ∧ decode 0x10000020#32 = .error .reservedBits ∧ decode 0x60000004#32 = .error .reservedBits

/-! ## The step -/

/-- When the pending word decodes to `i` and the core has the turn, the step is `exec i`; and a word put where the core takes
its next command runs at the next step (10_state.md R33, 60_exceptions.md R234). With nothing pending and nothing scheduled
every register keeps its value (60_exceptions.md R246).
That the core has the turn when nothing is scheduled is the model's choice: assumption 2. -/
def Obligations.StepRunsDecodedCommand : Prop :=
  (∀ (s : State) (p : Pending) (i : Instr), s.pend = some p → decode p.word = .ok i →
    (s.inbox = [] → step s = exec i s)
      ∧ ∀ rest, s.inbox = .core :: rest → step s = exec i { s with inbox := rest })
    ∧ (∀ (s : State) (w : Word) (i : Instr), decode w = .ok i →
        step (s.withFetchWord 32 w.toNat) = exec i (s.accept w))
    ∧ ∀ s : State, s.pend = none → s.inbox = [] → step s = .next s

/-- An illegal word raises IllegalCommand in every stage but S_ERROR, where it is ignored (60_exceptions.md R237). -/
def Obligations.IllegalWordRaises : Prop :=
  ∀ (s : State) (p : Pending) (r : Reject) (rest : List Event), s.pend = some p → decode p.word = .error r →
    TakesTurn s rest →
    (s.stage ≠ .error → step s = .next (errorEntered .illegalCommand p.word { s with inbox := rest }))
      ∧ (s.stage = .error → step s = .next { s with pend := none, tx := none, inbox := rest })

/-- In S_ERROR a completing CLEAR runs, and every other word, NOP or any other, legal or not, changes nothing but the handshake
(60_exceptions.md R233). -/
def Obligations.ErrorStateIgnoresCommands : Prop :=
  ∀ (s : State) (p : Pending) (rest : List Event), s.stage = .error → s.tx = none → s.pend = some p →
    TakesTurn s rest →
    (decode p.word = .ok .clear → step s = .next (cleared { s with inbox := rest }))
      ∧ (decode p.word ≠ .ok .clear → step s = .next { s with pend := none, inbox := rest })

/-- STAGE only leaves S_ERROR by the completion of a CLEAR or by reset, and no step from S_ERROR emits a record on either port
(60_exceptions.md R231, R241). -/
def Obligations.OnlyClearOrResetLeavesError : Prop :=
  ∀ s t : State, s.stage = .error → s.tx = none → step s = .next t →
    (t.segOut = s.segOut ∧ t.smpOut = s.smpOut)
      ∧ (t.stage ≠ .error → ClearCompletesNow s ∨ ∃ rest, s.inbox = .reset :: rest)

/-- No step overwrites a held error while it is held: there is no nested error (60_exceptions.md R240,
10_state.md R27 to R29). -/
def Obligations.FirstErrorIsKept : Prop :=
  ∀ s t : State, s.stage = .error → s.tx = none → step s = .next t → t.stage = .error →
    t.err = s.err ∧ t.errcmd = s.errcmd ∧ t.errstg = s.errstg ∧ t.bitbuf = s.bitbuf
      ∧ t.addrcnt = s.addrcnt ∧ t.infocnt = s.infocnt ∧ t.fcsreg = s.fcsreg ∧ t.tx = none

/-- The output histories only grow, by at most one record a port and step, only by a MOD or a RUN that is pending while the core
has the turn, and by a last record only in the step that ends the command (10_state.md R37; 44_afsk.md R186;
70_reset_and_hazards.md R265).
One record a turn, but for the completion, is the model's step: assumption 5. That the completion delivers the last
records is the model's choice: assumption 10. -/
def Obligations.OutputsOnlyAppendedByModAndRun : Prop :=
  ∀ s t : State, step s = .next t →
    (∃ a b, t.segOut = s.segOut ++ a ∧ t.smpOut = s.smpOut ++ b ∧ a.length ≤ 1 ∧ b.length ≤ 1
        ∧ (t.pend ≠ none →
            a.length + b.length ≤ 1 ∧ (∀ r ∈ a, r.last = false) ∧ ∀ r ∈ b, r.last = false))
      ∧ ((t.segOut ≠ s.segOut ∨ t.smpOut ≠ s.smpOut) →
          CoreTurn s ∧ ∃ p i, s.pend = some p ∧ decode p.word = .ok i ∧ Emits i)

/-- What no command writes, and the only commands that write each counter and data register (10_state.md R23, R24, R30, R31,
R34). -/
def Obligations.CommandsWriteOnlyTheirRegisters : Prop :=
  ∀ (i : Instr) (s t : State), exec i s = .next t →
    (t.cfg = s.cfg ∧ t.callLo = s.callLo ∧ t.callHi = s.callHi ∧ t.inbox = s.inbox ∧ t.segReady = s.segReady
        ∧ t.smpReady = s.smpReady ∧ t.rdata = s.rdata ∧ t.draws = s.draws)
      ∧ (i ≠ .clear → t.drop = s.drop)
      ∧ (i ≠ .clear → (∀ clen last ssid, i ≠ .addr clen last ssid) → t.addrcnt = s.addrcnt)
      ∧ (i ≠ .clear → (∀ b, i ≠ .info b) → t.infocnt = s.infocnt)
      ∧ (i ≠ .clear → i ≠ .fcs → (∀ prof, i ≠ .run prof) → (∀ u, s.tx = some u → u.fcs = s.fcsreg) →
          t.fcsreg = s.fcsreg)

/-! ## The commands -/

/-- NOP: its word, and no effect but the handshake (45_control.md R210). -/
def Obligations.NopOnlyEndsTheHandshake : Prop :=
  encode .nop = 0x00000000#32 ∧ ∀ s : State, exec .nop s = .next { s with pend := none, tx := none }

/-- CLEAR: its word, and a new frame, in every stage (45_control.md R211). -/
def Obligations.ClearStartsANewFrame : Prop :=
  encode .clear = 0x01000000#32 ∧ ∀ s : State, exec .clear s = .next (cleared s)

/-- ADDR (40_address_frame.md R103): its word; the 56 bits, ADDRCNT and STAGE it writes; its five errors in check order. -/
def Obligations.AddrAppendsOneField : Prop :=
  (∀ (clen ssid : Nat) (last : Bool), clen < 8 → ssid < 16 →
    encode (.addr clen last ssid) =
      0x10000000#32 ||| (BitVec.ofNat 32 clen <<< 8) ||| (BitVec.ofNat 32 last.toNat <<< 4) ||| BitVec.ofNat 32 ssid)
    ∧ ∀ (s : State) (p : Pending) (clen ssid : Nat) (last : Bool), s.pend = some p →
      (s.stage = .addr → clen ≤ 6 → ¬(s.addrcnt = 0#4 ∧ last = true) → ¬(s.addrcnt = 9#4 ∧ last = false) →
        s.bitbuf.length + 56 ≤ s.cfg.cap →
        exec (.addr clen last ssid) s =
          .next { s with
            bitbuf := s.bitbuf ++
              bytes (p.callBytes clen ++ [ssidByte s.addrcnt (BitVec.ofNat 4 ssid) last])
            addrcnt := s.addrcnt + 1#4, stage := if last then .ctl else .addr, pend := none, tx := none })
      ∧ (s.stage ≠ .addr → s.stage ≠ .error →
          exec (.addr clen last ssid) s = .next (errorEntered .sequence p.word s))
      ∧ (s.stage = .addr → 6 < clen →
          exec (.addr clen last ssid) s = .next (errorEntered .invalidAddress p.word s))
      ∧ (s.stage = .addr → clen ≤ 6 → s.addrcnt = 0#4 → last = true →
          exec (.addr clen last ssid) s = .next (errorEntered .sequence p.word s))
      ∧ (s.stage = .addr → clen ≤ 6 → s.addrcnt = 9#4 → last = false →
          exec (.addr clen last ssid) s = .next (errorEntered .pathTooLong p.word s))
      ∧ (s.stage = .addr → clen ≤ 6 → ¬(s.addrcnt = 0#4 ∧ last = true) → ¬(s.addrcnt = 9#4 ∧ last = false) →
          s.cfg.cap < s.bitbuf.length + 56 →
          exec (.addr clen last ssid) s = .next (errorEntered .bufferOverflow p.word s))

/-- The seven bytes of an address as numbers: character j of the 48 bits CALL_HI, CALL_LO, or a space, doubled mod 256
(40_address_frame.md R101); then bit 7 set at position 0 only, bits 6 and 5, SSID, X (R102). -/
def Obligations.AddressFieldBytes : Prop :=
  (∀ (p : Pending) (clen : Nat), clen ≤ 6 →
    (p.callBytes clen).length = 6 ∧
      ∀ j, j < 6 →
        ((p.callBytes clen).getD j 0#8).toNat =
          (2 * if j < clen then (p.callHi.toNat * 2 ^ 32 + p.callLo.toNat) / 2 ^ (8 * j) % 256 else 0x20) % 256)
    ∧ ∀ (pos ssid : BitVec 4) (last : Bool),
        (ssidByte pos ssid last).toNat =
          (if pos = 0#4 then 128 else 0) + 64 + 32 + 2 * ssid.toNat + last.toNat

/-- In a chain of at most 10 addresses the C bit is 1 exactly in field 0, and the X bit exactly in the last field of a closed
chain; each field is 56 bits (40_address_frame.md R105). -/
def Obligations.ChainMarksFirstAndLast : Prop :=
  ∀ (closed : Bool) (as : List Address), as.length ≤ 10 →
    (bytes (chainBytes closed as)).length = 56 * as.length ∧
      ∀ i, i < as.length →
        (bytes (chainBytes closed as))[56 * i + 55]? = some (i == 0)
          ∧ (bytes (chainBytes closed as))[56 * i + 48]? = some (closed && i + 1 == as.length)

/-- An address field decodes to its characters and its SSID, for characters below 0x80 of which the last is no space
(40_address_frame.md R109). -/
def Obligations.AddressRoundTrip : Prop :=
  ∀ (p : Pending) (clen ssid : Nat) (pos : BitVec 4) (last : Bool), clen ≤ 6 → ssid < 16 →
    decodeSsid (p.addressField clen pos ssid last) = ssid
      ∧ ((∀ j, j < clen → (p.callByte j).toNat < 0x80) → (0 < clen → p.callByte (clen - 1) ≠ 0x20#8) →
          decodeCall (p.addressField clen pos ssid last) = (List.range clen).map p.callByte)

/-- CTLPID (40_address_frame.md R106): its word, the 16 bits it appends, its errors. -/
def Obligations.CtlpidAppendsControlAndPid : Prop :=
  encode .ctlpid = 0x11000000#32 ∧
    ∀ (s : State) (p : Pending), s.pend = some p →
      (s.stage = .ctl → s.bitbuf.length + 16 ≤ s.cfg.cap →
        exec .ctlpid s =
          .next { s with
            bitbuf := s.bitbuf ++ [true, true, false, false, false, false, false, false,
                                   false, false, false, false, true, true, true, true]
            stage := .info, pend := none, tx := none })
      ∧ (s.stage ≠ .ctl → s.stage ≠ .error → exec .ctlpid s = .next (errorEntered .sequence p.word s))
      ∧ (s.stage = .ctl → s.cfg.cap < s.bitbuf.length + 16 →
          exec .ctlpid s = .next (errorEntered .bufferOverflow p.word s))

/-- INFO (40_address_frame.md R107): its word, the byte appended least significant bit first, INFOCNT, its errors. -/
def Obligations.InfoAppendsTheByte : Prop :=
  (∀ b : Byte, encode (.info b) = 0x12000000#32 ||| b.zeroExtend 32) ∧
    ∀ (s : State) (p : Pending) (b : Byte), s.pend = some p →
      (s.stage = .info → s.bitbuf.length + 8 ≤ s.cfg.cap →
        exec (.info b) s =
          .next { s with
            bitbuf := s.bitbuf ++ (List.range 8).map (fun j => b.getLsbD j)
            infocnt := s.infocnt + 1#32, pend := none, tx := none })
      ∧ (s.stage ≠ .info → s.stage ≠ .error → exec (.info b) s = .next (errorEntered .sequence p.word s))
      ∧ (s.stage = .info → s.cfg.cap < s.bitbuf.length + 8 →
          exec (.info b) s = .next (errorEntered .bufferOverflow p.word s))

/-- FCS (41_fcs.md R131, R132): its word; the order of the check sequence's bits, f[0] to f[15]; the check sequence appended and
kept in FCSREG; its errors. -/
def Obligations.FcsAppendsTheCheckSequence : Prop :=
  encode .fcs = 0x20000000#32 ∧ (∀ f : Half, fcsBits f = (List.range 16).map fun j => f.getLsbD j) ∧
    ∀ (s : State) (p : Pending), s.pend = some p →
      (s.stage = .info → s.bitbuf.length + 16 ≤ s.cfg.cap →
        exec .fcs s =
          .next { s with
            bitbuf := s.bitbuf ++ fcsBits (crc16 s.bitbuf), fcsreg := crc16 s.bitbuf, stage := .fcs
            pend := none, tx := none })
      ∧ (s.stage ≠ .info → s.stage ≠ .error → exec .fcs s = .next (errorEntered .sequence p.word s))
      ∧ (s.stage = .info → s.cfg.cap < s.bitbuf.length + 16 →
          exec .fcs s = .next (errorEntered .bufferOverflow p.word s))

/-- A receiver that runs the CRC over any body and its FCS ends at 0xF0B8 (41_fcs.md R133). -/
def Obligations.CrcResidue : Prop :=
  ∀ s : BitSeq, crcRegister 0xFFFF#16 (s ++ fcsBits (crc16 s)) = 0xF0B8#16

/-- STUFF (42_stuff_frame.md R151): its word, the body stuffed, its errors. -/
def Obligations.StuffStuffsTheBody : Prop :=
  encode .stuff = 0x30000000#32 ∧
    ∀ (s : State) (p : Pending), s.pend = some p →
      (s.stage = .fcs → (stuff s.bitbuf).length ≤ s.cfg.cap →
        exec .stuff s = .next { s with bitbuf := stuff s.bitbuf, stage := .stuffed, pend := none, tx := none })
      ∧ (s.stage ≠ .fcs → s.stage ≠ .error → exec .stuff s = .next (errorEntered .sequence p.word s))
      ∧ (s.stage = .fcs → s.cfg.cap < (stuff s.bitbuf).length →
          exec .stuff s = .next (errorEntered .bufferOverflow p.word s))

/-- A run of k ones followed by a 0 gets k / 5 stuff bits, whatever comes after; and stuffing adds at most a fifth
(42_stuff_frame.md R150). -/
def Obligations.EveryFifthOneIsStuffed : Prop :=
  (∀ (k : Nat) (rest : BitSeq),
    (stuff (List.replicate k true ++ false :: rest)).length = k + k / 5 + 1 + (stuff rest).length)
    ∧ (∀ k : Nat, (stuff (List.replicate k true)).length = k + k / 5)
    ∧ ∀ s : BitSeq, s.length ≤ (stuff s).length ∧ (stuff s).length ≤ s.length + s.length / 5

/-- Unstuffing a stuffed sequence gives it back; a stuffed sequence holds no run of six 1s, and a run of five is followed by a
0 (42_stuff_frame.md R152). -/
def Obligations.UnstuffOfStuff : Prop :=
  ∀ s : BitSeq,
    unstuff (stuff s) = s
      ∧ (∀ a b, stuff s ≠ a ++ List.replicate 6 true ++ b)
      ∧ ∀ a b, stuff s = a ++ List.replicate 5 true ++ b → ∃ c, b = false :: c

/-- FRAME (42_stuff_frame.md R153, R154): its word, one flag 01111110 on each side, its errors. -/
def Obligations.FrameAddsTwoFlags : Prop :=
  encode .frame = 0x40000000#32 ∧ flag = [false, true, true, true, true, true, true, false] ∧
    ∀ (s : State) (p : Pending), s.pend = some p →
      (s.stage = .stuffed → s.bitbuf.length + 16 ≤ s.cfg.cap →
        exec .frame s =
          .next { s with bitbuf := flag ++ s.bitbuf ++ flag, stage := .framed, pend := none, tx := none })
      ∧ (s.stage ≠ .stuffed → s.stage ≠ .error → exec .frame s = .next (errorEntered .sequence p.word s))
      ∧ (s.stage = .stuffed → s.cfg.cap < s.bitbuf.length + 16 →
          exec .frame s = .next (errorEntered .bufferOverflow p.word s))

/-- After a successful FRAME of a stuffed body the sequence starts and ends with FLAG, and six 1s in a row stand only at
indices 1 to 6 and LEN - 7 to LEN - 2 (42_stuff_frame.md R155). -/
def Obligations.OnlyTheFlagsHoldSixOnes : Prop :=
  ∀ (s t : State) (p : Pending) (body : BitSeq), s.pend = some p → s.stage = .stuffed → s.bitbuf = stuff body →
    exec .frame s = .next t → t.stage = .framed →
    t.bitbuf.take 8 = flag ∧ t.bitbuf.drop (t.bitbuf.length - 8) = flag
      ∧ ∀ i, (∀ j, j < 6 → t.bitbuf[i + j]? = some true) ↔ (i = 1 ∨ i + 7 = t.bitbuf.length)

/-- NRZI (43_nrzi.md R171): its word, every bit replaced by its physical bit from NRZI_INIT, LEN unchanged, its one error. -/
def Obligations.NrziLineEncodes : Prop :=
  encode .nrzi = 0x50000000#32 ∧
    ∀ (s : State) (p : Pending), s.pend = some p →
      (s.stage = .framed →
        exec .nrzi s =
            .next { s with bitbuf := nrzi s.cfg.nrziInit s.bitbuf, stage := .line, pend := none, tx := none }
          ∧ (nrzi s.cfg.nrziInit s.bitbuf).length = s.bitbuf.length)
      ∧ (s.stage ≠ .framed → s.stage ≠ .error → exec .nrzi s = .next (errorEntered .sequence p.word s))

/-- The closed form of the line code: physical bit i is the start state XOR the parity of the 0s up to and with bit i
(43_nrzi.md R170). -/
def Obligations.NrziIsParityOfZeros : Prop :=
  ∀ (init : Bool) (s : BitSeq) (i : Nat), i < s.length →
    (nrzi init s)[i]? = some (init ^^ decide ((s.take (i + 1)).count false % 2 = 1))

/-- The polarity law and the inverse law (43_nrzi.md R172, R173). -/
def Obligations.NrziPolarityAndInverse : Prop :=
  (∀ s : BitSeq, nrzi true s = (nrzi false s).map not) ∧ ∀ (init : Bool) (s : BitSeq), unnrzi init (nrzi init s) = s

/-- The four profiles (44_afsk.md R181, R183), and the keying: mark for a physical 1, space for a physical 0 (R182). -/
def Obligations.ProfileTable : Prop :=
  (baud .p300, markHz .p300, spaceHz .p300, bitDurationMs .p300) = (300, 1600, 1900, 10 / 3)
    ∧ (baud .p600, markHz .p600, spaceHz .p600, bitDurationMs .p600) = (600, 1470, 1930, 5 / 3)
    ∧ (baud .p1200, markHz .p1200, spaceHz .p1200, bitDurationMs .p1200) = (1200, 1200, 2200, 5 / 6)
    ∧ (baud .p2400, markHz .p2400, spaceHz .p2400, bitDurationMs .p2400) = (2400, 800, 2600, 5 / 12)
    ∧ (Profile.p300.code, Profile.p600.code, Profile.p1200.code, Profile.p2400.code) = (0#2, 1#2, 2#2, 3#2)
    ∧ ∀ prof : Profile, freqHz prof true = markHz prof ∧ freqHz prof false = spaceHz prof

/-- The tone a tuning word produces differs from its frequency by at most FS / 2^33 Hz, for tones that do not alias
(44_afsk.md R191). -/
def Obligations.TuningWordIsNearest : Prop :=
  ∀ fs f : Nat, 0 < fs → 2 * f < fs →
    2 * (tuningWord fs f).toNat * fs ≤ 2 * f * 2 ^ 32 + fs ∧ 2 * f * 2 ^ 32 ≤ 2 * (tuningWord fs f).toNat * fs + fs

/-- The sample schedule: Ns and i(n) as ceiling and floor, every sample keyed by a bit of the frame, and bit i keying exactly
samples ceil(i * FS / B) to ceil((i + 1) * FS / B) - 1 (44_afsk.md R192). -/
def Obligations.SampleScheduleCoversEveryBit : Prop :=
  ∀ (fs : Nat) (prof : Profile) (len : Nat), 0 < fs →
    numSamples fs prof len = ⌈((len * fs : Nat) : ℚ) / (baud prof : ℚ)⌉₊
      ∧ (∀ n, sampleBit fs prof n = ⌊((n * baud prof : Nat) : ℚ) / (fs : ℚ)⌋₊)
      ∧ (∀ n, n < numSamples fs prof len → sampleBit fs prof n < len)
      ∧ ∀ n i, sampleBit fs prof n = i ↔ numSamples fs prof i ≤ n ∧ n < numSamples fs prof (i + 1)

/-- The phase sequence in closed form: P_n is the sum of the tuning words of the samples before n, with no term that depends
on a bit boundary (44_afsk.md R195). -/
def Obligations.PhaseIsContinuous : Prop :=
  ∀ (fs : Nat) (prof : Profile) (bits : BitSeq) (n : Nat),
    (0 < n → phaseAt fs prof bits n - phaseAt fs prof bits (n - 1) =
        tuningWord fs (freqHz prof (bits.getD (sampleBit fs prof (n - 1)) false)))
      ∧ phaseAt fs prof bits n =
        ((List.range n).map fun m => tuningWord fs (freqHz prof (bits.getD (sampleBit fs prof m) false))).sum

/-- MOD's first turn: its word; the stage check, which sends nothing when it fails; the emission it starts, with P = 0 and no
record sent, whatever the sink accepts; and its first segment record (44_afsk.md R184, R186, R193).
That the segment port goes first when both sinks accept is the model's choice: assumption 5. That the record of a frame of
one bit, its last, is held for the completion is the model's choice: assumption 10. -/
def Obligations.ModStartsOnlyInLine : Prop :=
  (∀ prof : Profile, encode (.mod prof) = 0x60000000#32 ||| (prof.code).zeroExtend 32) ∧
    ∀ (s : State) (p : Pending) (prof : Profile), s.pend = some p → s.tx = none →
      (s.stage ≠ .line → s.stage ≠ .error → exec (.mod prof) s = .next (errorEntered .sequence p.word s))
      ∧ (s.stage = .line →
          exec (.mod prof) s =
            exec (.mod prof)
              { s with
                tx := some
                  { prof := prof, bits := s.bitbuf, fcs := s.fcsreg, seg := 0, smp := 0, phase := 0#32
                    segLast := none, smpLast := none } })
      ∧ (s.stage = .line → s.segReady = true → ∀ b rest, s.bitbuf = b :: rest →
          exec (.mod prof) s =
            .next { s with
              segOut := s.segOut ++ if rest = [] then [] else [{ tone := b, prof := prof, last := false }]
              tx := some
                { prof := prof, bits := s.bitbuf, fcs := s.fcsreg, seg := 1, smp := 0, phase := 0#32
                  segLast := if rest = [] then some { tone := b, prof := prof, last := true } else none
                  smpLast := none } })

/-- One turn of a MOD or RUN that is emitting (44_afsk.md R186): the next segment record, or the next sample with the phase
advanced after it, as the sink accepts; a wait; or, when the sink has accepted both ports' last record, the
completion with its register effects (10_state.md R33).
That the segment port goes first when both sinks accept, and that the completion is a turn of its own, are the
model's choices: assumption 5. That an accepted last record is held for the completion, which delivers it, is the model's
choice: assumption 10. -/
def Obligations.EmittingCommandTurn : Prop :=
  ∀ (i : Instr) (s : State) (t : Transmit), Emits i → s.tx = some t →
    (t.seg < t.bits.length → s.segReady = true →
      exec i s =
        .next { s with
          segOut := s.segOut ++
            if t.seg + 1 = t.bits.length then []
            else [{ tone := t.bits.getD t.seg false, prof := t.prof, last := false }]
          tx := some { t with
            seg := t.seg + 1
            segLast :=
              if t.seg + 1 = t.bits.length then
                some { tone := t.bits.getD t.seg false, prof := t.prof, last := true }
              else t.segLast } })
    ∧ (¬(t.seg < t.bits.length ∧ s.segReady = true) →
        t.smp < numSamples s.cfg.fs t.prof t.bits.length → s.smpReady = true →
        exec i s =
          .next { s with
            smpOut := s.smpOut ++
              if t.smp + 1 = numSamples s.cfg.fs t.prof t.bits.length then []
              else [{ y := Config.wave t.phase, last := false }]
            tx := some { t with
              smp := t.smp + 1
              phase := t.phase +
                tuningWord s.cfg.fs (freqHz t.prof (t.bits.getD (sampleBit s.cfg.fs t.prof t.smp) false))
              smpLast :=
                if t.smp + 1 = numSamples s.cfg.fs t.prof t.bits.length then
                  some { y := Config.wave t.phase, last := true }
                else t.smpLast } })
    ∧ (¬(t.seg < t.bits.length ∧ s.segReady = true) →
        ¬(t.smp < numSamples s.cfg.fs t.prof t.bits.length ∧ s.smpReady = true) →
        (t.seg < t.bits.length ∨ t.smp < numSamples s.cfg.fs t.prof t.bits.length) → exec i s = .next s)
    ∧ (t.bits.length ≤ t.seg → numSamples s.cfg.fs t.prof t.bits.length ≤ t.smp →
        exec i s =
          .next { s with
            bitbuf := t.bits, fcsreg := t.fcs, stage := .done, pend := none, tx := none
            segOut := s.segOut ++ t.segLast.toList, smpOut := s.smpOut ++ t.smpLast.toList })

/-- A MOD in S_LINE whose sink accepts delivers exactly its artifact, one record a turn, and completes in S_DONE
(44_afsk.md R184, R186, R192 to R194).
The number of turns is the model's: assumption 5. -/
def Obligations.ModDeliversItsArtifact : Prop :=
  ∀ (s : State) (p : Pending) (prof : Profile), s.pend = some p → decode p.word = .ok (.mod prof) → s.tx = none →
    s.stage = .line → SinkAccepts s →
    steps (emissionTurns s.cfg.fs prof s.bitbuf) s =
      .next { s with
        segOut := s.segOut ++ segRecords prof s.bitbuf
        smpOut := s.smpOut ++ smpRecords s.cfg.fs prof s.bitbuf
        stage := .done, pend := none, tx := none }

/-- A sink that stops accepting on a port that has records left hangs the core: BUSY stays 1 and nothing changes
(44_afsk.md R186, 93_implementation_defined.md I15). -/
def Obligations.StoppedSinkHangsTheCore : Prop :=
  ∀ (n : Nat) (s : State) (t : Transmit) (p : Pending) (i : Instr), s.pend = some p → decode p.word = .ok i → Emits i →
    s.tx = some t → s.inbox = [] → (t.seg < t.bits.length → s.segReady = false) →
    (t.smp < numSamples s.cfg.fs t.prof t.bits.length → s.smpReady = false) →
    (t.seg < t.bits.length ∨ t.smp < numSamples s.cfg.fs t.prof t.bits.length) →
    steps n s = .next s

/-- RUN's first turn (45_control.md R212): its word; its stage check; the error of the first step that fails, with the effects of
the steps before it and ERRSTG the stage that step began in; no record on any error; and the emission of the line image that
it starts otherwise, whose first tone is 1 - NRZI_INIT (43_nrzi.md R171).
That the settled results wait in the emission until the completion is the model's reading: assumption 9. That the segment
record goes first, whatever the sample port's sink accepts, is the model's choice: assumption 5. -/
def Obligations.RunSettlesOrStops : Prop :=
  (∀ prof : Profile, encode (.run prof) = 0x70000000#32 ||| (prof.code).zeroExtend 32) ∧
    ∀ (s : State) (p : Pending) (prof : Profile), s.pend = some p → s.tx = none →
      (s.stage ≠ .info → s.stage ≠ .error → exec (.run prof) s = .next (errorEntered .sequence p.word s))
      ∧ (s.stage = .info → s.cfg.cap < s.bitbuf.length + 16 →
          exec (.run prof) s = .next (errorEntered .bufferOverflow p.word s))
      ∧ (s.stage = .info → s.bitbuf.length + 16 ≤ s.cfg.cap → s.cfg.cap < (stuff (withFcs s.bitbuf)).length →
          exec (.run prof) s =
            .next (errorEntered .bufferOverflow p.word
              { s with bitbuf := withFcs s.bitbuf, fcsreg := crc16 s.bitbuf, stage := .fcs }))
      ∧ (s.stage = .info → s.bitbuf.length + 16 ≤ s.cfg.cap → (stuff (withFcs s.bitbuf)).length ≤ s.cfg.cap →
          s.cfg.cap < (stuff (withFcs s.bitbuf)).length + 16 →
          exec (.run prof) s =
            .next (errorEntered .bufferOverflow p.word
              { s with bitbuf := stuff (withFcs s.bitbuf), fcsreg := crc16 s.bitbuf, stage := .stuffed }))
      ∧ (s.stage = .info → BodyFits s.cfg.cap s.bitbuf →
          exec (.run prof) s =
            exec (.run prof)
              { s with
                tx := some
                  { prof := prof, bits := lineImage s.cfg.nrziInit s.bitbuf, fcs := crc16 s.bitbuf, seg := 0, smp := 0
                    phase := 0#32, segLast := none, smpLast := none } })
      ∧ (s.stage = .info → BodyFits s.cfg.cap s.bitbuf → s.segReady = true →
          exec (.run prof) s =
            .next { s with
              segOut := s.segOut ++ [{ tone := !s.cfg.nrziInit, prof := prof, last := false }]
              tx := some
                { prof := prof, bits := lineImage s.cfg.nrziInit s.bitbuf, fcs := crc16 s.bitbuf, seg := 1, smp := 0
                  phase := 0#32, segLast := none, smpLast := none } })

/-- A RUN in S_INFO whose frame fits and whose sink accepts delivers the artifact of the frame's line image and completes in
S_DONE with the image in BITBUF and the FCS in FCSREG (45_control.md R212).
The number of turns is the model's: assumption 5. -/
def Obligations.RunDeliversItsArtifact : Prop :=
  ∀ (s : State) (p : Pending) (prof : Profile), s.pend = some p → decode p.word = .ok (.run prof) → s.tx = none →
    s.stage = .info → SinkAccepts s → BodyFits s.cfg.cap s.bitbuf →
    steps (emissionTurns s.cfg.fs prof (lineImage s.cfg.nrziInit s.bitbuf)) s =
      .next { s with
        bitbuf := lineImage s.cfg.nrziInit s.bitbuf, fcsreg := crc16 s.bitbuf
        segOut := s.segOut ++ segRecords prof (lineImage s.cfg.nrziInit s.bitbuf)
        smpOut := s.smpOut ++ smpRecords s.cfg.fs prof (lineImage s.cfg.nrziInit s.bitbuf)
        stage := .done, pend := none, tx := none }

/-- The end state and the outputs of RUN are those of FCS, STUFF, FRAME, NRZI and MOD issued one after another with the same PROF
(45_control.md R212).
The number of turns is the model's: assumption 5. -/
def Obligations.RunIsTheFiveCommands : Prop :=
  ∀ (s : State) (prof : Profile), s.pend = none → s.tx = none → s.stage = .info → SinkAccepts s →
    BodyFits s.cfg.cap s.bitbuf →
    steps (emissionTurns s.cfg.fs prof (lineImage s.cfg.nrziInit s.bitbuf)) (s.accept (encode (.run prof))) =
      andThen (steps 1 (s.accept (encode .fcs))) fun a =>
      andThen (steps 1 (a.accept (encode .stuff))) fun b =>
      andThen (steps 1 (b.accept (encode .frame))) fun c =>
      andThen (steps 1 (c.accept (encode .nrzi))) fun d =>
      steps (emissionTurns s.cfg.fs prof d.bitbuf) (d.accept (encode (.mod prof)))

/-! ## Stages and errors -/

/-- A command that is not accepted in the stage raises Sequence and does nothing else; one that is accepted and completes without
error leaves the next stage of the table (60_exceptions.md R236). -/
def Obligations.StageAcceptance : Prop :=
  (∀ (i : Instr) (s : State) (p : Pending), s.pend = some p → s.tx = none → s.stage ≠ .error →
    accepts i s.stage = false → exec i s = .next (errorEntered .sequence p.word s))
    ∧ ∀ (i : Instr) (s t : State), s.pend ≠ none → accepts i s.stage = true → s.err = none →
        exec i s = .next t → t.pend = none → t.err = none → t.stage = nextStage i s.stage

/-- An illegal or unaccepted or failing command: whatever error a turn raises, it saves the completing word and the stage the
failing step began in, and touches neither counters nor callsign registers nor outputs nor DROP
(60_exceptions.md R230, R232). -/
def Obligations.ErrorEntryIsPrecise : Prop :=
  ∀ (s t : State) (p : Pending), s.pend = some p → CoreTurn s → s.tx = none → s.stage ≠ .error →
    step s = .next t → t.stage = .error →
    t.err ≠ none ∧ t.errcmd = p.word ∧ t.pend = none ∧ t.tx = none ∧ t.addrcnt = s.addrcnt ∧ t.infocnt = s.infocnt
      ∧ t.callLo = s.callLo ∧ t.callHi = s.callHi ∧ t.drop = s.drop ∧ t.segOut = s.segOut ∧ t.smpOut = s.smpOut
      ∧ ((∀ prof, decode p.word ≠ .ok (.run prof)) →
          t.errstg = s.stage ∧ t.bitbuf = s.bitbuf ∧ t.fcsreg = s.fcsreg)

/-- A pending command that is not MOD or RUN completes in the core's one turn, in any state (70_reset_and_hazards.md R269).
One turn a completion is the model's step: assumption 2. -/
def Obligations.OtherCommandsCompleteInOneTurn : Prop :=
  ∀ (i : Instr) (s : State), ¬Emits i →
    ∃ t, exec i s = .next t ∧ t.pend = none ∧ t.tx = none ∧ t.segOut = s.segOut ∧ t.smpOut = s.smpOut

/-! ## The bus -/

/-- What a host read returns while BUSY = 0, at every aligned offset of the window, and that it changes nothing else
(20_memory.md R52 to R55, R58). -/
def Obligations.ReadsWhileIdle : Prop :=
  ∀ (s : State) (off : Nat), s.pend = none → s.cfg.cap % 32 = 0 → off % 4 = 0 → off < 0x10000 →
    busRead (s.cfg.base + off) 4 s =
      .next { s with
        rdata :=
          if off = 0x004 then s.status
          else if off = 0x008 then BitVec.ofNat 32 s.bitbuf.length
          else if off = 0x00C then s.infocnt
          else if off = 0x010 then s.errcmd
          else if off = 0x014 then s.fcsreg.zeroExtend 32
          else if off = 0x018 then s.callLo
          else if off = 0x01C then s.callHi.zeroExtend 32
          else if off = 0x020 then Config.word s.cfg
          else if 0x1000 ≤ off ∧ off < 0x1000 + s.cfg.cap / 8 then windowWord s.bitbuf ((off - 0x1000) / 4)
          else 0#32 }

/-- Word k of the buffer window, at 0x1000 + 4k: its bit j is BITBUF[32k + j] below LEN and 0 otherwise; a read changes no
state of the core, and a write is ignored (20_memory.md R53). -/
def Obligations.WindowShowsTheBits : Prop :=
  ∀ (s : State) (k : Nat) (v : Word), s.cfg.Legal → s.pend = none → k < s.cfg.cap / 32 →
    (∃ w : Word, busRead (s.cfg.base + (0x1000 + 4 * k)) 4 s = .next { s with rdata := w }
      ∧ ∀ j, j < 32 → w.getLsbD j = if 32 * k + j < s.bitbuf.length then s.bitbuf.getD (32 * k + j) false else false)
    ∧ busWrite (s.cfg.base + (0x1000 + 4 * k)) 4 v s = .next s

/-- What a host read returns while BUSY = 1: STATUS.BUSY, CALL_LO, CALL_HI and CONFIG exactly; every other read-only register
and window word a free draw, a new one each time (20_memory.md R59); CMD and every unmapped offset 0 (R54, R55).
The counter that numbers the draws, and that CMD and unmapped offsets are not drawn, are the model's: assumption 4. -/
def Obligations.ReadsWhileBusy : Prop :=
  ∀ (s : State) (p : Pending), s.pend = some p →
    (∃ w : Word, rd .status s = .next { s with rdata := w, draws := s.draws + 1 } ∧ w.getLsbD 0 = true
        ∧ ∀ j, 0 < j → j < 32 → w.getLsbD j = (Config.freeRead s.draws).getLsbD j)
      ∧ (∀ r, r = .len ∨ r = .infocnt ∨ r = .errcmd ∨ r = .fcs →
          rd r s = .next { s with rdata := Config.freeRead s.draws, draws := s.draws + 1 })
      ∧ (∀ k, s.cfg.Legal → k < s.cfg.cap / 32 →
          rd (.bufwin k) s = .next { s with rdata := Config.freeRead s.draws, draws := s.draws + 1 })
      ∧ rd .callLo s = .next { s with rdata := s.callLo }
      ∧ rd .callHi s = .next { s with rdata := s.callHi.zeroExtend 32 }
      ∧ rd .config s = .next { s with rdata := Config.word s.cfg }
      ∧ rd .cmd s = .next { s with rdata := 0#32 }
      ∧ ∀ off, s.cfg.Legal → off % 4 = 0 →
          (0x024 ≤ off ∧ off < 0x1000) ∨ (0x1000 + s.cfg.cap / 8 ≤ off ∧ off < 0x10000) →
          busRead (s.cfg.base + off) 4 s = .next { s with rdata := 0#32 }

/-- A CMD write while BUSY = 0 accepts the word with the callsign snapshot; while BUSY = 1 it is discarded and sets DROP, and
nothing else (10_state.md R33, R34). -/
def Obligations.CmdWriteAcceptsOrDrops : Prop :=
  ∀ (s : State) (w : Word),
    (s.pend = none →
      wr .cmd w s =
        .next { s with pend := some { word := w, callLo := s.callLo, callHi := s.callHi }, tx := none })
      ∧ (s.pend ≠ none → wr .cmd w s = .next { s with drop := true })

/-- A CALL write takes effect at once, even while BUSY = 1, and keeps the low 16 bits of CALL_HI (20_memory.md R60,
10_state.md R31); a write anywhere else but CMD changes nothing (20_memory.md R53 to R55). -/
def Obligations.CallWritesAndIgnoredWrites : Prop :=
  ∀ (s : State) (v : Word),
    wr .callLo v s = .next { s with callLo := v }
      ∧ wr .callHi v s = .next { s with callHi := v.extractLsb' 0 16 }
      ∧ ∀ off, off < 0x10000 → off % 4 = 0 → off ≠ 0x000 → off ≠ 0x018 → off ≠ 0x01C →
          busWrite (s.cfg.base + off) 4 v s = .next s

/-- A pending ADDR uses its snapshot: a CALL write made after it was accepted does not change what it does
(20_memory.md R60). -/
def Obligations.AddrUsesItsSnapshot : Prop :=
  ∀ (s : State) (p : Pending) (clen ssid : Nat) (last : Bool) (lo : Word) (hi : Half), s.pend = some p →
    exec (.addr clen last ssid) { s with callLo := lo, callHi := hi } =
      andThen (exec (.addr clen last ssid) s) fun t => .next { t with callLo := lo, callHi := hi }

/-- An access that is not 32 bits wide or not at a multiple of 4 is refused: it has no step (20_memory.md R51). -/
def Obligations.UnsupportedAccessesAreRefused : Prop :=
  ∀ (s : State) (off n : Nat) (v : Word), off < 0x10000 → (n ≠ 4 ∨ off % 4 ≠ 0) →
    busRead (s.cfg.base + off) n s = .refused .unsupportedAccess
      ∧ busWrite (s.cfg.base + off) n v s = .refused .unsupportedAccess

/-- The fields of STATUS (10_state.md R35) and of CONFIG (R32). -/
def Obligations.StatusAndConfigFields : Prop :=
  (∀ c : Config, c.Legal →
    ((Config.word c).extractLsb' 0 16).toNat = c.cap / 32 ∧ (Config.word c).getLsbD 16 = c.nrziInit
      ∧ (Config.word c).extractLsb' 17 15 = 0#15) ∧
  ∀ s : State,
    s.status.getLsbD 0 = s.pend.isSome ∧ s.status.getLsbD 1 = s.drop ∧ s.status.extractLsb' 2 2 = 0#2
      ∧ s.status.extractLsb' 4 4 = s.stage.code ∧ s.status.extractLsb' 8 4 = errField s.err
      ∧ s.status.extractLsb' 12 4 = s.addrcnt ∧ s.status.extractLsb' 16 4 = s.errstg.code
      ∧ s.status.extractLsb' 20 12 = 0#12

/-! ## Reset -/

/-- A hardware reset puts every register to its reset value and discards the pending command; what the ports have delivered is
not taken back (70_reset_and_hazards.md R260, R265; 10_state.md R37, R40). CLEAR leaves the same registers, but for CALL_LO
and CALL_HI, which it keeps (R261). A reset that cuts a MOD or RUN short, however far it has come, leaves on each port a prefix of
the command's records without the last; and every such pair of prefixes is left by some schedule of the environment (R265).
That a reset keeps the sink flags, the last word read and the counter of draws is the model's choice: assumption 6. That a
last record the sink has accepted waits for the completion, and is discarded by a reset, is the model's choice: assumption 10. -/
def Obligations.HardwareReset : Prop :=
  (∀ (s : State) (rest : List Event), s.inbox = .reset :: rest →
    step s =
      .next { s with
        inbox := rest, bitbuf := [], addrcnt := 0#4, infocnt := 0#32, stage := .addr, err := none, errcmd := 0#32
        errstg := .addr, fcsreg := 0#16, callLo := 0#32, callHi := 0#16, pend := none, drop := false, tx := none })
    ∧ (∀ s : State, exec .clear s = .next { s.hwReset with callLo := s.callLo, callHi := s.callHi })
    ∧ (∀ (s v : State) (prof : Profile) (bits : BitSeq) (n : Nat) (rest : List Event), WillEmit s prof bits →
        (∀ m, m ≤ n → ∀ w, steps m s = .next w → w.pend ≠ none) → steps n s = .next v → v.inbox = .reset :: rest →
        ∃ u j k, step v = .next u ∧ u.pend = none
          ∧ u.segOut = s.segOut ++ (segRecords prof bits).take j
          ∧ (∀ r ∈ (segRecords prof bits).take j, r.last = false)
          ∧ u.smpOut = s.smpOut ++ (smpRecords s.cfg.fs prof bits).take k
          ∧ ∀ r ∈ (smpRecords s.cfg.fs prof bits).take k, r.last = false)
    ∧ ∀ (s : State) (prof : Profile) (bits : BitSeq) (j k : Nat), WillEmit s prof bits → j < bits.length →
        k < numSamples s.cfg.fs prof bits.length →
        ∃ events u, steps (events.length + 1) { s with inbox := events ++ [.reset] } = .next u ∧ u.pend = none
          ∧ u.segOut = s.segOut ++ (segRecords prof bits).take j
          ∧ u.smpOut = s.smpOut ++ (smpRecords s.cfg.fs prof bits).take k

/-- The state after power-on holds the reset values of the table (10_state.md R40).
That the instance shown has the default CAP is the model's choice: assumption 1. -/
def Obligations.ResetValues : Prop :=
  State.reset.bitbuf.length = 0 ∧ State.reset.addrcnt = 0#4 ∧ State.reset.infocnt = 0#32
    ∧ State.reset.stage.code = 0#4 ∧ errField State.reset.err = 0#4 ∧ State.reset.errcmd = 0#32
    ∧ State.reset.errstg.code = 0#4 ∧ State.reset.fcsreg = 0#16 ∧ State.reset.callLo = 0#32
    ∧ State.reset.callHi = 0#16 ∧ State.reset.busy = false ∧ State.reset.pend = none ∧ State.reset.drop = false
    ∧ State.reset.cfg.cap = 65536

/-! ## Invariants -/

/-- The invariants hold right after reset (10_state.md R22, R23, R27 to R29, R40). -/
def Obligations.InvariantsHoldAtReset : Prop :=
  Coherent State.reset ∧ EmissionOnCourse State.reset ∧ FrameContents State.reset

/-- Every step keeps the registers coherent: LEN <= CAP, the bounds of ADDRCNT, the error registers, and an emission only under
its command (10_state.md R22, R23, R27 to R29; 40_address_frame.md R104). -/
def Obligations.StepKeepsCoherent : Prop :=
  ∀ s t : State, Coherent s → step s = .next t → Coherent t

/-- Every step keeps an emission on course: each port has delivered exactly the accepted records of the command's artifact, in
order, but for the last, and P is P_n (44_afsk.md R184, R186, R193, R194; 70_reset_and_hazards.md R265). That an accepted last
record is held is the model's choice: assumption 10. -/
def Obligations.StepKeepsEmissionOnCourse : Prop :=
  ∀ s t : State, Coherent s → EmissionOnCourse s → step s = .next t → EmissionOnCourse t

/-- Every step keeps the buffer the image of one frame: in each stage the frame of the addresses and bytes given so far, with
its FCS, stuffed, framed and line-encoded as far as the stage says (40_address_frame.md R105, R108;
10_state.md R26). -/
def Obligations.StepKeepsFrameContents : Prop :=
  ∀ s t : State, Coherent s → EmissionOnCourse s → FrameContents s → step s = .next t → FrameContents t

/-! ## The frame protocol -/

/-- After the ADDR, CTLPID and INFO commands of a host program, all successful, SEQ is the frame of R108 and LEN its length
(40_address_frame.md R108).
That the core takes its turns only inside WAIT, one before each poll, and that the sink's flags stay as they are while the
program runs, are the model's choices: assumption 14. -/
def Obligations.BodyCommandsBuildTheFrame : Prop :=
  ∀ (s : State) (chain : List Station) (info : List Byte) (polls : Nat), 0 < polls → s.pend = none → s.stage = .addr →
    s.bitbuf = [] → s.addrcnt = 0#4 → s.infocnt = 0#32 → ChainValid chain → s.cfg.Legal →
    56 * chain.length + 16 + 8 * info.length ≤ s.cfg.cap →
    ∃ t, runProgram polls (bodyLines chain info) s = .ended (.next t) ∧ t.bitbuf = bodyOf chain info
      ∧ t.bitbuf.length = 56 * chain.length + 16 + 8 * info.length ∧ t.stage = .info ∧ t.pend = none
      ∧ t.addrcnt.toNat = chain.length ∧ t.infocnt.toNat = info.length ∧ t.err = s.err
      ∧ t.segOut = s.segOut ∧ t.smpOut = s.smpOut

/-- The frame protocol, from any idle state: a host that clears, gives the addresses, CTLPID, the payload and RUN gets exactly the
artifact of its addressing, message and profile, and nothing of an earlier frame; STATUS then reads S_DONE
(70_reset_and_hazards.md R262, R263).
That the core takes its turns only inside WAIT, one before each poll, and that the sink's flags stay as they are while the
program runs, are the model's choices: assumption 14. -/
def Obligations.FrameProtocolIsPure : Prop :=
  ∀ (s : State) (chain : List Station) (info : List Byte) (prof : Profile) (polls : Nat),
    s.pend = none → SinkAccepts s → ChainValid chain → s.cfg.Legal → BodyFits s.cfg.cap (bodyOf chain info) →
    emissionTurns s.cfg.fs prof (lineImage s.cfg.nrziInit (bodyOf chain info)) ≤ polls →
    ∃ t, runProgram polls (frameLines chain info prof) s = .ended (.next t)
      ∧ Delivered prof (lineImage s.cfg.nrziInit (bodyOf chain info)) s t
      ∧ t.stage = .done ∧ t.err = none ∧ t.drop = false ∧ t.pend = none
      ∧ t.fcsreg = crc16 (bodyOf chain info) ∧ t.rdata = t.status

/-! ## The environment -/

/-- A scheduled host access is that access, and the sink's event sets exactly that port's flag, on the state with the event
taken off the schedule (10_state.md R20, R33; 20_memory.md R58, R60; 44_afsk.md R186).
The schedule and the two flags are the model's: assumptions 2 and 5. -/
def Obligations.StepDeliversTheEnvironment : Prop :=
  ∀ (s : State) (rest : List Event),
    (∀ addr n, s.inbox = .read addr n :: rest → step s = busRead addr n { s with inbox := rest })
      ∧ (∀ addr n v, s.inbox = .write addr n v :: rest → step s = busWrite addr n v { s with inbox := rest })
      ∧ (∀ ready, s.inbox = .sink .segment ready :: rest →
          step s = .next { s with inbox := rest, segReady := ready })
      ∧ ∀ ready, s.inbox = .sink .sample ready :: rest →
          step s = .next { s with inbox := rest, smpReady := ready }
end

