-- ==== Sys2Proof/Laws/Bits.lean ====
section
/-! SUPPORT. Lengths and splittings of the bit sequences the commands build. -/

namespace Sys2Proof.Machine

@[simp] theorem length_bits8 (b : Byte) : (bits8 b).length = 8 := rfl

theorem bits8_eq_map (b : Byte) : bits8 b = (List.range 8).map fun j => b.getLsbD j := rfl

@[simp] theorem length_bytes (bs : List Byte) : (bytes bs).length = 8 * bs.length := by
  induction bs with
  | nil => rfl
  | cons b bs ih => simp only [bytes, List.length_append, length_bits8, ih, List.length_cons]; omega

@[simp] theorem bytes_append (as bs : List Byte) : bytes (as ++ bs) = bytes as ++ bytes bs := by
  induction as with
  | nil => rfl
  | cons a as ih => simp [bytes, ih]

@[simp] theorem bytes_singleton (b : Byte) : bytes [b] = bits8 b := by simp [bytes]

@[simp] theorem length_addressField (p : Pending) (clen : Nat) (pos : BitVec 4) (ssid : Nat) (last : Bool) :
    (p.addressField clen pos ssid last).length = 7 := rfl

@[simp] theorem length_fcsBits (f : Half) : (fcsBits f).length = 16 := rfl

@[simp] theorem length_withFcs (body : BitSeq) : (withFcs body).length = body.length + 16 := by
  simp [withFcs]

@[simp] theorem length_flag : flag.length = 8 := rfl

@[simp] theorem length_framed (body : BitSeq) : (framed body).length = (stuff (withFcs body)).length + 16 := by
  simp only [framed, List.length_append, length_flag]; omega

@[simp] theorem length_nrzi (line : Bool) (s : BitSeq) : (nrzi line s).length = s.length := by
  induction s generalizing line with
  | nil => rfl
  | cons b s ih => cases b <;> simp [nrzi, ih]

@[simp] theorem length_lineImage (init : Bool) (body : BitSeq) :
    (lineImage init body).length = (stuff (withFcs body)).length + 16 := by
  simp [lineImage]

/-- The register after two sequences in a row: the CRC engine reads bit by bit (41_fcs.md R130). -/
theorem crcRegister_append (r : Half) (a b : BitSeq) :
    crcRegister r (a ++ b) = crcRegister (crcRegister r a) b := by
  induction a generalizing r with
  | nil => rfl
  | cons x a ih => simp [crcRegister, ih]

@[simp] theorem length_segRecords (prof : Profile) (bits : BitSeq) : (segRecords prof bits).length = bits.length := by
  simp [segRecords]

@[simp] theorem length_smpRecords (fs : Nat) (prof : Profile) (bits : BitSeq) :
    (smpRecords fs prof bits).length = numSamples fs prof bits.length := by
  simp [smpRecords]

/-! ### A port's delivered records and its held one (70_reset_and_hazards.md R265, assumption 10) -/

@[simp] theorem openPrefix_zero {α : Type} (rs : List α) : openPrefix rs 0 = [] := by simp [openPrefix]

theorem openPrefix_succ {α : Type} {rs : List α} {k : Nat} (hk : k < rs.length) :
    openPrefix rs (k + 1) = openPrefix rs k ++ if k + 1 = rs.length then [] else [rs[k]] := by
  unfold openPrefix
  split
  · rw [List.append_nil]; congr 1; omega
  · rw [show min (k + 1) (rs.length - 1) = k + 1 by omega, show min k (rs.length - 1) = k by omega,
      List.take_add_one, List.getElem?_eq_getElem hk, Option.toList_some]

theorem closing_zero {α : Type} (rs : List α) : closing rs 0 = none := by
  cases rs <;> simp [closing]

theorem closing_succ {α : Type} {rs : List α} {k : Nat} (hk : k < rs.length) :
    closing rs (k + 1) = if k + 1 = rs.length then some rs[k] else none := by
  unfold closing
  split
  · rw [if_neg (by omega)]
  · have h : rs.length - 1 = k := by omega
    rw [if_pos (by omega), List.getLast?_eq_getElem?, h, List.getElem?_eq_getElem hk]

/-- Once every record is accepted, what is delivered and what is held are all the records. -/
theorem openPrefix_append_closing {α : Type} {rs : List α} {k : Nat} (hk : rs.length ≤ k) :
    openPrefix rs k ++ (closing rs k).toList = rs := by
  cases h : rs.getLast? with
  | none => simp [List.getLast?_eq_none_iff.mp h, openPrefix, closing]
  | some r =>
    obtain ⟨init, rfl⟩ := List.getLast?_eq_some_iff.mp h
    simp only [List.length_append, List.length_singleton] at hk
    simp [openPrefix, closing, Nat.not_lt.mpr hk, show init.length ≤ k by omega]

/-- No record that a segment port delivers before its command completes is the last one (44_afsk.md R184). -/
theorem segRecords_openPrefix_not_last {prof : Profile} {bits : BitSeq} {k : Nat} :
    ∀ r ∈ openPrefix (segRecords prof bits) k, r.last = false := by
  intro r hr
  rw [openPrefix, length_segRecords] at hr
  simp only [segRecords, ← List.map_take, List.take_range, List.mem_map,
    List.mem_range] at hr
  obtain ⟨i, hi, rfl⟩ := hr
  simp only [beq_eq_false_iff_ne]
  omega

/-- No sample that a sample port delivers before its command completes is the last one (44_afsk.md R184). -/
theorem smpRecords_openPrefix_not_last {fs : Nat} {prof : Profile} {bits : BitSeq} {k : Nat} :
    ∀ r ∈ openPrefix (smpRecords fs prof bits) k, r.last = false := by
  intro r hr
  rw [openPrefix, length_smpRecords] at hr
  simp only [smpRecords, ← List.map_take, List.take_range, List.mem_map,
    List.mem_range] at hr
  obtain ⟨n, hn, rfl⟩ := hr
  simp only [beq_eq_false_iff_ne]
  omega

/-- The chain grows by one field at its end; the fields before it stay as they are in an open chain
(40_address_frame.md R103). -/
theorem chainBytes_concat (closed : Bool) (as : List Address) (a : Address) :
    chainBytes closed (as ++ [a]) =
      chainBytes false as ++ a.snapshot.addressField a.clen (BitVec.ofNat 4 as.length) a.ssid closed := by
  unfold chainBytes
  rw [List.mapIdx_append]
  simp only [List.flatten_append, List.mapIdx_cons, List.mapIdx_nil, List.flatten_cons, List.flatten_nil,
    List.append_nil, List.length_append, List.length_singleton, Nat.zero_add, beq_self_eq_true, Bool.and_true,
    Bool.false_and]
  congr 2
  apply List.ext_getElem
  · simp
  · intro i h1 h2
    have hi : i < as.length := by simpa using h1
    have hne : (i == as.length) = false := by simp; omega
    simp [hne]

@[simp] theorem length_chainBytes (closed : Bool) (as : List Address) :
    (chainBytes closed as).length = 7 * as.length := by
  unfold chainBytes
  simp only [List.length_flatten]
  rw [List.eq_replicate_of_mem (l := List.map List.length _) (a := 7) (by
    intro n hn
    simp only [List.mem_map, List.mem_mapIdx] at hn
    obtain ⟨f, ⟨i, hi, rfl⟩, rfl⟩ := hn
    rfl)]
  simp [Nat.mul_comm]

theorem length_frameBits (as : List Address) (info : List Byte) :
    (frameBits as info).length = 56 * as.length + 16 + 8 * info.length := by
  simp only [frameBits, length_bytes, List.length_append, length_chainBytes, controlPid, List.length_cons,
    List.length_nil]
  omega

end Sys2Proof.Machine
end

