-- ==== Sys2Proof/Laws/State.lean ====
section
/-! SUPPORT. What each named update of the state does to each field: one lemma per field per update. -/

namespace Sys2Proof.Machine

/-! ### finish -/

@[simp] theorem State.finish_cfg (s : State) : s.finish.cfg = s.cfg := rfl
@[simp] theorem State.finish_bitbuf (s : State) : s.finish.bitbuf = s.bitbuf := rfl
@[simp] theorem State.finish_addrcnt (s : State) : s.finish.addrcnt = s.addrcnt := rfl
@[simp] theorem State.finish_infocnt (s : State) : s.finish.infocnt = s.infocnt := rfl
@[simp] theorem State.finish_stage (s : State) : s.finish.stage = s.stage := rfl
@[simp] theorem State.finish_err (s : State) : s.finish.err = s.err := rfl
@[simp] theorem State.finish_errcmd (s : State) : s.finish.errcmd = s.errcmd := rfl
@[simp] theorem State.finish_errstg (s : State) : s.finish.errstg = s.errstg := rfl
@[simp] theorem State.finish_fcsreg (s : State) : s.finish.fcsreg = s.fcsreg := rfl
@[simp] theorem State.finish_callLo (s : State) : s.finish.callLo = s.callLo := rfl
@[simp] theorem State.finish_callHi (s : State) : s.finish.callHi = s.callHi := rfl
@[simp] theorem State.finish_pend (s : State) : s.finish.pend = none := rfl
@[simp] theorem State.finish_drop (s : State) : s.finish.drop = s.drop := rfl
@[simp] theorem State.finish_tx (s : State) : s.finish.tx = none := rfl
@[simp] theorem State.finish_segOut (s : State) : s.finish.segOut = s.segOut := rfl
@[simp] theorem State.finish_smpOut (s : State) : s.finish.smpOut = s.smpOut := rfl
@[simp] theorem State.finish_segReady (s : State) : s.finish.segReady = s.segReady := rfl
@[simp] theorem State.finish_smpReady (s : State) : s.finish.smpReady = s.smpReady := rfl
@[simp] theorem State.finish_inbox (s : State) : s.finish.inbox = s.inbox := rfl
@[simp] theorem State.finish_rdata (s : State) : s.finish.rdata = s.rdata := rfl
@[simp] theorem State.finish_draws (s : State) : s.finish.draws = s.draws := rfl

/-! ### raise -/

@[simp] theorem State.raise_cfg (e : Err) (w : Word) (s : State) : (s.raise e w).cfg = s.cfg := rfl
@[simp] theorem State.raise_bitbuf (e : Err) (w : Word) (s : State) : (s.raise e w).bitbuf = s.bitbuf := rfl
@[simp] theorem State.raise_addrcnt (e : Err) (w : Word) (s : State) : (s.raise e w).addrcnt = s.addrcnt := rfl
@[simp] theorem State.raise_infocnt (e : Err) (w : Word) (s : State) : (s.raise e w).infocnt = s.infocnt := rfl
@[simp] theorem State.raise_stage (e : Err) (w : Word) (s : State) : (s.raise e w).stage = .error := rfl
@[simp] theorem State.raise_err (e : Err) (w : Word) (s : State) : (s.raise e w).err = some e := rfl
@[simp] theorem State.raise_errcmd (e : Err) (w : Word) (s : State) : (s.raise e w).errcmd = w := rfl
@[simp] theorem State.raise_errstg (e : Err) (w : Word) (s : State) : (s.raise e w).errstg = s.stage := rfl
@[simp] theorem State.raise_fcsreg (e : Err) (w : Word) (s : State) : (s.raise e w).fcsreg = s.fcsreg := rfl
@[simp] theorem State.raise_callLo (e : Err) (w : Word) (s : State) : (s.raise e w).callLo = s.callLo := rfl
@[simp] theorem State.raise_callHi (e : Err) (w : Word) (s : State) : (s.raise e w).callHi = s.callHi := rfl
@[simp] theorem State.raise_pend (e : Err) (w : Word) (s : State) : (s.raise e w).pend = s.pend := rfl
@[simp] theorem State.raise_drop (e : Err) (w : Word) (s : State) : (s.raise e w).drop = s.drop := rfl
@[simp] theorem State.raise_tx (e : Err) (w : Word) (s : State) : (s.raise e w).tx = s.tx := rfl
@[simp] theorem State.raise_segOut (e : Err) (w : Word) (s : State) : (s.raise e w).segOut = s.segOut := rfl
@[simp] theorem State.raise_smpOut (e : Err) (w : Word) (s : State) : (s.raise e w).smpOut = s.smpOut := rfl
@[simp] theorem State.raise_segReady (e : Err) (w : Word) (s : State) : (s.raise e w).segReady = s.segReady := rfl
@[simp] theorem State.raise_smpReady (e : Err) (w : Word) (s : State) : (s.raise e w).smpReady = s.smpReady := rfl
@[simp] theorem State.raise_inbox (e : Err) (w : Word) (s : State) : (s.raise e w).inbox = s.inbox := rfl
@[simp] theorem State.raise_rdata (e : Err) (w : Word) (s : State) : (s.raise e w).rdata = s.rdata := rfl
@[simp] theorem State.raise_draws (e : Err) (w : Word) (s : State) : (s.raise e w).draws = s.draws := rfl

/-! ### clearFrame -/

@[simp] theorem State.clearFrame_cfg (s : State) : s.clearFrame.cfg = s.cfg := rfl
@[simp] theorem State.clearFrame_bitbuf (s : State) : s.clearFrame.bitbuf = [] := rfl
@[simp] theorem State.clearFrame_addrcnt (s : State) : s.clearFrame.addrcnt = 0#4 := rfl
@[simp] theorem State.clearFrame_infocnt (s : State) : s.clearFrame.infocnt = 0#32 := rfl
@[simp] theorem State.clearFrame_stage (s : State) : s.clearFrame.stage = .addr := rfl
@[simp] theorem State.clearFrame_err (s : State) : s.clearFrame.err = none := rfl
@[simp] theorem State.clearFrame_errcmd (s : State) : s.clearFrame.errcmd = 0#32 := rfl
@[simp] theorem State.clearFrame_errstg (s : State) : s.clearFrame.errstg = .addr := rfl
@[simp] theorem State.clearFrame_fcsreg (s : State) : s.clearFrame.fcsreg = 0#16 := rfl
@[simp] theorem State.clearFrame_callLo (s : State) : s.clearFrame.callLo = s.callLo := rfl
@[simp] theorem State.clearFrame_callHi (s : State) : s.clearFrame.callHi = s.callHi := rfl
@[simp] theorem State.clearFrame_pend (s : State) : s.clearFrame.pend = s.pend := rfl
@[simp] theorem State.clearFrame_drop (s : State) : s.clearFrame.drop = false := rfl
@[simp] theorem State.clearFrame_tx (s : State) : s.clearFrame.tx = s.tx := rfl
@[simp] theorem State.clearFrame_segOut (s : State) : s.clearFrame.segOut = s.segOut := rfl
@[simp] theorem State.clearFrame_smpOut (s : State) : s.clearFrame.smpOut = s.smpOut := rfl
@[simp] theorem State.clearFrame_segReady (s : State) : s.clearFrame.segReady = s.segReady := rfl
@[simp] theorem State.clearFrame_smpReady (s : State) : s.clearFrame.smpReady = s.smpReady := rfl
@[simp] theorem State.clearFrame_inbox (s : State) : s.clearFrame.inbox = s.inbox := rfl
@[simp] theorem State.clearFrame_rdata (s : State) : s.clearFrame.rdata = s.rdata := rfl
@[simp] theorem State.clearFrame_draws (s : State) : s.clearFrame.draws = s.draws := rfl

/-! ### accept -/

@[simp] theorem State.accept_cfg (w : Word) (s : State) : (s.accept w).cfg = s.cfg := rfl
@[simp] theorem State.accept_bitbuf (w : Word) (s : State) : (s.accept w).bitbuf = s.bitbuf := rfl
@[simp] theorem State.accept_addrcnt (w : Word) (s : State) : (s.accept w).addrcnt = s.addrcnt := rfl
@[simp] theorem State.accept_infocnt (w : Word) (s : State) : (s.accept w).infocnt = s.infocnt := rfl
@[simp] theorem State.accept_stage (w : Word) (s : State) : (s.accept w).stage = s.stage := rfl
@[simp] theorem State.accept_err (w : Word) (s : State) : (s.accept w).err = s.err := rfl
@[simp] theorem State.accept_errcmd (w : Word) (s : State) : (s.accept w).errcmd = s.errcmd := rfl
@[simp] theorem State.accept_errstg (w : Word) (s : State) : (s.accept w).errstg = s.errstg := rfl
@[simp] theorem State.accept_fcsreg (w : Word) (s : State) : (s.accept w).fcsreg = s.fcsreg := rfl
@[simp] theorem State.accept_callLo (w : Word) (s : State) : (s.accept w).callLo = s.callLo := rfl
@[simp] theorem State.accept_callHi (w : Word) (s : State) : (s.accept w).callHi = s.callHi := rfl
@[simp] theorem State.accept_pend (w : Word) (s : State) : (s.accept w).pend = some { word := w, callLo := s.callLo, callHi := s.callHi } := rfl
@[simp] theorem State.accept_drop (w : Word) (s : State) : (s.accept w).drop = s.drop := rfl
@[simp] theorem State.accept_tx (w : Word) (s : State) : (s.accept w).tx = none := rfl
@[simp] theorem State.accept_segOut (w : Word) (s : State) : (s.accept w).segOut = s.segOut := rfl
@[simp] theorem State.accept_smpOut (w : Word) (s : State) : (s.accept w).smpOut = s.smpOut := rfl
@[simp] theorem State.accept_segReady (w : Word) (s : State) : (s.accept w).segReady = s.segReady := rfl
@[simp] theorem State.accept_smpReady (w : Word) (s : State) : (s.accept w).smpReady = s.smpReady := rfl
@[simp] theorem State.accept_inbox (w : Word) (s : State) : (s.accept w).inbox = s.inbox := rfl
@[simp] theorem State.accept_rdata (w : Word) (s : State) : (s.accept w).rdata = s.rdata := rfl
@[simp] theorem State.accept_draws (w : Word) (s : State) : (s.accept w).draws = s.draws := rfl

/-! ### loadCommand -/

@[simp] theorem State.loadCommand_cfg (w : Word) (s : State) : (s.loadCommand w).cfg = s.cfg := rfl
@[simp] theorem State.loadCommand_bitbuf (w : Word) (s : State) : (s.loadCommand w).bitbuf = s.bitbuf := rfl
@[simp] theorem State.loadCommand_addrcnt (w : Word) (s : State) : (s.loadCommand w).addrcnt = s.addrcnt := rfl
@[simp] theorem State.loadCommand_infocnt (w : Word) (s : State) : (s.loadCommand w).infocnt = s.infocnt := rfl
@[simp] theorem State.loadCommand_stage (w : Word) (s : State) : (s.loadCommand w).stage = s.stage := rfl
@[simp] theorem State.loadCommand_err (w : Word) (s : State) : (s.loadCommand w).err = s.err := rfl
@[simp] theorem State.loadCommand_errcmd (w : Word) (s : State) : (s.loadCommand w).errcmd = s.errcmd := rfl
@[simp] theorem State.loadCommand_errstg (w : Word) (s : State) : (s.loadCommand w).errstg = s.errstg := rfl
@[simp] theorem State.loadCommand_fcsreg (w : Word) (s : State) : (s.loadCommand w).fcsreg = s.fcsreg := rfl
@[simp] theorem State.loadCommand_callLo (w : Word) (s : State) : (s.loadCommand w).callLo = s.callLo := rfl
@[simp] theorem State.loadCommand_callHi (w : Word) (s : State) : (s.loadCommand w).callHi = s.callHi := rfl
@[simp] theorem State.loadCommand_pend (w : Word) (s : State) : (s.loadCommand w).pend = some { word := w, callLo := s.callLo, callHi := s.callHi } := rfl
@[simp] theorem State.loadCommand_drop (w : Word) (s : State) : (s.loadCommand w).drop = s.drop := rfl
@[simp] theorem State.loadCommand_tx (w : Word) (s : State) : (s.loadCommand w).tx = none := rfl
@[simp] theorem State.loadCommand_segOut (w : Word) (s : State) : (s.loadCommand w).segOut = s.segOut := rfl
@[simp] theorem State.loadCommand_smpOut (w : Word) (s : State) : (s.loadCommand w).smpOut = s.smpOut := rfl
@[simp] theorem State.loadCommand_segReady (w : Word) (s : State) : (s.loadCommand w).segReady = s.segReady := rfl
@[simp] theorem State.loadCommand_smpReady (w : Word) (s : State) : (s.loadCommand w).smpReady = s.smpReady := rfl
@[simp] theorem State.loadCommand_inbox (w : Word) (s : State) : (s.loadCommand w).inbox = .core :: s.inbox := rfl
@[simp] theorem State.loadCommand_rdata (w : Word) (s : State) : (s.loadCommand w).rdata = s.rdata := rfl
@[simp] theorem State.loadCommand_draws (w : Word) (s : State) : (s.loadCommand w).draws = s.draws := rfl

/-! ### hwReset -/

@[simp] theorem State.hwReset_cfg (s : State) : s.hwReset.cfg = s.cfg := rfl
@[simp] theorem State.hwReset_bitbuf (s : State) : s.hwReset.bitbuf = [] := rfl
@[simp] theorem State.hwReset_addrcnt (s : State) : s.hwReset.addrcnt = 0#4 := rfl
@[simp] theorem State.hwReset_infocnt (s : State) : s.hwReset.infocnt = 0#32 := rfl
@[simp] theorem State.hwReset_stage (s : State) : s.hwReset.stage = .addr := rfl
@[simp] theorem State.hwReset_err (s : State) : s.hwReset.err = none := rfl
@[simp] theorem State.hwReset_errcmd (s : State) : s.hwReset.errcmd = 0#32 := rfl
@[simp] theorem State.hwReset_errstg (s : State) : s.hwReset.errstg = .addr := rfl
@[simp] theorem State.hwReset_fcsreg (s : State) : s.hwReset.fcsreg = 0#16 := rfl
@[simp] theorem State.hwReset_callLo (s : State) : s.hwReset.callLo = 0#32 := rfl
@[simp] theorem State.hwReset_callHi (s : State) : s.hwReset.callHi = 0#16 := rfl
@[simp] theorem State.hwReset_pend (s : State) : s.hwReset.pend = none := rfl
@[simp] theorem State.hwReset_drop (s : State) : s.hwReset.drop = false := rfl
@[simp] theorem State.hwReset_tx (s : State) : s.hwReset.tx = none := rfl
@[simp] theorem State.hwReset_segOut (s : State) : s.hwReset.segOut = s.segOut := rfl
@[simp] theorem State.hwReset_smpOut (s : State) : s.hwReset.smpOut = s.smpOut := rfl
@[simp] theorem State.hwReset_segReady (s : State) : s.hwReset.segReady = s.segReady := rfl
@[simp] theorem State.hwReset_smpReady (s : State) : s.hwReset.smpReady = s.smpReady := rfl
@[simp] theorem State.hwReset_inbox (s : State) : s.hwReset.inbox = s.inbox := rfl
@[simp] theorem State.hwReset_rdata (s : State) : s.hwReset.rdata = s.rdata := rfl
@[simp] theorem State.hwReset_draws (s : State) : s.hwReset.draws = s.draws := rfl

/-! ### sendSeg -/

@[simp] theorem State.sendSeg_cfg (t : Transmit) (s : State) : (s.sendSeg t).cfg = s.cfg := rfl
@[simp] theorem State.sendSeg_bitbuf (t : Transmit) (s : State) : (s.sendSeg t).bitbuf = s.bitbuf := rfl
@[simp] theorem State.sendSeg_addrcnt (t : Transmit) (s : State) : (s.sendSeg t).addrcnt = s.addrcnt := rfl
@[simp] theorem State.sendSeg_infocnt (t : Transmit) (s : State) : (s.sendSeg t).infocnt = s.infocnt := rfl
@[simp] theorem State.sendSeg_stage (t : Transmit) (s : State) : (s.sendSeg t).stage = s.stage := rfl
@[simp] theorem State.sendSeg_err (t : Transmit) (s : State) : (s.sendSeg t).err = s.err := rfl
@[simp] theorem State.sendSeg_errcmd (t : Transmit) (s : State) : (s.sendSeg t).errcmd = s.errcmd := rfl
@[simp] theorem State.sendSeg_errstg (t : Transmit) (s : State) : (s.sendSeg t).errstg = s.errstg := rfl
@[simp] theorem State.sendSeg_fcsreg (t : Transmit) (s : State) : (s.sendSeg t).fcsreg = s.fcsreg := rfl
@[simp] theorem State.sendSeg_callLo (t : Transmit) (s : State) : (s.sendSeg t).callLo = s.callLo := rfl
@[simp] theorem State.sendSeg_callHi (t : Transmit) (s : State) : (s.sendSeg t).callHi = s.callHi := rfl
@[simp] theorem State.sendSeg_pend (t : Transmit) (s : State) : (s.sendSeg t).pend = s.pend := rfl
@[simp] theorem State.sendSeg_drop (t : Transmit) (s : State) : (s.sendSeg t).drop = s.drop := rfl
@[simp] theorem State.sendSeg_tx (t : Transmit) (s : State) : (s.sendSeg t).tx = some t.segSent := rfl
@[simp] theorem State.sendSeg_segOut (t : Transmit) (s : State) : (s.sendSeg t).segOut = s.segOut ++ t.segNow := rfl
@[simp] theorem State.sendSeg_smpOut (t : Transmit) (s : State) : (s.sendSeg t).smpOut = s.smpOut := rfl
@[simp] theorem State.sendSeg_segReady (t : Transmit) (s : State) : (s.sendSeg t).segReady = s.segReady := rfl
@[simp] theorem State.sendSeg_smpReady (t : Transmit) (s : State) : (s.sendSeg t).smpReady = s.smpReady := rfl
@[simp] theorem State.sendSeg_inbox (t : Transmit) (s : State) : (s.sendSeg t).inbox = s.inbox := rfl
@[simp] theorem State.sendSeg_rdata (t : Transmit) (s : State) : (s.sendSeg t).rdata = s.rdata := rfl
@[simp] theorem State.sendSeg_draws (t : Transmit) (s : State) : (s.sendSeg t).draws = s.draws := rfl

/-! ### sendSmp -/

@[simp] theorem State.sendSmp_cfg (t : Transmit) (s : State) : (s.sendSmp t).cfg = s.cfg := rfl
@[simp] theorem State.sendSmp_bitbuf (t : Transmit) (s : State) : (s.sendSmp t).bitbuf = s.bitbuf := rfl
@[simp] theorem State.sendSmp_addrcnt (t : Transmit) (s : State) : (s.sendSmp t).addrcnt = s.addrcnt := rfl
@[simp] theorem State.sendSmp_infocnt (t : Transmit) (s : State) : (s.sendSmp t).infocnt = s.infocnt := rfl
@[simp] theorem State.sendSmp_stage (t : Transmit) (s : State) : (s.sendSmp t).stage = s.stage := rfl
@[simp] theorem State.sendSmp_err (t : Transmit) (s : State) : (s.sendSmp t).err = s.err := rfl
@[simp] theorem State.sendSmp_errcmd (t : Transmit) (s : State) : (s.sendSmp t).errcmd = s.errcmd := rfl
@[simp] theorem State.sendSmp_errstg (t : Transmit) (s : State) : (s.sendSmp t).errstg = s.errstg := rfl
@[simp] theorem State.sendSmp_fcsreg (t : Transmit) (s : State) : (s.sendSmp t).fcsreg = s.fcsreg := rfl
@[simp] theorem State.sendSmp_callLo (t : Transmit) (s : State) : (s.sendSmp t).callLo = s.callLo := rfl
@[simp] theorem State.sendSmp_callHi (t : Transmit) (s : State) : (s.sendSmp t).callHi = s.callHi := rfl
@[simp] theorem State.sendSmp_pend (t : Transmit) (s : State) : (s.sendSmp t).pend = s.pend := rfl
@[simp] theorem State.sendSmp_drop (t : Transmit) (s : State) : (s.sendSmp t).drop = s.drop := rfl
@[simp] theorem State.sendSmp_tx (t : Transmit) (s : State) : (s.sendSmp t).tx = some (t.smpSent s.cfg.fs) := rfl
@[simp] theorem State.sendSmp_segOut (t : Transmit) (s : State) : (s.sendSmp t).segOut = s.segOut := rfl
@[simp] theorem State.sendSmp_smpOut (t : Transmit) (s : State) : (s.sendSmp t).smpOut = s.smpOut ++ t.smpNow s.cfg.fs := rfl
@[simp] theorem State.sendSmp_segReady (t : Transmit) (s : State) : (s.sendSmp t).segReady = s.segReady := rfl
@[simp] theorem State.sendSmp_smpReady (t : Transmit) (s : State) : (s.sendSmp t).smpReady = s.smpReady := rfl
@[simp] theorem State.sendSmp_inbox (t : Transmit) (s : State) : (s.sendSmp t).inbox = s.inbox := rfl
@[simp] theorem State.sendSmp_rdata (t : Transmit) (s : State) : (s.sendSmp t).rdata = s.rdata := rfl
@[simp] theorem State.sendSmp_draws (t : Transmit) (s : State) : (s.sendSmp t).draws = s.draws := rfl

/-! ### commit -/

@[simp] theorem State.commit_cfg (t : Transmit) (s : State) : (s.commit t).cfg = s.cfg := rfl
@[simp] theorem State.commit_bitbuf (t : Transmit) (s : State) : (s.commit t).bitbuf = t.bits := rfl
@[simp] theorem State.commit_addrcnt (t : Transmit) (s : State) : (s.commit t).addrcnt = s.addrcnt := rfl
@[simp] theorem State.commit_infocnt (t : Transmit) (s : State) : (s.commit t).infocnt = s.infocnt := rfl
@[simp] theorem State.commit_stage (t : Transmit) (s : State) : (s.commit t).stage = .done := rfl
@[simp] theorem State.commit_err (t : Transmit) (s : State) : (s.commit t).err = s.err := rfl
@[simp] theorem State.commit_errcmd (t : Transmit) (s : State) : (s.commit t).errcmd = s.errcmd := rfl
@[simp] theorem State.commit_errstg (t : Transmit) (s : State) : (s.commit t).errstg = s.errstg := rfl
@[simp] theorem State.commit_fcsreg (t : Transmit) (s : State) : (s.commit t).fcsreg = t.fcs := rfl
@[simp] theorem State.commit_callLo (t : Transmit) (s : State) : (s.commit t).callLo = s.callLo := rfl
@[simp] theorem State.commit_callHi (t : Transmit) (s : State) : (s.commit t).callHi = s.callHi := rfl
@[simp] theorem State.commit_pend (t : Transmit) (s : State) : (s.commit t).pend = s.pend := rfl
@[simp] theorem State.commit_drop (t : Transmit) (s : State) : (s.commit t).drop = s.drop := rfl
@[simp] theorem State.commit_tx (t : Transmit) (s : State) : (s.commit t).tx = s.tx := rfl
@[simp] theorem State.commit_segOut (t : Transmit) (s : State) : (s.commit t).segOut = s.segOut ++ t.segLast.toList := rfl
@[simp] theorem State.commit_smpOut (t : Transmit) (s : State) : (s.commit t).smpOut = s.smpOut ++ t.smpLast.toList := rfl
@[simp] theorem State.commit_segReady (t : Transmit) (s : State) : (s.commit t).segReady = s.segReady := rfl
@[simp] theorem State.commit_smpReady (t : Transmit) (s : State) : (s.commit t).smpReady = s.smpReady := rfl
@[simp] theorem State.commit_inbox (t : Transmit) (s : State) : (s.commit t).inbox = s.inbox := rfl
@[simp] theorem State.commit_rdata (t : Transmit) (s : State) : (s.commit t).rdata = s.rdata := rfl
@[simp] theorem State.commit_draws (t : Transmit) (s : State) : (s.commit t).draws = s.draws := rfl

/-! ### The emission in progress -/

@[simp] theorem Transmit.segSent_prof (t : Transmit) : t.segSent.prof = t.prof := rfl
@[simp] theorem Transmit.segSent_bits (t : Transmit) : t.segSent.bits = t.bits := rfl
@[simp] theorem Transmit.segSent_fcs (t : Transmit) : t.segSent.fcs = t.fcs := rfl
@[simp] theorem Transmit.segSent_seg (t : Transmit) : t.segSent.seg = t.seg + 1 := rfl
@[simp] theorem Transmit.segSent_smp (t : Transmit) : t.segSent.smp = t.smp := rfl
@[simp] theorem Transmit.segSent_phase (t : Transmit) : t.segSent.phase = t.phase := rfl
@[simp] theorem Transmit.segSent_segLast (t : Transmit) :
    t.segSent.segLast = if t.segRecord.last then some t.segRecord else t.segLast := rfl
@[simp] theorem Transmit.segSent_smpLast (t : Transmit) : t.segSent.smpLast = t.smpLast := rfl
@[simp] theorem Transmit.smpSent_prof (fs : Nat) (t : Transmit) : (t.smpSent fs).prof = t.prof := rfl
@[simp] theorem Transmit.smpSent_bits (fs : Nat) (t : Transmit) : (t.smpSent fs).bits = t.bits := rfl
@[simp] theorem Transmit.smpSent_fcs (fs : Nat) (t : Transmit) : (t.smpSent fs).fcs = t.fcs := rfl
@[simp] theorem Transmit.smpSent_seg (fs : Nat) (t : Transmit) : (t.smpSent fs).seg = t.seg := rfl
@[simp] theorem Transmit.smpSent_smp (fs : Nat) (t : Transmit) : (t.smpSent fs).smp = t.smp + 1 := rfl
@[simp] theorem Transmit.smpSent_phase (fs : Nat) (t : Transmit) : (t.smpSent fs).phase = t.phase + phaseIncrement fs t.prof t.bits t.smp := rfl
@[simp] theorem Transmit.smpSent_segLast (fs : Nat) (t : Transmit) : (t.smpSent fs).segLast = t.segLast := rfl
@[simp] theorem Transmit.smpSent_smpLast (fs : Nat) (t : Transmit) :
    (t.smpSent fs).smpLast = if (t.smpRecord fs).last then some (t.smpRecord fs) else t.smpLast := rfl
@[simp] theorem Transmit.start_prof (prof : Profile) (bits : BitSeq) (fcs : Half) :
    (Transmit.start prof bits fcs).prof = prof := rfl
@[simp] theorem Transmit.start_bits (prof : Profile) (bits : BitSeq) (fcs : Half) :
    (Transmit.start prof bits fcs).bits = bits := rfl
@[simp] theorem Transmit.start_fcs (prof : Profile) (bits : BitSeq) (fcs : Half) :
    (Transmit.start prof bits fcs).fcs = fcs := rfl
@[simp] theorem Transmit.start_seg (prof : Profile) (bits : BitSeq) (fcs : Half) :
    (Transmit.start prof bits fcs).seg = 0 := rfl
@[simp] theorem Transmit.start_smp (prof : Profile) (bits : BitSeq) (fcs : Half) :
    (Transmit.start prof bits fcs).smp = 0 := rfl
@[simp] theorem Transmit.start_phase (prof : Profile) (bits : BitSeq) (fcs : Half) :
    (Transmit.start prof bits fcs).phase = 0#32 := rfl
@[simp] theorem Transmit.start_segLast (prof : Profile) (bits : BitSeq) (fcs : Half) :
    (Transmit.start prof bits fcs).segLast = none := rfl
@[simp] theorem Transmit.start_smpLast (prof : Profile) (bits : BitSeq) (fcs : Half) :
    (Transmit.start prof bits fcs).smpLast = none := rfl

/-! ### setReady, readReg, writeReg -/

@[simp] theorem State.setReady_cfg (p : Port) (r : Bool) (s : State) : (s.setReady p r).cfg = s.cfg := by
  cases p <;> rfl
@[simp] theorem State.setReady_bitbuf (p : Port) (r : Bool) (s : State) : (s.setReady p r).bitbuf = s.bitbuf := by
  cases p <;> rfl
@[simp] theorem State.setReady_addrcnt (p : Port) (r : Bool) (s : State) : (s.setReady p r).addrcnt = s.addrcnt := by
  cases p <;> rfl
@[simp] theorem State.setReady_infocnt (p : Port) (r : Bool) (s : State) : (s.setReady p r).infocnt = s.infocnt := by
  cases p <;> rfl
@[simp] theorem State.setReady_stage (p : Port) (r : Bool) (s : State) : (s.setReady p r).stage = s.stage := by
  cases p <;> rfl
@[simp] theorem State.setReady_err (p : Port) (r : Bool) (s : State) : (s.setReady p r).err = s.err := by
  cases p <;> rfl
@[simp] theorem State.setReady_errcmd (p : Port) (r : Bool) (s : State) : (s.setReady p r).errcmd = s.errcmd := by
  cases p <;> rfl
@[simp] theorem State.setReady_errstg (p : Port) (r : Bool) (s : State) : (s.setReady p r).errstg = s.errstg := by
  cases p <;> rfl
@[simp] theorem State.setReady_fcsreg (p : Port) (r : Bool) (s : State) : (s.setReady p r).fcsreg = s.fcsreg := by
  cases p <;> rfl
@[simp] theorem State.setReady_callLo (p : Port) (r : Bool) (s : State) : (s.setReady p r).callLo = s.callLo := by
  cases p <;> rfl
@[simp] theorem State.setReady_callHi (p : Port) (r : Bool) (s : State) : (s.setReady p r).callHi = s.callHi := by
  cases p <;> rfl
@[simp] theorem State.setReady_pend (p : Port) (r : Bool) (s : State) : (s.setReady p r).pend = s.pend := by
  cases p <;> rfl
@[simp] theorem State.setReady_drop (p : Port) (r : Bool) (s : State) : (s.setReady p r).drop = s.drop := by
  cases p <;> rfl
@[simp] theorem State.setReady_tx (p : Port) (r : Bool) (s : State) : (s.setReady p r).tx = s.tx := by
  cases p <;> rfl
@[simp] theorem State.setReady_segOut (p : Port) (r : Bool) (s : State) : (s.setReady p r).segOut = s.segOut := by
  cases p <;> rfl
@[simp] theorem State.setReady_smpOut (p : Port) (r : Bool) (s : State) : (s.setReady p r).smpOut = s.smpOut := by
  cases p <;> rfl
@[simp] theorem State.setReady_inbox (p : Port) (r : Bool) (s : State) : (s.setReady p r).inbox = s.inbox := by
  cases p <;> rfl
@[simp] theorem State.setReady_rdata (p : Port) (r : Bool) (s : State) : (s.setReady p r).rdata = s.rdata := by
  cases p <;> rfl
@[simp] theorem State.setReady_draws (p : Port) (r : Bool) (s : State) : (s.setReady p r).draws = s.draws := by
  cases p <;> rfl
@[simp] theorem State.setReady_segReady (p : Port) (r : Bool) (s : State) :
    (s.setReady p r).segReady = if p = .segment then r else s.segReady := by
  cases p <;> rfl
@[simp] theorem State.setReady_smpReady (p : Port) (r : Bool) (s : State) :
    (s.setReady p r).smpReady = if p = .sample then r else s.smpReady := by
  cases p <;> rfl

@[simp] theorem State.readReg_cfg (r : Reg) (s : State) : (s.readReg r).cfg = s.cfg := by
  unfold State.readReg; split <;> rfl
@[simp] theorem State.readReg_bitbuf (r : Reg) (s : State) : (s.readReg r).bitbuf = s.bitbuf := by
  unfold State.readReg; split <;> rfl
@[simp] theorem State.readReg_addrcnt (r : Reg) (s : State) : (s.readReg r).addrcnt = s.addrcnt := by
  unfold State.readReg; split <;> rfl
@[simp] theorem State.readReg_infocnt (r : Reg) (s : State) : (s.readReg r).infocnt = s.infocnt := by
  unfold State.readReg; split <;> rfl
@[simp] theorem State.readReg_stage (r : Reg) (s : State) : (s.readReg r).stage = s.stage := by
  unfold State.readReg; split <;> rfl
@[simp] theorem State.readReg_err (r : Reg) (s : State) : (s.readReg r).err = s.err := by
  unfold State.readReg; split <;> rfl
@[simp] theorem State.readReg_errcmd (r : Reg) (s : State) : (s.readReg r).errcmd = s.errcmd := by
  unfold State.readReg; split <;> rfl
@[simp] theorem State.readReg_errstg (r : Reg) (s : State) : (s.readReg r).errstg = s.errstg := by
  unfold State.readReg; split <;> rfl
@[simp] theorem State.readReg_fcsreg (r : Reg) (s : State) : (s.readReg r).fcsreg = s.fcsreg := by
  unfold State.readReg; split <;> rfl
@[simp] theorem State.readReg_callLo (r : Reg) (s : State) : (s.readReg r).callLo = s.callLo := by
  unfold State.readReg; split <;> rfl
@[simp] theorem State.readReg_callHi (r : Reg) (s : State) : (s.readReg r).callHi = s.callHi := by
  unfold State.readReg; split <;> rfl
@[simp] theorem State.readReg_pend (r : Reg) (s : State) : (s.readReg r).pend = s.pend := by
  unfold State.readReg; split <;> rfl
@[simp] theorem State.readReg_drop (r : Reg) (s : State) : (s.readReg r).drop = s.drop := by
  unfold State.readReg; split <;> rfl
@[simp] theorem State.readReg_tx (r : Reg) (s : State) : (s.readReg r).tx = s.tx := by
  unfold State.readReg; split <;> rfl
@[simp] theorem State.readReg_segOut (r : Reg) (s : State) : (s.readReg r).segOut = s.segOut := by
  unfold State.readReg; split <;> rfl
@[simp] theorem State.readReg_smpOut (r : Reg) (s : State) : (s.readReg r).smpOut = s.smpOut := by
  unfold State.readReg; split <;> rfl
@[simp] theorem State.readReg_segReady (r : Reg) (s : State) : (s.readReg r).segReady = s.segReady := by
  unfold State.readReg; split <;> rfl
@[simp] theorem State.readReg_smpReady (r : Reg) (s : State) : (s.readReg r).smpReady = s.smpReady := by
  unfold State.readReg; split <;> rfl
@[simp] theorem State.readReg_inbox (r : Reg) (s : State) : (s.readReg r).inbox = s.inbox := by
  unfold State.readReg; split <;> rfl

@[simp] theorem State.writeReg_cfg (r : Reg) (v : Word) (s : State) : (s.writeReg r v).cfg = s.cfg := by
  cases r <;> first | rfl | (unfold State.writeReg; dsimp only; split <;> rfl)
@[simp] theorem State.writeReg_bitbuf (r : Reg) (v : Word) (s : State) : (s.writeReg r v).bitbuf = s.bitbuf := by
  cases r <;> first | rfl | (unfold State.writeReg; dsimp only; split <;> rfl)
@[simp] theorem State.writeReg_addrcnt (r : Reg) (v : Word) (s : State) : (s.writeReg r v).addrcnt = s.addrcnt := by
  cases r <;> first | rfl | (unfold State.writeReg; dsimp only; split <;> rfl)
@[simp] theorem State.writeReg_infocnt (r : Reg) (v : Word) (s : State) : (s.writeReg r v).infocnt = s.infocnt := by
  cases r <;> first | rfl | (unfold State.writeReg; dsimp only; split <;> rfl)
@[simp] theorem State.writeReg_stage (r : Reg) (v : Word) (s : State) : (s.writeReg r v).stage = s.stage := by
  cases r <;> first | rfl | (unfold State.writeReg; dsimp only; split <;> rfl)
@[simp] theorem State.writeReg_err (r : Reg) (v : Word) (s : State) : (s.writeReg r v).err = s.err := by
  cases r <;> first | rfl | (unfold State.writeReg; dsimp only; split <;> rfl)
@[simp] theorem State.writeReg_errcmd (r : Reg) (v : Word) (s : State) : (s.writeReg r v).errcmd = s.errcmd := by
  cases r <;> first | rfl | (unfold State.writeReg; dsimp only; split <;> rfl)
@[simp] theorem State.writeReg_errstg (r : Reg) (v : Word) (s : State) : (s.writeReg r v).errstg = s.errstg := by
  cases r <;> first | rfl | (unfold State.writeReg; dsimp only; split <;> rfl)
@[simp] theorem State.writeReg_fcsreg (r : Reg) (v : Word) (s : State) : (s.writeReg r v).fcsreg = s.fcsreg := by
  cases r <;> first | rfl | (unfold State.writeReg; dsimp only; split <;> rfl)
@[simp] theorem State.writeReg_segOut (r : Reg) (v : Word) (s : State) : (s.writeReg r v).segOut = s.segOut := by
  cases r <;> first | rfl | (unfold State.writeReg; dsimp only; split <;> rfl)
@[simp] theorem State.writeReg_smpOut (r : Reg) (v : Word) (s : State) : (s.writeReg r v).smpOut = s.smpOut := by
  cases r <;> first | rfl | (unfold State.writeReg; dsimp only; split <;> rfl)
@[simp] theorem State.writeReg_segReady (r : Reg) (v : Word) (s : State) : (s.writeReg r v).segReady = s.segReady := by
  cases r <;> first | rfl | (unfold State.writeReg; dsimp only; split <;> rfl)
@[simp] theorem State.writeReg_smpReady (r : Reg) (v : Word) (s : State) : (s.writeReg r v).smpReady = s.smpReady := by
  cases r <;> first | rfl | (unfold State.writeReg; dsimp only; split <;> rfl)
@[simp] theorem State.writeReg_inbox (r : Reg) (v : Word) (s : State) : (s.writeReg r v).inbox = s.inbox := by
  cases r <;> first | rfl | (unfold State.writeReg; dsimp only; split <;> rfl)
@[simp] theorem State.writeReg_rdata (r : Reg) (v : Word) (s : State) : (s.writeReg r v).rdata = s.rdata := by
  cases r <;> first | rfl | (unfold State.writeReg; dsimp only; split <;> rfl)
@[simp] theorem State.writeReg_draws (r : Reg) (v : Word) (s : State) : (s.writeReg r v).draws = s.draws := by
  cases r <;> first | rfl | (unfold State.writeReg; dsimp only; split <;> rfl)

end Sys2Proof.Machine
end

