-- ==== Sys2Proof/Laws/Ops.lean ====
section
/-! SUPPORT. What each shared operation can do, said once: the capacity check, a command's body, its completion, an
emitting command's turn. -/

namespace Sys2Proof.Machine

/-! ### The capacity check (60_exceptions.md R235) -/

theorem setSeq_ok {t : BitSeq} {s u : State} :
    s.setSeq t = .ok u ↔ t.length ≤ s.cfg.cap ∧ u = { s with bitbuf := t } := by
  unfold State.setSeq
  split <;> rename_i h
  · simp; omega
  · simp only [Except.ok.injEq]
    constructor
    · rintro rfl; exact ⟨by omega, rfl⟩
    · rintro ⟨_, rfl⟩; rfl

theorem setSeq_error {t : BitSeq} {s : State} {e : Err} :
    s.setSeq t = .error e ↔ s.cfg.cap < t.length ∧ e = .bufferOverflow := by
  unfold State.setSeq
  split <;> rename_i h
  · simp [h, eq_comm]
  · simp [h]

theorem append_ok {b : BitSeq} {s u : State} :
    s.append b = .ok u ↔ s.bitbuf.length + b.length ≤ s.cfg.cap ∧ u = { s with bitbuf := s.bitbuf ++ b } := by
  rw [State.append, setSeq_ok, List.length_append]

theorem append_error {b : BitSeq} {s : State} {e : Err} :
    s.append b = .error e ↔ s.cfg.cap < s.bitbuf.length + b.length ∧ e = .bufferOverflow := by
  rw [State.append, setSeq_error, List.length_append]

/-! ### The stage check (60_exceptions.md R236) -/

theorem inStage_ok {st : Stage} {s u : State} {go : Except Err State} :
    s.inStage st go = .ok u ↔ s.stage = st ∧ go = .ok u := by
  unfold State.inStage; split <;> simp_all

theorem inStage_error {st : Stage} {s : State} {go : Except Err State} {e : Err} :
    s.inStage st go = .error e ↔ (s.stage ≠ st ∧ e = .sequence) ∨ (s.stage = st ∧ go = .error e) := by
  unfold State.inStage; split <;> simp_all [eq_comm]

/-! ### Going on after an appended or replaced sequence -/

theorem map_ok {o : Except Err State} {f : State → State} {t : State} :
    o.map f = .ok t ↔ ∃ u, o = .ok u ∧ t = f u := by
  cases o <;> simp [Except.map, eq_comm]

theorem map_error {o : Except Err State} {f : State → State} {e : Err} : o.map f = .error e ↔ o = .error e := by
  cases o <;> simp [Except.map]

/-! ### The bodies of the commands -/

theorem addrBody_ok {clen ssid : Nat} {last : Bool} {p : Pending} {s t : State} :
    addrBody clen last ssid p s = .ok t ↔
      s.stage = .addr ∧ clen ≤ 6 ∧ ¬(s.addrcnt = 0#4 ∧ last = true) ∧ ¬(s.addrcnt = 9#4 ∧ last = false)
        ∧ s.bitbuf.length + 56 ≤ s.cfg.cap
        ∧ t = { s with
            bitbuf := s.bitbuf ++ bytes (p.addressField clen s.addrcnt ssid last)
            addrcnt := s.addrcnt + 1#4, stage := if last then .ctl else .addr } := by
  unfold addrBody
  rw [inStage_ok]
  refine and_congr_right fun _ => ?_
  split
  · simp; omega
  split
  · simp_all
  split
  · simp_all
  rw [map_ok]
  simp only [append_ok, length_bytes, length_addressField]
  constructor
  · rintro ⟨u, ⟨hl, rfl⟩, rfl⟩
    exact ⟨by omega, by assumption, by assumption, hl, rfl⟩
  · rintro ⟨_, _, _, hl, rfl⟩
    exact ⟨_, ⟨hl, rfl⟩, rfl⟩

theorem ctlpidBody_ok {s t : State} :
    ctlpidBody s = .ok t ↔
      s.stage = .ctl ∧ s.bitbuf.length + 16 ≤ s.cfg.cap
        ∧ t = { s with bitbuf := s.bitbuf ++ bytes controlPid, stage := .info } := by
  unfold ctlpidBody
  rw [inStage_ok, map_ok]
  refine and_congr_right fun _ => ?_
  simp only [append_ok, length_bytes]
  constructor
  · rintro ⟨u, ⟨hl, rfl⟩, rfl⟩; exact ⟨hl, rfl⟩
  · rintro ⟨hl, rfl⟩; exact ⟨_, ⟨hl, rfl⟩, rfl⟩

theorem infoBody_ok {b : Byte} {s t : State} :
    infoBody b s = .ok t ↔
      s.stage = .info ∧ s.bitbuf.length + 8 ≤ s.cfg.cap
        ∧ t = { s with bitbuf := s.bitbuf ++ bits8 b, infocnt := s.infocnt + 1#32 } := by
  unfold infoBody
  rw [inStage_ok, map_ok]
  refine and_congr_right fun _ => ?_
  simp only [append_ok, length_bits8]
  constructor
  · rintro ⟨u, ⟨hl, rfl⟩, rfl⟩; exact ⟨hl, rfl⟩
  · rintro ⟨hl, rfl⟩; exact ⟨_, ⟨hl, rfl⟩, rfl⟩

theorem fcsBody_ok {s t : State} :
    fcsBody s = .ok t ↔
      s.stage = .info ∧ s.bitbuf.length + 16 ≤ s.cfg.cap
        ∧ t = { s with bitbuf := withFcs s.bitbuf, fcsreg := crc16 s.bitbuf, stage := .fcs } := by
  unfold fcsBody
  rw [inStage_ok, map_ok]
  refine and_congr_right fun _ => ?_
  simp only [append_ok, length_fcsBits]
  constructor
  · rintro ⟨u, ⟨hl, rfl⟩, rfl⟩; exact ⟨hl, rfl⟩
  · rintro ⟨hl, rfl⟩; exact ⟨_, ⟨hl, rfl⟩, rfl⟩

theorem stuffBody_ok {s t : State} :
    stuffBody s = .ok t ↔
      s.stage = .fcs ∧ (stuff s.bitbuf).length ≤ s.cfg.cap
        ∧ t = { s with bitbuf := stuff s.bitbuf, stage := .stuffed } := by
  unfold stuffBody
  rw [inStage_ok, map_ok]
  refine and_congr_right fun _ => ?_
  simp only [setSeq_ok]
  constructor
  · rintro ⟨u, ⟨hl, rfl⟩, rfl⟩; exact ⟨hl, rfl⟩
  · rintro ⟨hl, rfl⟩; exact ⟨_, ⟨hl, rfl⟩, rfl⟩

theorem frameBody_ok {s t : State} :
    frameBody s = .ok t ↔
      s.stage = .stuffed ∧ s.bitbuf.length + 16 ≤ s.cfg.cap
        ∧ t = { s with bitbuf := flag ++ s.bitbuf ++ flag, stage := .framed } := by
  unfold frameBody
  rw [inStage_ok, map_ok]
  refine and_congr_right fun _ => ?_
  simp only [setSeq_ok, List.length_append, length_flag]
  constructor
  · rintro ⟨u, ⟨hl, rfl⟩, rfl⟩; exact ⟨by omega, rfl⟩
  · rintro ⟨hl, rfl⟩; exact ⟨_, ⟨by omega, rfl⟩, rfl⟩

theorem nrziBody_ok {s t : State} :
    nrziBody s = .ok t ↔
      s.stage = .framed ∧ t = { s with bitbuf := nrzi s.cfg.nrziInit s.bitbuf, stage := .line } := by
  unfold nrziBody
  rw [inStage_ok]
  simp [eq_comm]

theorem modCheck_ok {s t : State} : modCheck s = .ok t ↔ s.stage = .line ∧ t = s := by
  unfold modCheck
  rw [inStage_ok]
  simp [eq_comm]

/-- Why a body fails: the errors of each command's rule, in check order (60_exceptions.md R234). -/
theorem addrBody_error {clen ssid : Nat} {last : Bool} {p : Pending} {s : State} {e : Err} :
    addrBody clen last ssid p s = .error e ↔
      (s.stage ≠ .addr ∧ e = .sequence)
        ∨ (s.stage = .addr ∧ 6 < clen ∧ e = .invalidAddress)
        ∨ (s.stage = .addr ∧ clen ≤ 6 ∧ s.addrcnt = 0#4 ∧ last = true ∧ e = .sequence)
        ∨ (s.stage = .addr ∧ clen ≤ 6 ∧ s.addrcnt = 9#4 ∧ last = false ∧ e = .pathTooLong)
        ∨ (s.stage = .addr ∧ clen ≤ 6 ∧ ¬(s.addrcnt = 0#4 ∧ last = true) ∧ ¬(s.addrcnt = 9#4 ∧ last = false)
            ∧ s.cfg.cap < s.bitbuf.length + 56 ∧ e = .bufferOverflow) := by
  unfold addrBody
  rw [inStage_error]
  by_cases hs : s.stage = .addr
  swap
  · simp [hs]
  simp only [hs, ne_eq, not_true_eq_false, false_and, true_and, false_or]
  split
  · rename_i h6
    simp only [Except.error.injEq]
    constructor
    · rintro rfl; exact .inl ⟨h6, rfl⟩
    · rintro (⟨_, rfl⟩ | ⟨h, _⟩ | ⟨h, _⟩ | ⟨h, _⟩)
      · rfl
      all_goals omega
  rename_i h6
  split
  · rename_i h0
    simp only [Except.error.injEq]
    constructor
    · rintro rfl; exact .inr (.inl ⟨by omega, h0.1, h0.2, rfl⟩)
    · rintro (⟨h, _⟩ | ⟨_, _, _, rfl⟩ | ⟨_, h9, _⟩ | ⟨_, h, _⟩)
      · omega
      · rfl
      · rw [h0.1] at h9; cases h9
      · exact absurd h0 h
  rename_i h0
  split
  · rename_i h9
    simp only [Except.error.injEq]
    constructor
    · rintro rfl; exact .inr (.inr (.inl ⟨by omega, h9.1, h9.2, rfl⟩))
    · rintro (⟨h, _⟩ | ⟨_, a, b, _⟩ | ⟨_, _, _, rfl⟩ | ⟨_, _, h, _⟩)
      · omega
      · exact absurd ⟨a, b⟩ h0
      · rfl
      · exact absurd h9 h
  rename_i h9
  rw [map_error, append_error]
  simp only [length_bytes, length_addressField]
  constructor
  · rintro ⟨hl, rfl⟩; exact .inr (.inr (.inr ⟨by omega, h0, h9, hl, rfl⟩))
  · rintro (⟨h, _⟩ | ⟨_, a, b, _⟩ | ⟨_, a, b, _⟩ | ⟨_, _, _, hl, rfl⟩)
    · omega
    · exact absurd ⟨a, b⟩ h0
    · exact absurd ⟨a, b⟩ h9
    · exact ⟨hl, rfl⟩

theorem ctlpidBody_error {s : State} {e : Err} :
    ctlpidBody s = .error e ↔
      (s.stage ≠ .ctl ∧ e = .sequence)
        ∨ (s.stage = .ctl ∧ s.cfg.cap < s.bitbuf.length + 16 ∧ e = .bufferOverflow) := by
  unfold ctlpidBody
  rw [inStage_error, map_error, append_error]
  simp [controlPid]

theorem infoBody_error {b : Byte} {s : State} {e : Err} :
    infoBody b s = .error e ↔
      (s.stage ≠ .info ∧ e = .sequence)
        ∨ (s.stage = .info ∧ s.cfg.cap < s.bitbuf.length + 8 ∧ e = .bufferOverflow) := by
  unfold infoBody
  rw [inStage_error, map_error, append_error]
  simp

theorem fcsBody_error {s : State} {e : Err} :
    fcsBody s = .error e ↔
      (s.stage ≠ .info ∧ e = .sequence)
        ∨ (s.stage = .info ∧ s.cfg.cap < s.bitbuf.length + 16 ∧ e = .bufferOverflow) := by
  unfold fcsBody
  rw [inStage_error, map_error, append_error]
  simp

theorem stuffBody_error {s : State} {e : Err} :
    stuffBody s = .error e ↔
      (s.stage ≠ .fcs ∧ e = .sequence)
        ∨ (s.stage = .fcs ∧ s.cfg.cap < (stuff s.bitbuf).length ∧ e = .bufferOverflow) := by
  unfold stuffBody
  rw [inStage_error, map_error, setSeq_error]

theorem frameBody_error {s : State} {e : Err} :
    frameBody s = .error e ↔
      (s.stage ≠ .stuffed ∧ e = .sequence)
        ∨ (s.stage = .stuffed ∧ s.cfg.cap < s.bitbuf.length + 16 ∧ e = .bufferOverflow) := by
  unfold frameBody
  rw [inStage_error, map_error, setSeq_error]
  have : (flag ++ s.bitbuf ++ flag).length = s.bitbuf.length + 16 := by
    simp only [List.length_append, length_flag]; omega
  rw [this]

theorem nrziBody_error {s : State} {e : Err} :
    nrziBody s = .error e ↔ s.stage ≠ .framed ∧ e = .sequence := by
  unfold nrziBody
  rw [inStage_error]
  simp

theorem modCheck_error {s : State} {e : Err} :
    modCheck s = .error e ↔ s.stage ≠ .line ∧ e = .sequence := by
  unfold modCheck
  rw [inStage_error]
  simp

/-! ### Completion (60_exceptions.md R232 to R234) -/

theorem current_of_pend {i : Instr} {s : State} {p : Pending} (h : s.pend = some p) : s.current i = p := by
  simp [State.current, h]

theorem attempt_ok {w : Word} {body : State → Except Err State} {s t : State} :
    attempt w body s = .ok t ↔ body s = .ok t := by
  unfold attempt; split <;> simp_all

theorem attempt_error {w : Word} {body : State → Except Err State} {s t : State} :
    attempt w body s = .error t ↔ ∃ e, body s = .error e ∧ t = s.raise e w := by
  unfold attempt; split <;> simp_all [eq_comm]

theorem runBody_ignored {i : Instr} {body : State → Except Err State} {s : State} (h : s.stage = .error) :
    runBody i body s = .next s.finish := by
  simp [runBody, h]

theorem runBody_of_ok {i : Instr} {body : State → Except Err State} {s t : State} (h : s.stage ≠ .error)
    (hb : body s = .ok t) : runBody i body s = .next t.finish := by
  simp [runBody, h, attempt, hb]

theorem runBody_of_error {i : Instr} {body : State → Except Err State} {s : State} {e : Err}
    (h : s.stage ≠ .error) (hb : body s = .error e) :
    runBody i body s = .next (s.raise e (s.current i).word).finish := by
  simp [runBody, h, attempt, hb]

/-- Everything a one-step command can do. -/
theorem runBody_cases {i : Instr} {body : State → Except Err State} {s t : State}
    (h : runBody i body s = .next t) :
    (s.stage = .error ∧ t = s.finish)
      ∨ (s.stage ≠ .error ∧ ∃ u, body s = .ok u ∧ t = u.finish)
      ∨ (s.stage ≠ .error ∧ ∃ e, body s = .error e ∧ t = (s.raise e (s.current i).word).finish) := by
  by_cases hs : s.stage = .error
  · rw [runBody_ignored hs] at h
    cases h
    exact .inl ⟨hs, rfl⟩
  · rcases hb : body s with e | u
    · rw [runBody_of_error hs hb] at h
      cases h
      exact .inr (.inr ⟨hs, e, rfl, rfl⟩)
    · rw [runBody_of_ok hs hb] at h
      cases h
      exact .inr (.inl ⟨hs, u, rfl, rfl⟩)

theorem runIllegal_cases {w : Word} {s t : State} (h : runIllegal w s = .next t) :
    (s.stage = .error ∧ t = s.finish) ∨ (s.stage ≠ .error ∧ t = (s.raise .illegalCommand w).finish) := by
  unfold runIllegal at h
  split at h <;> cases h
  · exact .inl ⟨‹_›, rfl⟩
  · exact .inr ⟨‹_›, rfl⟩

/-! ### An emitting command's turn (44_afsk.md R186) -/

/-- Everything one turn of an emission can do. -/
theorem transmitStep_cases {t : Transmit} {s u : State} (h : transmitStep t s = .next u) :
    (t.seg < t.bits.length ∧ s.segReady = true ∧ u = s.sendSeg t)
      ∨ (t.smp < numSamples s.cfg.fs t.prof t.bits.length ∧ s.smpReady = true ∧ u = s.sendSmp t)
      ∨ u = { s with tx := some t }
      ∨ (t.bits.length ≤ t.seg ∧ numSamples s.cfg.fs t.prof t.bits.length ≤ t.smp ∧ u = (s.commit t).finish) := by
  unfold transmitStep at h
  split at h
  · rename_i hc
    cases h
    simp only [Bool.and_eq_true, Transmit.segLeft, decide_eq_true_eq] at hc
    exact .inl ⟨hc.1, hc.2, rfl⟩
  split at h
  · rename_i hc
    cases h
    simp only [Bool.and_eq_true, Transmit.smpLeft, decide_eq_true_eq] at hc
    exact .inr (.inl ⟨hc.1, hc.2, rfl⟩)
  split at h
  · cases h
    exact .inr (.inr (.inl rfl))
  · rename_i hc
    cases h
    simp only [Bool.or_eq_true, Transmit.segLeft, Transmit.smpLeft, decide_eq_true_eq, not_or, Nat.not_lt] at hc
    exact .inr (.inr (.inr ⟨hc.1, hc.2, rfl⟩))

theorem transmitStep_seg {t : Transmit} {s : State} (h : t.seg < t.bits.length) (hr : s.segReady = true) :
    transmitStep t s = .next (s.sendSeg t) := by
  simp [transmitStep, Transmit.segLeft, h, hr]

theorem transmitStep_smp {t : Transmit} {s : State} (h : ¬(t.seg < t.bits.length ∧ s.segReady = true))
    (hs : t.smp < numSamples s.cfg.fs t.prof t.bits.length) (hr : s.smpReady = true) :
    transmitStep t s = .next (s.sendSmp t) := by
  have : (t.segLeft && s.segReady) = false := by
    simpa [Transmit.segLeft] using h
  simp [transmitStep, this, Transmit.smpLeft, hs, hr]

theorem transmitStep_wait {t : Transmit} {s : State} (h : ¬(t.seg < t.bits.length ∧ s.segReady = true))
    (hs : ¬(t.smp < numSamples s.cfg.fs t.prof t.bits.length ∧ s.smpReady = true))
    (hl : t.seg < t.bits.length ∨ t.smp < numSamples s.cfg.fs t.prof t.bits.length) :
    transmitStep t s = .next { s with tx := some t } := by
  have h1 : (t.segLeft && s.segReady) = false := by simpa [Transmit.segLeft] using h
  have h2 : (t.smpLeft s.cfg.fs && s.smpReady) = false := by simpa [Transmit.smpLeft] using hs
  have h3 : (t.segLeft || t.smpLeft s.cfg.fs) = true := by simpa [Transmit.segLeft, Transmit.smpLeft] using hl
  simp [transmitStep, h1, h2, h3]

theorem transmitStep_done {t : Transmit} {s : State} (h : t.bits.length ≤ t.seg)
    (hs : numSamples s.cfg.fs t.prof t.bits.length ≤ t.smp) :
    transmitStep t s = .next (s.commit t).finish := by
  simp [transmitStep, Transmit.segLeft, Transmit.smpLeft, Nat.not_lt.mpr h, Nat.not_lt.mpr hs]

theorem transmitStep_next (t : Transmit) (s : State) : ∃ u, transmitStep t s = .next u := by
  unfold transmitStep; split <;> (try split) <;> (try split) <;> exact ⟨_, rfl⟩

/-! ### MOD and RUN -/

theorem execMod_emitting {prof : Profile} {s : State} {t : Transmit} (h : s.tx = some t) :
    execMod prof s = transmitStep t s := by
  simp [execMod, h]

theorem execRun_emitting {prof : Profile} {s : State} {t : Transmit} (h : s.tx = some t) :
    execRun prof s = transmitStep t s := by
  simp [execRun, h]

/-- Everything one turn of a MOD can do (44_afsk.md R184, R186). -/
theorem execMod_cases {prof : Profile} {s u : State} (h : execMod prof s = .next u) :
    (∃ t, s.tx = some t ∧ transmitStep t s = .next u)
      ∨ (s.tx = none ∧ s.stage = .error ∧ u = s.finish)
      ∨ (s.tx = none ∧ s.stage ≠ .error ∧ s.stage ≠ .line
          ∧ u = (s.raise .sequence (s.current (.mod prof)).word).finish)
      ∨ (s.tx = none ∧ s.stage = .line ∧ transmitStep (Transmit.start prof s.bitbuf s.fcsreg) s = .next u) := by
  unfold execMod at h
  split at h
  · rename_i t ht
    exact .inl ⟨t, ht, h⟩
  rename_i ht
  split at h
  · rename_i hs
    cases h
    exact .inr (.inl ⟨ht, hs, rfl⟩)
  rename_i hs
  split at h
  · rename_i v hv
    cases h
    obtain ⟨e, he, rfl⟩ := attempt_error.mp hv
    obtain ⟨hl, rfl⟩ := modCheck_error.mp he
    exact .inr (.inr (.inl ⟨ht, hs, hl, rfl⟩))
  · rename_i v hv
    obtain ⟨hl, rfl⟩ := modCheck_ok.mp (attempt_ok.mp hv)
    exact .inr (.inr (.inr ⟨ht, hl, h⟩))

theorem execMod_start {prof : Profile} {s : State} (ht : s.tx = none) (hl : s.stage = .line) :
    execMod prof s = transmitStep (Transmit.start prof s.bitbuf s.fcsreg) s := by
  simp [execMod, ht, hl, attempt, modCheck_ok.mpr ⟨hl, rfl⟩]

/-- The line image of a body is what the four steps of a RUN leave, and where each of them fails
(45_control.md R212). -/
theorem lineUp_ok {w : Word} {s t : State} :
    lineUp w s = .ok t ↔
      s.stage = .info ∧ s.bitbuf.length + 16 ≤ s.cfg.cap ∧ (stuff (withFcs s.bitbuf)).length + 16 ≤ s.cfg.cap
        ∧ t = { s with
            bitbuf := lineImage s.cfg.nrziInit s.bitbuf, fcsreg := crc16 s.bitbuf, stage := .line } := by
  unfold lineUp
  constructor
  · intro h
    split at h
    · cases h
    rename_i s1 h1
    split at h
    · cases h
    rename_i s2 h2
    split at h
    · cases h
    rename_i s3 h3
    obtain ⟨hs, hl, rfl⟩ := fcsBody_ok.mp (attempt_ok.mp h1)
    obtain ⟨-, hl2, rfl⟩ := stuffBody_ok.mp (attempt_ok.mp h2)
    obtain ⟨-, hl3, rfl⟩ := frameBody_ok.mp (attempt_ok.mp h3)
    obtain ⟨-, rfl⟩ := nrziBody_ok.mp (attempt_ok.mp h)
    exact ⟨hs, hl, hl3, rfl⟩
  · rintro ⟨hs, hl, hl2, rfl⟩
    rw [attempt_ok.mpr (fcsBody_ok.mpr ⟨hs, hl, rfl⟩)]
    simp only
    rw [attempt_ok.mpr (stuffBody_ok.mpr ⟨rfl, Nat.le_trans (Nat.le_add_right _ 16) hl2, rfl⟩)]
    simp only
    rw [attempt_ok.mpr (frameBody_ok.mpr ⟨rfl, hl2, rfl⟩)]
    simp only
    rw [attempt_ok.mpr (nrziBody_ok.mpr ⟨rfl, rfl⟩)]
    rfl

theorem lineUp_error {w : Word} {s t : State} :
    lineUp w s = .error t ↔
      (s.stage ≠ .info ∧ t = s.raise .sequence w)
        ∨ (s.stage = .info ∧ s.cfg.cap < s.bitbuf.length + 16 ∧ t = s.raise .bufferOverflow w)
        ∨ (s.stage = .info ∧ s.bitbuf.length + 16 ≤ s.cfg.cap ∧ s.cfg.cap < (stuff (withFcs s.bitbuf)).length
            ∧ t = ({ s with bitbuf := withFcs s.bitbuf, fcsreg := crc16 s.bitbuf, stage := .fcs } : State).raise
                .bufferOverflow w)
        ∨ (s.stage = .info ∧ s.bitbuf.length + 16 ≤ s.cfg.cap ∧ (stuff (withFcs s.bitbuf)).length ≤ s.cfg.cap
            ∧ s.cfg.cap < (stuff (withFcs s.bitbuf)).length + 16
            ∧ t = ({ s with
                  bitbuf := stuff (withFcs s.bitbuf), fcsreg := crc16 s.bitbuf, stage := .stuffed } : State).raise
                .bufferOverflow w) := by
  unfold lineUp
  by_cases hs : s.stage = .info
  swap
  · rw [attempt_error.mpr ⟨_, fcsBody_error.mpr (.inl ⟨hs, rfl⟩), rfl⟩]
    simp [hs, eq_comm]
  by_cases h1 : s.bitbuf.length + 16 ≤ s.cfg.cap
  swap
  · rw [attempt_error.mpr ⟨_, fcsBody_error.mpr (.inr ⟨hs, by omega, rfl⟩), rfl⟩]
    simp [hs, eq_comm, h1, Nat.lt_of_not_le h1]
  rw [attempt_ok.mpr (fcsBody_ok.mpr ⟨hs, h1, rfl⟩)]
  simp only
  by_cases h2 : (stuff (withFcs s.bitbuf)).length ≤ s.cfg.cap
  swap
  · rw [attempt_error.mpr ⟨_, stuffBody_error.mpr (.inr ⟨rfl, Nat.lt_of_not_le h2, rfl⟩), rfl⟩]
    simp [hs, eq_comm, h1, h2, Nat.lt_of_not_le h2, Nat.not_lt.mpr h1]
  rw [attempt_ok.mpr (stuffBody_ok.mpr ⟨rfl, h2, rfl⟩)]
  simp only
  by_cases h3 : (stuff (withFcs s.bitbuf)).length + 16 ≤ s.cfg.cap
  swap
  · rw [attempt_error.mpr ⟨_, frameBody_error.mpr (.inr ⟨rfl, Nat.lt_of_not_le h3, rfl⟩), rfl⟩]
    simp [hs, eq_comm, h1, h2, Nat.lt_of_not_le h3, Nat.not_lt.mpr h1, Nat.not_lt.mpr h2]
  rw [attempt_ok.mpr (frameBody_ok.mpr ⟨rfl, h3, rfl⟩)]
  simp only
  rw [attempt_ok.mpr (nrziBody_ok.mpr ⟨rfl, rfl⟩)]
  simp [hs, Nat.not_lt.mpr h1, Nat.not_lt.mpr h2, Nat.not_lt.mpr h3]

/-- Everything one turn of a RUN can do (45_control.md R212, 44_afsk.md R186). -/
theorem execRun_cases {prof : Profile} {s u : State} (h : execRun prof s = .next u) :
    (∃ t, s.tx = some t ∧ transmitStep t s = .next u)
      ∨ (s.tx = none ∧ s.stage = .error ∧ u = s.finish)
      ∨ (s.tx = none ∧ s.stage ≠ .error ∧ ∃ v, lineUp (s.current (.run prof)).word s = .error v ∧ u = v.finish)
      ∨ (s.tx = none ∧ s.stage ≠ .error ∧ ∃ v, lineUp (s.current (.run prof)).word s = .ok v
          ∧ transmitStep (Transmit.start prof v.bitbuf v.fcsreg) s = .next u) := by
  unfold execRun at h
  split at h
  · rename_i t ht
    exact .inl ⟨t, ht, h⟩
  rename_i ht
  split at h
  · rename_i hs
    cases h
    exact .inr (.inl ⟨ht, hs, rfl⟩)
  rename_i hs
  split at h
  · rename_i v hv
    cases h
    exact .inr (.inr (.inl ⟨ht, hs, v, hv, rfl⟩))
  · rename_i v hv
    exact .inr (.inr (.inr ⟨ht, hs, v, hv, h⟩))

theorem execRun_of_error {prof : Profile} {s v : State} (ht : s.tx = none) (hs : s.stage ≠ .error)
    (hv : lineUp (s.current (.run prof)).word s = .error v) : execRun prof s = .next v.finish := by
  simp [execRun, ht, hs, hv]

theorem execRun_start {prof : Profile} {s : State} (ht : s.tx = none) (hs : s.stage = .info)
    (h1 : s.bitbuf.length + 16 ≤ s.cfg.cap) (h2 : (stuff (withFcs s.bitbuf)).length + 16 ≤ s.cfg.cap) :
    execRun prof s =
      transmitStep (Transmit.start prof (lineImage s.cfg.nrziInit s.bitbuf) (crc16 s.bitbuf)) s := by
  simp [execRun, ht, hs, lineUp_ok.mpr ⟨hs, h1, h2, rfl⟩]

end Sys2Proof.Machine
end

