-- ==== Sys2Proof/Laws/Exec.lean ====
section
/-! SUPPORT. What one turn of any command can do, said once as an inductive relation, and that a turn never stops. -/

namespace Sys2Proof.Machine

/-- The states one turn of command `i` in `s` can leave: ignored in S_ERROR, or its own effect, or error entry, or a turn of an
emission. -/
inductive Turn : Instr → State → State → Prop where
  | ignored {i : Instr} {s : State} (hs : s.stage = .error) (hi : i ≠ .clear)
      (htx : s.tx = none ∨ ∀ prof, i ≠ .mod prof ∧ i ≠ .run prof) : Turn i s s.finish
  | nop {s : State} : Turn .nop s s.finish
  | clear {s : State} : Turn .clear s s.clearFrame.finish
  | addr {s : State} {clen ssid : Nat} {last : Bool} (hs : s.stage = .addr) (hc : clen ≤ 6)
      (h0 : ¬(s.addrcnt = 0#4 ∧ last = true)) (h9 : ¬(s.addrcnt = 9#4 ∧ last = false))
      (hl : s.bitbuf.length + 56 ≤ s.cfg.cap) :
      Turn (.addr clen last ssid) s
        (State.finish { s with
          bitbuf := s.bitbuf ++
            bytes ((s.current (.addr clen last ssid)).addressField clen s.addrcnt ssid last)
          addrcnt := s.addrcnt + 1#4, stage := if last then .ctl else .addr })
  | ctlpid {s : State} (hs : s.stage = .ctl) (hl : s.bitbuf.length + 16 ≤ s.cfg.cap) :
      Turn .ctlpid s (State.finish { s with bitbuf := s.bitbuf ++ bytes controlPid, stage := .info })
  | info {s : State} {b : Byte} (hs : s.stage = .info) (hl : s.bitbuf.length + 8 ≤ s.cfg.cap) :
      Turn (.info b) s (State.finish { s with bitbuf := s.bitbuf ++ bits8 b, infocnt := s.infocnt + 1#32 })
  | fcs {s : State} (hs : s.stage = .info) (hl : s.bitbuf.length + 16 ≤ s.cfg.cap) :
      Turn .fcs s (State.finish { s with bitbuf := withFcs s.bitbuf, fcsreg := crc16 s.bitbuf, stage := .fcs })
  | stuff {s : State} (hs : s.stage = .fcs) (hl : (Machine.stuff s.bitbuf).length ≤ s.cfg.cap) :
      Turn .stuff s (State.finish { s with bitbuf := Machine.stuff s.bitbuf, stage := .stuffed })
  | frame {s : State} (hs : s.stage = .stuffed) (hl : s.bitbuf.length + 16 ≤ s.cfg.cap) :
      Turn .frame s (State.finish { s with bitbuf := flag ++ s.bitbuf ++ flag, stage := .framed })
  | nrzi {s : State} (hs : s.stage = .framed) :
      Turn .nrzi s (State.finish { s with bitbuf := Machine.nrzi s.cfg.nrziInit s.bitbuf, stage := .line })
  | raised {i : Instr} {s : State} (e : Err) (hs : s.stage ≠ .error) (hn : i ≠ .nop) (hi : i ≠ .clear)
      (htx : s.tx = none ∨ ∀ prof, i ≠ .mod prof ∧ i ≠ .run prof) :
      Turn i s (s.raise e (s.current i).word).finish
  | runStuffFailed {s : State} {prof : Profile} (htx : s.tx = none) (hs : s.stage = .info)
      (h1 : s.bitbuf.length + 16 ≤ s.cfg.cap) (h2 : s.cfg.cap < (Machine.stuff (withFcs s.bitbuf)).length) :
      Turn (.run prof) s
        (State.finish (State.raise .bufferOverflow (s.current (.run prof)).word
          { s with bitbuf := withFcs s.bitbuf, fcsreg := crc16 s.bitbuf, stage := .fcs }))
  | runFrameFailed {s : State} {prof : Profile} (htx : s.tx = none) (hs : s.stage = .info)
      (h1 : s.bitbuf.length + 16 ≤ s.cfg.cap) (h2 : (Machine.stuff (withFcs s.bitbuf)).length ≤ s.cfg.cap)
      (h3 : s.cfg.cap < (Machine.stuff (withFcs s.bitbuf)).length + 16) :
      Turn (.run prof) s
        (State.finish (State.raise .bufferOverflow (s.current (.run prof)).word
          { s with bitbuf := Machine.stuff (withFcs s.bitbuf), fcsreg := crc16 s.bitbuf, stage := .stuffed }))
  | modStart {s u : State} {prof : Profile} (htx : s.tx = none) (hs : s.stage = .line)
      (h : transmitStep (Transmit.start prof s.bitbuf s.fcsreg) s = .next u) : Turn (.mod prof) s u
  | runStart {s u : State} {prof : Profile} (htx : s.tx = none) (hs : s.stage = .info)
      (h1 : s.bitbuf.length + 16 ≤ s.cfg.cap) (h2 : (Machine.stuff (withFcs s.bitbuf)).length + 16 ≤ s.cfg.cap)
      (h : transmitStep (Transmit.start prof (lineImage s.cfg.nrziInit s.bitbuf) (crc16 s.bitbuf)) s = .next u) :
      Turn (.run prof) s u
  | emitting {i : Instr} {s u : State} {t : Transmit} (hi : ∃ prof, i = .mod prof ∨ i = .run prof)
      (htx : s.tx = some t) (h : transmitStep t s = .next u) : Turn i s u

/-- The inversion of `exec`: a turn of a command is one of these. -/
theorem exec_turn {i : Instr} {s t : State} (h : exec i s = .next t) : Turn i s t := by
  cases i with
  | nop => cases h; exact .nop
  | clear => cases h; exact .clear
  | addr clen last ssid =>
    obtain ⟨hs, rfl⟩ | ⟨hs, u, hu, rfl⟩ | ⟨hs, e, he, rfl⟩ := runBody_cases h
    · exact .ignored hs (by simp) (.inr (by simp))
    · obtain ⟨h1, h2, h3, h4, h5, rfl⟩ := addrBody_ok.mp hu
      exact .addr h1 h2 h3 h4 h5
    · exact .raised e hs (by simp) (by simp) (.inr (by simp))
  | ctlpid =>
    obtain ⟨hs, rfl⟩ | ⟨hs, u, hu, rfl⟩ | ⟨hs, e, he, rfl⟩ := runBody_cases h
    · exact .ignored hs (by simp) (.inr (by simp))
    · obtain ⟨h1, h2, rfl⟩ := ctlpidBody_ok.mp hu
      exact .ctlpid h1 h2
    · exact .raised e hs (by simp) (by simp) (.inr (by simp))
  | info b =>
    obtain ⟨hs, rfl⟩ | ⟨hs, u, hu, rfl⟩ | ⟨hs, e, he, rfl⟩ := runBody_cases h
    · exact .ignored hs (by simp) (.inr (by simp))
    · obtain ⟨h1, h2, rfl⟩ := infoBody_ok.mp hu
      exact .info h1 h2
    · exact .raised e hs (by simp) (by simp) (.inr (by simp))
  | fcs =>
    obtain ⟨hs, rfl⟩ | ⟨hs, u, hu, rfl⟩ | ⟨hs, e, he, rfl⟩ := runBody_cases h
    · exact .ignored hs (by simp) (.inr (by simp))
    · obtain ⟨h1, h2, rfl⟩ := fcsBody_ok.mp hu
      exact .fcs h1 h2
    · exact .raised e hs (by simp) (by simp) (.inr (by simp))
  | stuff =>
    obtain ⟨hs, rfl⟩ | ⟨hs, u, hu, rfl⟩ | ⟨hs, e, he, rfl⟩ := runBody_cases h
    · exact .ignored hs (by simp) (.inr (by simp))
    · obtain ⟨h1, h2, rfl⟩ := stuffBody_ok.mp hu
      exact .stuff h1 h2
    · exact .raised e hs (by simp) (by simp) (.inr (by simp))
  | frame =>
    obtain ⟨hs, rfl⟩ | ⟨hs, u, hu, rfl⟩ | ⟨hs, e, he, rfl⟩ := runBody_cases h
    · exact .ignored hs (by simp) (.inr (by simp))
    · obtain ⟨h1, h2, rfl⟩ := frameBody_ok.mp hu
      exact .frame h1 h2
    · exact .raised e hs (by simp) (by simp) (.inr (by simp))
  | nrzi =>
    obtain ⟨hs, rfl⟩ | ⟨hs, u, hu, rfl⟩ | ⟨hs, e, he, rfl⟩ := runBody_cases h
    · exact .ignored hs (by simp) (.inr (by simp))
    · obtain ⟨h1, rfl⟩ := nrziBody_ok.mp hu
      exact .nrzi h1
    · exact .raised e hs (by simp) (by simp) (.inr (by simp))
  | mod prof =>
    obtain ⟨t, ht, h⟩ | ⟨ht, hs, rfl⟩ | ⟨ht, hs, -, rfl⟩ | ⟨ht, hs, h⟩ := execMod_cases h
    · exact .emitting ⟨prof, .inl rfl⟩ ht h
    · exact .ignored hs (by simp) (.inl ht)
    · exact .raised _ hs (by simp) (by simp) (.inl ht)
    · exact .modStart ht hs h
  | run prof =>
    obtain ⟨t, ht, h⟩ | ⟨ht, hs, rfl⟩ | ⟨ht, hs, v, hv, rfl⟩ | ⟨ht, hs, v, hv, h⟩ := execRun_cases h
    · exact .emitting ⟨prof, .inr rfl⟩ ht h
    · exact .ignored hs (by simp) (.inl ht)
    · obtain ⟨-, rfl⟩ | ⟨-, -, rfl⟩ | ⟨h1, h2, h3, rfl⟩ | ⟨h1, h2, h3, h4, rfl⟩ := lineUp_error.mp hv
      · exact .raised _ hs (by simp) (by simp) (.inl ht)
      · exact .raised _ hs (by simp) (by simp) (.inl ht)
      · exact .runStuffFailed ht h1 h2 h3
      · exact .runFrameFailed ht h1 h2 h3 h4
    · obtain ⟨h1, h2, h3, rfl⟩ := lineUp_ok.mp hv
      exact .runStart ht h1 h2 h3 h

/-- No command faults or is refused: every turn of every command has a next state. -/
theorem exec_next (i : Instr) (s : State) : ∃ t, exec i s = .next t := by
  have body (i : Instr) (b : State → Except Err State) : ∃ t, runBody i b s = .next t := by
    unfold runBody; split
    · exact ⟨_, rfl⟩
    · split <;> exact ⟨_, rfl⟩
  cases i with
  | nop => exact ⟨_, rfl⟩
  | clear => exact ⟨_, rfl⟩
  | addr => exact body _ _
  | ctlpid => exact body _ _
  | info => exact body _ _
  | fcs => exact body _ _
  | stuff => exact body _ _
  | frame => exact body _ _
  | nrzi => exact body _ _
  | mod prof =>
    show ∃ t, execMod prof s = .next t
    unfold execMod
    repeat' split
    all_goals first | exact ⟨_, rfl⟩ | exact transmitStep_next _ _
  | run prof =>
    show ∃ t, execRun prof s = .next t
    unfold execRun
    repeat' split
    all_goals first | exact ⟨_, rfl⟩ | exact transmitStep_next _ _

end Sys2Proof.Machine
end

