-- ==== Sys2Proof/Laws/Step.lean ====
section
/-! SUPPORT. What one step can do, said once; the lemmas a step reaches the per-command lemmas through. -/

namespace Sys2Proof.Machine

theorem coreStep_idle {s : State} (h : s.pend = none) : coreStep s = .next s := by
  simp [coreStep, h]

theorem coreStep_legal {s : State} {p : Pending} {i : Instr} (h : s.pend = some p) (hd : decode p.word = .ok i) :
    coreStep s = exec i s := by
  simp [coreStep, h, runPending, hd]

theorem coreStep_illegal {s : State} {p : Pending} {r : Reject} (h : s.pend = some p)
    (hd : decode p.word = .error r) : coreStep s = runIllegal p.word s := by
  simp [coreStep, h, runPending, hd]

/-- Everything one turn of the core can do. -/
theorem coreStep_cases {s t : State} (h : coreStep s = .next t) :
    (s.pend = none ∧ t = s)
      ∨ (∃ p i, s.pend = some p ∧ decode p.word = .ok i ∧ Turn i s t)
      ∨ (∃ p r, s.pend = some p ∧ decode p.word = .error r
          ∧ ((s.stage = .error ∧ t = s.finish)
              ∨ (s.stage ≠ .error ∧ t = (s.raise .illegalCommand p.word).finish))) := by
  rcases hp : s.pend with _ | p
  · rw [coreStep_idle hp] at h
    cases h
    exact .inl ⟨rfl, rfl⟩
  · rcases hd : decode p.word with r | i
    · rw [coreStep_illegal hp hd] at h
      exact .inr (.inr ⟨p, r, rfl, hd, runIllegal_cases h⟩)
    · rw [coreStep_legal hp hd] at h
      exact .inr (.inl ⟨p, i, rfl, hd, exec_turn h⟩)

theorem busAccess_cases {addr n : Nat} {go : Reg → State} {c : Config} {t : State}
    (h : busAccess addr n go c = .next t) :
    ∃ off, windowOffset c addr = some off ∧ n = 4 ∧ off % 4 = 0 ∧ t = go (regAt c.cap off) := by
  unfold busAccess at h
  split at h
  · cases h
  · rename_i off ho
    split at h
    · rename_i hc
      cases h
      exact ⟨off, ho, hc.1, hc.2, rfl⟩
    · cases h

/-- Everything one event can do. -/
theorem deliver_cases {e : Event} {s t : State} (h : deliver e s = .next t) :
    (∃ r, t = s.readReg r) ∨ (∃ r v, t = s.writeReg r v) ∨ (e = .reset ∧ t = s.hwReset)
      ∨ (∃ p r, t = s.setReady p r) ∨ (e = .core ∧ coreStep s = .next t) := by
  cases e with
  | read a n =>
    simp only [deliver, busRead] at h
    obtain ⟨off, -, -, -, rfl⟩ := busAccess_cases h
    exact .inl ⟨_, rfl⟩
  | write a n v =>
    simp only [deliver, busWrite] at h
    obtain ⟨off, -, -, -, rfl⟩ := busAccess_cases h
    exact .inr (.inl ⟨_, v, rfl⟩)
  | reset => cases h; exact .inr (.inr (.inl ⟨rfl, rfl⟩))
  | sink p r => cases h; exact .inr (.inr (.inr (.inl ⟨p, r, rfl⟩)))
  | core => exact .inr (.inr (.inr (.inr ⟨rfl, h⟩)))

theorem step_quiet {s : State} (h : s.inbox = []) : step s = coreStep s := by
  simp [step, agentStep, h]

theorem step_event {s : State} {e : Event} {rest : List Event} (h : s.inbox = e :: rest) :
    step s = deliver e { s with inbox := rest } := by
  simp [step, agentStep, h]

/-- Everything a step can do: a turn of the core, or one action of the environment, on the state with that event taken off the
schedule. -/
theorem step_cases {s t : State} (h : step s = .next t) :
    (∃ rest, (s.inbox = [] ∧ rest = [] ∨ s.inbox = .core :: rest) ∧ coreStep { s with inbox := rest } = .next t)
      ∨ (∃ rest, s.inbox = .reset :: rest ∧ t = State.hwReset { s with inbox := rest })
      ∨ (∃ rest, (∃ r, t = State.readReg r { s with inbox := rest })
          ∨ (∃ r v, t = State.writeReg r v { s with inbox := rest })
          ∨ (∃ p r, t = State.setReady p r { s with inbox := rest })) := by
  rcases hi : s.inbox with _ | ⟨e, rest⟩
  · rw [step_quiet hi] at h
    refine .inl ⟨[], .inl ⟨rfl, rfl⟩, ?_⟩
    have : ({ s with inbox := [] } : State) = s := by cases s; simp_all
    rw [this]; exact h
  · rw [step_event hi] at h
    obtain hr | hw | ⟨rfl, rfl⟩ | hp | ⟨rfl, hc⟩ := deliver_cases h
    · exact .inr (.inr ⟨rest, .inl hr⟩)
    · exact .inr (.inr ⟨rest, .inr (.inl hw)⟩)
    · exact .inr (.inl ⟨rest, rfl, rfl⟩)
    · exact .inr (.inr ⟨rest, .inr (.inr hp)⟩)
    · exact .inl ⟨rest, .inr rfl, hc⟩

end Sys2Proof.Machine
end

