-- ==== Sys2Proof/Laws/HostProgram.lean ====
section
/-! SUPPORT. Host programs: how they compose, that a WAIT goes on only once BUSY has read 0, and that watching a
program longer never changes how it ends. -/

namespace Sys2Proof.Machine

@[simp] theorem hostThen_next (s : State) (f : State → HostResult) : hostThen (.ended (.next s)) f = f s := rfl

@[simp] theorem hostThen_waiting (s : State) (f : State → HostResult) : hostThen (.waiting s) f = .waiting s := rfl

theorem hostThen_assoc (r : HostResult) (f g : State → HostResult) :
    hostThen (hostThen r f) g = hostThen r fun s => hostThen (f s) g := by
  rcases r with (_ | _ | _) | _ <;> rfl

/-- The inversion of `hostThen` on an end. -/
theorem hostThen_ended {r : HostResult} {f : State → HostResult} {o : Host.Outcome State Fault Refusal}
    (h : hostThen r f = .ended o) :
    (∃ s, r = .ended (.next s) ∧ f s = .ended o) ∨ ((∀ s, o ≠ .next s) ∧ r = .ended o) := by
  rcases r with (s | e | e) | s
  · exact .inl ⟨s, rfl, h⟩
  all_goals
    simp only [hostThen, HostResult.ended.injEq, reduceCtorEq] at h
    try subst h
    try simp

/-- If each part ends the same way when watched longer, so does the whole. -/
theorem hostThen_mono {r r' : HostResult} {f f' : State → HostResult} {o : Host.Outcome State Fault Refusal}
    (hr : ∀ o, r = .ended o → r' = .ended o) (hf : ∀ s o, f s = .ended o → f' s = .ended o)
    (h : hostThen r f = .ended o) : hostThen r' f' = .ended o := by
  obtain ⟨s, h1, h2⟩ | ⟨hn, h1⟩ := hostThen_ended h
  · rw [hr _ h1]; exact hf s o h2
  · rw [hr _ h1]
    cases o with
    | next s => exact absurd rfl (hn s)
    | fault e => rfl
    | refused e => rfl

/-- A program followed by another. -/
theorem runProgram_append (polls : Nat) (a b : List HostLine) (s : State) :
    runProgram polls (a ++ b) s = hostThen (runProgram polls a s) (runProgram polls b) := by
  induction a generalizing s with
  | nil => rfl
  | cons l ls ih =>
    simp only [List.cons_append, runProgram, hostThen_assoc]
    congr 1; funext t; exact ih t

/-- What reading STATUS on the bus gives: its bit 0 is BUSY, and nothing of the core changes (20_memory.md R58, R59). -/
theorem rd_status (s : State) :
    ∃ u, rd .status s = .next u ∧ u.rdata.getLsbD 0 = s.busy ∧ u.pend = s.pend := by
  refine ⟨s.readReg .status, ?_, ?_⟩
  · simp [rd, busRead, busAccess, windowOffset, Reg.offset, regAt]
  · unfold State.readReg
    split
    · rename_i h
      simp only [Bool.and_eq_true] at h
      simp [drawnValue, h.1]
    · refine ⟨?_, rfl⟩
      show s.status.getLsbD 0 = s.busy
      unfold State.status
      rw [BitVec.getLsbD_append]
      cases s.busy <;> rfl

/-- A WAIT goes on only in a state with nothing pending, bit 0 of its last read being 0 (30_encoding.md R76). -/
theorem waitIdle_idle {polls : Nat} {s t : State} (h : waitIdle polls s = .ended (.next t)) :
    t.pend = none ∧ t.rdata.getLsbD 0 = false := by
  induction polls generalizing s with
  | zero => cases h
  | succ n ih =>
    obtain ⟨u, -, h⟩ | ⟨hn, -⟩ := hostThen_ended h
    swap
    · exact absurd rfl (hn t)
    obtain ⟨v, hr, hb, hp⟩ := rd_status u
    rw [hr, hostThen_next] at h
    split at h
    · exact ih h
    · rename_i hv
      cases h
      rw [hb, State.busy, Bool.not_eq_true] at hv
      refine ⟨?_, by rw [hb, State.busy, hv]⟩
      rw [hp]
      cases hq : u.pend with
      | none => rfl
      | some q => rw [hq] at hv; cases hv

/-- Watching a WAIT longer does not change how it ends. -/
theorem waitIdle_mono {n k : Nat} {s : State} {o : Host.Outcome State Fault Refusal} (hk : n ≤ k)
    (h : waitIdle n s = .ended o) : waitIdle k s = .ended o := by
  induction n generalizing s k o with
  | zero => cases h
  | succ n ih =>
    obtain ⟨j, rfl⟩ : ∃ j, k = j + 1 := ⟨k - 1, by omega⟩
    have hj : n ≤ j := by omega
    refine hostThen_mono (fun _ => id) (fun t o => hostThen_mono (fun _ => id) fun u o hu => ?_) h
    split at hu
    · rename_i hb
      simp only [hb, if_true]
      exact ih hj hu
    · rename_i hb
      rw [if_neg hb]
      exact hu

theorem perform_mono {n k : Nat} {l : HostLine} {s : State} {o : Host.Outcome State Fault Refusal} (hk : n ≤ k)
    (h : l.perform n s = .ended o) : l.perform k s = .ended o := by
  cases l with
  | wr r v => exact h
  | rd r => exact h
  | wait => exact waitIdle_mono hk h
  | command i => exact hostThen_mono (fun _ => id) (fun _ _ => waitIdle_mono hk) h
  | setCall chars => exact h

/-- Watching a program longer does not change how it ends: `Runs` has one end state. -/
theorem runProgram_mono {n k : Nat} {ls : List HostLine} {s : State} {o : Host.Outcome State Fault Refusal}
    (hk : n ≤ k) (h : runProgram n ls s = .ended o) : runProgram k ls s = .ended o := by
  induction ls generalizing s o with
  | nil => exact h
  | cons l ls ih => exact hostThen_mono (fun _ => perform_mono hk) (fun _ _ => ih) h

theorem Runs.unique {ls : List HostLine} {s t u : State} (h : Runs ls s t) (h' : Runs ls s u) : t = u := by
  obtain ⟨n, hn⟩ := h
  obtain ⟨k, hk⟩ := h'
  have h1 := runProgram_mono (Nat.le_max_left n k) hn
  have h2 := runProgram_mono (Nat.le_max_right n k) hk
  rw [h1] at h2
  cases h2; rfl

end Sys2Proof.Machine
end

