-- ==== Sys2Proof/Laws/Memory.lean ====
section
/-! SUPPORT. Every operation on the memory keeps its form, LEN <= CAP (10_state.md R22). -/

namespace Sys2Proof.Machine

theorem Memory.wf_iff {cap : Nat} {m : Memory} : Memory.wf cap m = true ↔ m.length ≤ cap := by
  simp [Memory.wf]

theorem resetOf_keeps_wf (c : Config) : Memory.wf c.cap (State.resetOf c).bitbuf = true := by
  simp [Memory.wf_iff, State.resetOf]

theorem reset_wf : Memory.wf State.reset.cfg.cap State.reset.bitbuf = true := resetOf_keeps_wf _

theorem setSeq_keeps_wf {t : BitSeq} {s u : State} (h : s.setSeq t = .ok u) :
    Memory.wf u.cfg.cap u.bitbuf = true := by
  obtain ⟨hl, rfl⟩ := setSeq_ok.mp h
  exact Memory.wf_iff.mpr hl

theorem append_keeps_wf {b : BitSeq} {s u : State} (h : s.append b = .ok u) :
    Memory.wf u.cfg.cap u.bitbuf = true := setSeq_keeps_wf h

theorem clearFrame_keeps_wf (s : State) : Memory.wf s.clearFrame.cfg.cap s.clearFrame.bitbuf = true := by
  simp [Memory.wf_iff]

theorem hwReset_keeps_wf (s : State) : Memory.wf s.hwReset.cfg.cap s.hwReset.bitbuf = true := by
  simp [Memory.wf_iff]

theorem nrziBody_keeps_wf {s u : State} (hw : Memory.wf s.cfg.cap s.bitbuf = true) (h : nrziBody s = .ok u) :
    Memory.wf u.cfg.cap u.bitbuf = true := by
  obtain ⟨-, rfl⟩ := nrziBody_ok.mp h
  simpa [Memory.wf_iff] using hw

theorem commit_keeps_wf {s : State} {t : Transmit} (h : t.bits.length ≤ s.cfg.cap) :
    Memory.wf (s.commit t).cfg.cap (s.commit t).bitbuf = true := by
  simpa [Memory.wf_iff] using h

end Sys2Proof.Machine
end

