-- ==== Sys2Proof/Laws/PerInstr.lean ====
section
/-! SUPPORT. Facts about every command, one lemma a constructor: its word lies in its row of spec/opcode_table.json. -/

namespace Sys2Proof.Laws.TableRow

/-- The row's match, with its mask (spec/opcode_table.json; 30_encoding.md R71, R72). -/
def row : Instr → Word × Word
  | .nop => (0x00000000#32, 0xFFFFFFFF#32)
  | .clear => (0x01000000#32, 0xFFFFFFFF#32)
  | .addr _ _ _ => (0x10000000#32, 0xFFFFF8E0#32)
  | .ctlpid => (0x11000000#32, 0xFFFFFFFF#32)
  | .info _ => (0x12000000#32, 0xFFFFFF00#32)
  | .fcs => (0x20000000#32, 0xFFFFFFFF#32)
  | .stuff => (0x30000000#32, 0xFFFFFFFF#32)
  | .frame => (0x40000000#32, 0xFFFFFFFF#32)
  | .nrzi => (0x50000000#32, 0xFFFFFFFF#32)
  | .mod _ => (0x60000000#32, 0xFFFFFFFC#32)
  | .run _ => (0x70000000#32, 0xFFFFFFFC#32)

/-- The word of the command has the row's fixed bits, and its OPCODE in bits 31:24. -/
def Statement (i : Instr) : Prop := encode i &&& (row i).2 = (row i).1 ∧ opcodeOf (encode i) = i.opcode

theorem nop : Statement .nop := by unfold Statement; decide
theorem clear : Statement .clear := by unfold Statement; decide
theorem addr (clen : Nat) (last : Bool) (ssid : Nat) : Statement (.addr clen last ssid) := by
  simp only [Statement, encode, Instr.operandField, Instr.opcode, row, opcodeOf]
  generalize BitVec.ofNat 3 clen = c
  generalize BitVec.ofNat 4 ssid = d
  revert c d
  cases last <;> decide +kernel
theorem ctlpid : Statement .ctlpid := by unfold Statement; decide
theorem info (byte : Byte) : Statement (.info byte) := by
  simp only [Statement, encode, Instr.operandField, Instr.opcode, row, opcodeOf]
  revert byte
  decide +kernel
theorem fcs : Statement .fcs := by unfold Statement; decide
theorem stuff : Statement .stuff := by unfold Statement; decide
theorem frame : Statement .frame := by unfold Statement; decide
theorem nrzi : Statement .nrzi := by unfold Statement; decide
theorem mod (prof : Profile) : Statement (.mod prof) := by cases prof <;> (unfold Statement; decide)
theorem run (prof : Profile) : Statement (.run prof) := by cases prof <;> (unfold Statement; decide)

end Sys2Proof.Laws.TableRow
end

