-- ==== Sys2Proof/Laws/Reset.lean ====
section
/-! SUPPORT. What an emission delivers while its command is pending, and a hardware reset during it
(70_reset_and_hazards.md R265, assumption 10). -/

namespace Sys2Proof.Machine

/-- What the segment port delivers as a record is accepted: at most that record, and never a last one. -/
theorem Transmit.segNow_cases (t : Transmit) :
    t.segNow = [] ∨ (t.segNow = [t.segRecord] ∧ t.segRecord.last = false) := by
  unfold Transmit.segNow; split <;> simp_all

theorem Transmit.smpNow_cases (fs : Nat) (t : Transmit) :
    t.smpNow fs = [] ∨ (t.smpNow fs = [t.smpRecord fs] ∧ (t.smpRecord fs).last = false) := by
  unfold Transmit.smpNow; split <;> simp_all

/-- The next segment record is the next of the command's records (44_afsk.md R184). -/
theorem getElem_segRecords {t : Transmit} (h : t.seg < (segRecords t.prof t.bits).length) :
    (segRecords t.prof t.bits)[t.seg] = t.segRecord := by
  simp [segRecords, Transmit.segRecord]

/-- The next sample is the next of the command's samples, when P is P_n (44_afsk.md R194). -/
theorem getElem_smpRecords {fs : Nat} {t : Transmit} (hp : t.phase = phaseAt fs t.prof t.bits t.smp)
    (h : t.smp < (smpRecords fs t.prof t.bits).length) :
    (smpRecords fs t.prof t.bits)[t.smp] = t.smpRecord fs := by
  simp [smpRecords, Transmit.smpRecord, hp]

/-- Accepting a segment record extends the delivered prefix by what is delivered now, and holds the record if it is the last. -/
theorem segSent_delivers {t : Transmit} (h : t.seg < t.bits.length) :
    openPrefix (segRecords t.prof t.bits) (t.seg + 1) = openPrefix (segRecords t.prof t.bits) t.seg ++ t.segNow
      ∧ closing (segRecords t.prof t.bits) (t.seg + 1) =
        if t.segRecord.last then some t.segRecord else none := by
  have hl : t.seg < (segRecords t.prof t.bits).length := by simpa using h
  rw [openPrefix_succ hl, closing_succ hl, getElem_segRecords hl]
  simp [Transmit.segNow, Transmit.segRecord]

/-- The same for a sample. -/
theorem smpSent_delivers {fs : Nat} {t : Transmit} (hp : t.phase = phaseAt fs t.prof t.bits t.smp)
    (h : t.smp < numSamples fs t.prof t.bits.length) :
    openPrefix (smpRecords fs t.prof t.bits) (t.smp + 1) =
        openPrefix (smpRecords fs t.prof t.bits) t.smp ++ t.smpNow fs
      ∧ closing (smpRecords fs t.prof t.bits) (t.smp + 1) =
        if (t.smpRecord fs).last then some (t.smpRecord fs) else none := by
  have hl : t.smp < (smpRecords fs t.prof t.bits).length := by simpa using h
  rw [openPrefix_succ hl, closing_succ hl, getElem_smpRecords hp hl]
  simp [Transmit.smpNow, Transmit.smpRecord]

/-- A reset during an emission on course: the command is gone, and what each port holds of it has no last record, whatever the
sink had accepted. -/
theorem reset_leaves_no_last {s : State} {t : Transmit} {rest : List Event} (hc : EmissionOnCourse s)
    (ht : s.tx = some t) (hi : s.inbox = .reset :: rest) :
    ∃ u segBefore smpBefore, step s = .next u ∧ u.pend = none ∧ u.tx = none
      ∧ u.segOut = segBefore ++ openPrefix (segRecords t.prof t.bits) t.seg
      ∧ u.smpOut = smpBefore ++ openPrefix (smpRecords s.cfg.fs t.prof t.bits) t.smp
      ∧ (∀ r ∈ openPrefix (segRecords t.prof t.bits) t.seg, r.last = false)
      ∧ ∀ r ∈ openPrefix (smpRecords s.cfg.fs t.prof t.bits) t.smp, r.last = false := by
  obtain ⟨segBefore, hs⟩ := hc.segments t ht
  obtain ⟨smpBefore, hm⟩ := hc.samples t ht
  exact ⟨_, segBefore, smpBefore, step_event hi, rfl, rfl, hs, hm, segRecords_openPrefix_not_last,
    smpRecords_openPrefix_not_last⟩

end Sys2Proof.Machine
end

