-- ==== Sys2Proof/Machine/Asm.lean ====
section
/-! DEFINITION. The assembler syntax of commands (30_encoding.md R75): one command per line, mnemonic first, operands
separated by commas, numbers in decimal or 0x hex. -/

namespace Sys2Proof.Machine

/-- The value of a decimal digit. -/
def decimalDigit (c : Char) : Option Nat :=
  if 48 ≤ c.toNat ∧ c.toNat ≤ 57 then some (c.toNat - 48) else none

/-- The value of a hexadecimal digit, in either case. -/
def hexDigit (c : Char) : Option Nat :=
  if 48 ≤ c.toNat ∧ c.toNat ≤ 57 then some (c.toNat - 48)
  else if 65 ≤ c.toNat ∧ c.toNat ≤ 70 then some (c.toNat - 55)
  else if 97 ≤ c.toNat ∧ c.toNat ≤ 102 then some (c.toNat - 87)
  else none

/-- Digits read on from the value so far. -/
def readDigits (radix : Nat) (digit : Char → Option Nat) : Nat → List Char → Option Nat
  | n, [] => some n
  | n, c :: cs =>
    match digit c with
    | some d => readDigits radix digit (n * radix + d) cs
    | none => none

/-- A number in decimal or 0x hex (30_encoding.md R75); at least one digit. -/
def readNumber (cs : List Char) : Option Nat :=
  match cs with
  | [] => none
  | '0' :: 'x' :: [] => none
  | '0' :: 'x' :: d :: ds => readDigits 16 hexDigit 0 (d :: ds)
  | d :: ds => readDigits 10 decimalDigit 0 (d :: ds)

/-- A profile, by number 0 to 3 or by name (30_encoding.md R75). -/
def readProfile (cs : List Char) : Option Profile :=
  if cs = ['P', '3', '0', '0'] then some .p300
  else if cs = ['P', '6', '0', '0'] then some .p600
  else if cs = ['P', '1', '2', '0', '0'] then some .p1200
  else if cs = ['P', '2', '4', '0', '0'] then some .p2400
  else
    match readNumber cs with
    | some n => if n < 4 then some (Profile.ofCode (BitVec.ofNat 2 n)) else none
    | none => none

/-- Drop the spaces at both ends. -/
def trimSpaces (cs : List Char) : List Char :=
  ((cs.dropWhile (· == ' ')).reverse.dropWhile (· == ' ')).reverse

/-- A line without its comment. DESIGN CHOICE (assumption 12): R75 names no comments, and programs P2, P4 and P5 of
95_test_vectors.md, said to be in its syntax, have them; a `;` that stands in no quoted text begins one. -/
def dropComment (quoted : Bool) : List Char → List Char
  | [] => []
  | c :: cs =>
    if c = ';' ∧ quoted = false then []
    else c :: dropComment (if c = '"' then !quoted else quoted) cs

/-- The operands between commas, the pieces read so far being `acc` reversed. -/
def splitCommas (acc : List Char) : List Char → List (List Char)
  | [] => [trimSpaces acc.reverse]
  | c :: cs => if c = ',' then trimSpaces acc.reverse :: splitCommas [] cs else splitCommas (c :: acc) cs

/-- The command a mnemonic and its operands name. Operands outside their fields name none (assumption 12). -/
def assembleParts (mnemonic : List Char) (operands : List (List Char)) : Option Instr :=
  match operands with
  | [] =>
    if mnemonic = ['N', 'O', 'P'] then some .nop
    else if mnemonic = ['C', 'L', 'E', 'A', 'R'] then some .clear
    else if mnemonic = ['C', 'T', 'L', 'P', 'I', 'D'] then some .ctlpid
    else if mnemonic = ['F', 'C', 'S'] then some .fcs
    else if mnemonic = ['S', 'T', 'U', 'F', 'F'] then some .stuff
    else if mnemonic = ['F', 'R', 'A', 'M', 'E'] then some .frame
    else if mnemonic = ['N', 'R', 'Z', 'I'] then some .nrzi
    else none
  | [x] =>
    if mnemonic = ['I', 'N', 'F', 'O'] then
      match readNumber x with
      | some b => if b < 256 then some (.info (BitVec.ofNat 8 b)) else none
      | none => none
    else if mnemonic = ['M', 'O', 'D'] then (readProfile x).map Instr.mod
    else if mnemonic = ['R', 'U', 'N'] then (readProfile x).map Instr.run
    else none
  | [x, y, z] =>
    if mnemonic = ['A', 'D', 'D', 'R'] then
      match readNumber x, readNumber y, readNumber z with
      | some clen, some ssid, some last =>
        if clen < 8 ∧ ssid < 16 ∧ last < 2 then some (.addr clen (last == 1) ssid) else none
      | _, _, _ => none
    else none
  | _ => none

/-- The word of a line of assembler (30_encoding.md R75), its comment dropped (DESIGN CHOICE: assumption 12). -/
def assemble (line : List Char) : Option Word :=
  let text := trimSpaces (dropComment false line)
  let rest := trimSpaces (text.dropWhile (· != ' '))
  let operands := if rest = [] then [] else splitCommas [] rest
  (assembleParts (text.takeWhile (· != ' ')) operands).map encode

end Sys2Proof.Machine
end

