-- ==== Sys2Proof/Machine/HostText.lean ====
section
/-! DEFINITION. Host programs as text: bus operations, pseudo-instructions and bare commands (30_encoding.md R75, R76). -/

namespace Sys2Proof.Machine

/-- A register by its name in the register map (20_memory.md R52), BUFWIN with its index in square brackets. DESIGN CHOICE: an
index at or above CAP / 32 names no register (R53), so the line is not read (assumption 12). -/
def readRegister (cap : Nat) (cs : List Char) : Option Reg :=
  if cs = ['C', 'M', 'D'] then some .cmd
  else if cs = ['S', 'T', 'A', 'T', 'U', 'S'] then some .status
  else if cs = ['L', 'E', 'N'] then some .len
  else if cs = ['I', 'N', 'F', 'O', 'C', 'N', 'T'] then some .infocnt
  else if cs = ['E', 'R', 'R', 'C', 'M', 'D'] then some .errcmd
  else if cs = ['F', 'C', 'S'] then some .fcs
  else if cs = ['C', 'A', 'L', 'L', '_', 'L', 'O'] then some .callLo
  else if cs = ['C', 'A', 'L', 'L', '_', 'H', 'I'] then some .callHi
  else if cs = ['C', 'O', 'N', 'F', 'I', 'G'] then some .config
  else if cs.take 7 = ['B', 'U', 'F', 'W', 'I', 'N', '['] ∧ cs.getLast? = some ']' then
    match readNumber (cs.drop 7).dropLast with
    | some k => if k < cap / 32 then some (.bufwin k) else none
    | none => none
  else none

/-- The bytes of a text: UTF-8 (40_address_frame.md R107). DESIGN CHOICE: in a callsign, where R76 has one byte a character, each
of these bytes counts as one character (assumption 12). -/
def textBytes (cs : List Char) : List Byte :=
  cs.flatMap fun c => (String.utf8EncodeChar c).map fun b => b.toBitVec

/-- A quoted text at the start of a list of characters, with what follows it. -/
def readQuoted (cs : List Char) : Option (List Byte × List Char) :=
  match cs with
  | '"' :: rest =>
    match rest.dropWhile (· != '"') with
    | [] => none
    | _ :: after => some (textBytes (rest.takeWhile (· != '"')), trimSpaces after)
  | _ => none

/-- `ADDRESS "s", ssid, last` (30_encoding.md R76), its operands read. -/
def readAddress (cs : List Char) : Option (List HostLine) :=
  match readQuoted cs with
  | some (call, ',' :: rest) =>
    match splitCommas [] rest with
    | [x, y] =>
      match readNumber x, readNumber y with
      | some ssid, some last =>
        if call.length ≤ 6 ∧ ssid < 16 ∧ last < 2 then
          some (addressLines { call := call, ssid := ssid } (last == 1))
        else none
      | _, _ => none
    | _ => none
  | _ => none

/-- `WR reg, value` (30_encoding.md R75), its operands read. -/
def readWrite (cap : Nat) (operands : List (List Char)) : Option (List HostLine) :=
  match operands with
  | [x, y] =>
    match readRegister cap x, readNumber y with
    | some r, some v => if v < 2 ^ 32 then some [.wr r (BitVec.ofNat 32 v)] else none
    | _, _ => none
  | _ => none

/-- The lines one line of a host program's text stands for on an instance of capacity `cap`, `ADDRESS` and `INFOS` expanded
(30_encoding.md R75, R76). DESIGN CHOICE (assumption 12): a comment from `;` on is dropped, which R75 does not name and programs
P2, P4 and P5 of 95_test_vectors.md have; a line with nothing else stands for no line. -/
def readHostLine (cap : Nat) (line : List Char) : Option (List HostLine) :=
  let text := trimSpaces (dropComment false line)
  let word := text.takeWhile (· != ' ')
  let rest := trimSpaces (text.dropWhile (· != ' '))
  if text = [] then some []
  else if word = ['W', 'A', 'I', 'T'] then (if rest = [] then some [.wait] else none)
  else if word = ['R', 'D'] then (readRegister cap rest).map fun r => [.rd r]
  else if word = ['W', 'R'] then readWrite cap (splitCommas [] rest)
  else if word = ['S', 'E', 'T', 'C', 'A', 'L', 'L'] then
    match readQuoted rest with
    | some (call, []) => if call.length ≤ 6 then some [.setCall call] else none
    | _ => none
  else if word = ['A', 'D', 'D', 'R', 'E', 'S', 'S'] then readAddress rest
  else if word = ['I', 'N', 'F', 'O', 'S'] then
    match readQuoted rest with
    | some (t, []) => some (infoLines t)
    | _ => none
  else
    (assembleParts word (if rest = [] then [] else splitCommas [] rest)).map fun i => [.command i]

end Sys2Proof.Machine
end

