-- ==== Sys2Proof/Tests/Slice0.lean ====
section
/-! SUPPORT. The model's own tests: expected results are the spec's (95_test_vectors.md and the rules named), and the
named witnesses of the statements' hypotheses. -/

-- The theorems are checked one after another: side by side they take a thread each, and the check's stack size times
-- their number passes its memory limit.
set_option Elab.async false

namespace Sys2Proof.Machine

/-! ## Helpers -/

/-- The next state of an outcome, if it is one. -/
def nextState : Host.Outcome State Fault Refusal → Option State
  | .next s => some s
  | .fault _ => none
  | .refused _ => none

/-- A small instance: CAP = 160 as in program P5, NRZI_INIT = 0. -/
def smallConfig : Config := { cap := 160, nrziInit := false, fs := 2400, base := 0x4000 }

/-- Word `w` pending in stage `st`, with "BG7ZDQ" in the snapshot, over these bits. -/
def holding (w : Word) (st : Stage) (bits : BitSeq) : State :=
  { State.resetOf smallConfig with
    pend := some { word := w, callLo := 0x5A374742#32, callHi := 0x5144#16 }, stage := st, bitbuf := bits }

/-- `holding`, two addresses given. -/
def holding2 (w : Word) (st : Stage) (bits : BitSeq) : State := { holding w st bits with addrcnt := 2#4 }

/-- Word `w` pending in the error state that FCS left in S_CTL (program P3, line 3). -/
def failed (w : Word) : State :=
  { holding2 w .error [] with err := some .sequence, errcmd := 0x20000000#32, errstg := .ctl }

/-- The word held by `holding`. -/
def held (w : Word) : Pending := { word := w, callLo := 0x5A374742#32, callHi := 0x5144#16 }

/-- An emission of one bit (one sample at FS = 2400): `seg` segment records and `smp` samples accepted. -/
def oneBit (seg smp : Nat) : Transmit :=
  { prof := .p2400, bits := [true], fcs := 0#16, seg := seg, smp := smp
    phase := phaseAt smallConfig.fs .p2400 [true] smp, segLast := closing (segRecords .p2400 [true]) seg
    smpLast := closing (smpRecords smallConfig.fs .p2400 [true]) smp }

/-- The MOD that emits it. -/
def emitting (seg smp : Nat) : State := { holding2 0x60000003#32 .line [true] with tx := some (oneBit seg smp) }

/-- A MOD of two bits, before its first turn. -/
def twoBits : State := holding2 0x60000003#32 .line [true, false]

/-! ## Well-formed terms -/

theorem test_wellFormed_refuses_clen : WellFormed (.addr 8 false 0) = false := by decide

theorem test_wellFormed_refuses_ssid : WellFormed (.addr 6 false 16) = false := by decide

theorem test_wellFormed_takes_field_limits : WellFormed (.addr 7 true 15) = true := by decide

/-! ## Decoding: words laid out field by field from R70 to R72 -/

theorem test_decode_nop : decode (0x00#8 ++ 0#24) = .ok .nop := rfl

theorem test_decode_clear : decode (0x01#8 ++ 0#24) = .ok .clear := rfl

theorem test_decode_addr : decode (0x10#8 ++ 0#13 ++ 5#3 ++ 0#3 ++ 1#1 ++ 9#4) = .ok (.addr 5 true 9) := rfl

theorem test_decode_ctlpid : decode (0x11#8 ++ 0#24) = .ok .ctlpid := rfl

theorem test_decode_info : decode (0x12#8 ++ 0#16 ++ 0x54#8) = .ok (.info 0x54#8) := rfl

theorem test_decode_fcs : decode (0x20#8 ++ 0#24) = .ok .fcs := rfl

theorem test_decode_stuff : decode (0x30#8 ++ 0#24) = .ok .stuff := rfl

theorem test_decode_frame : decode (0x40#8 ++ 0#24) = .ok .frame := rfl

theorem test_decode_nrzi : decode (0x50#8 ++ 0#24) = .ok .nrzi := rfl

theorem test_decode_mod : decode (0x60#8 ++ 0#22 ++ 2#2) = .ok (.mod .p1200) := rfl

theorem test_decode_run : decode (0x70#8 ++ 0#22 ++ 1#2) = .ok (.run .p600) := rfl

/-- 95_test_vectors.md, section 2.10. -/
theorem test_decode_reserved :
    decode 0x00000001#32 = .error .reservedBits ∧ decode 0x10000800#32 = .error .reservedBits
      ∧ decode 0x120001FF#32 = .error .reservedBits ∧ decode 0xFF000000#32 = .error .unusedOpcode :=
  ⟨rfl, rfl, rfl, rfl⟩

theorem test_decodeTableWord : decodeTableWord 32 0x1000061F = some (.addr 6 true 15) := rfl

/-! ## The commands -/

/-- R210: only BUSY falls. -/
theorem test_nop : (nextState (step (failed 0x00000000#32))).map State.status = some 0x124F0#32 := by decide +kernel

/-- VR2. -/
theorem test_clear :
    (nextState (step (failed 0x01000000#32))).map (fun t => (t.status, t.len, t.errcmd)) =
      some (0x00000#32, 0, 0#32) := by decide +kernel

/-- VA1: LEN, STATUS and the window after the Destination "BG7ZDQ"-0. -/
theorem test_addr_destination :
    (nextState (step (holding 0x10000600#32 .addr []))).map
        (fun t => (t.len, t.status, windowWord t.bitbuf 0, windowWord t.bitbuf 1)) =
      some (56, 0x01000#32, 0xB46E8E84#32, 0x00E0A288#32) := by decide +kernel

/-- VE1: CLEN = 7. -/
theorem test_addr_clen7 :
    (nextState (step (holding 0x10000700#32 .addr []))).map (fun t => (t.status, t.len, t.errcmd)) =
      some (0x001F0#32, 0, 0x10000700#32) := by decide +kernel

/-- VC1. -/
theorem test_ctlpid :
    (nextState (step (holding2 0x11000000#32 .ctl []))).map (fun t => (t.bitbuf, t.status)) =
      some ([true, true, false, false, false, false, false, false,
             false, false, false, false, true, true, true, true], 0x02020#32) := by decide +kernel

/-- VC8: CTLPID again. -/
theorem test_ctlpid_again :
    (nextState (step (holding2 0x11000000#32 .info []))).map State.status = some 0x224F0#32 := by decide +kernel

/-- VC2. -/
theorem test_info :
    (nextState (step (holding2 0x12000054#32 .info []))).map (fun t => (t.bitbuf, t.infocnt)) =
      some ([false, false, true, false, true, false, true, false], 1#32) := by decide +kernel

/-- VC10's overflow, at CAP = 160. -/
theorem test_info_overflow :
    (nextState (step (holding2 0x12000054#32 .info (List.replicate 153 false)))).map
        (fun t => (t.status, t.len, t.infocnt)) = some (0x223F0#32, 153, 0#32) := by decide +kernel

/-- W2: the FCS of 03 F0 41. -/
theorem test_fcs :
    (nextState (step (holding2 0x20000000#32 .info (bytes [0x03#8, 0xF0#8, 0x41#8])))).map
        (fun t => (t.fcsreg, t.bitbuf.drop 24)) =
      some (0x062D#16, [true, false, true, true, false, true, false, false,
                        false, true, true, false, false, false, false, false]) := by decide +kernel

/-- VS8: ten 1s. -/
theorem test_stuff :
    (nextState (step (holding2 0x30000000#32 .fcs (List.replicate 10 true)))).map (fun t => (t.bitbuf, t.status)) =
      some ([true, true, true, true, true, false, true, true, true, true, true, false], 0x02040#32) := by
  decide +kernel

/-- R235: STUFF checks before any change. -/
theorem test_stuff_overflow :
    (nextState (step (holding2 0x30000000#32 .fcs (List.replicate 160 true)))).map (fun t => (t.status, t.len)) =
      some (0x323F0#32, 160) := by decide +kernel

/-- R154: the flags of a two-bit body. -/
theorem test_frame :
    (nextState (step (holding2 0x40000000#32 .stuffed [true, false]))).map (fun t => (t.bitbuf, t.status)) =
      some ([false, true, true, true, true, true, true, false, true, false,
             false, true, true, true, true, true, true, false], 0x02050#32) := by decide +kernel

/-- 95_test_vectors.md, section 2.6: FLAG. -/
theorem test_nrzi :
    (nextState (step (holding2 0x50000000#32 .framed [false, true, true, true, true, true, true, false]))).map
        (fun t => (t.bitbuf, t.status)) =
      some ([true, true, true, true, true, true, true, false], 0x02060#32) := by decide +kernel

/-- R184, R186: the first record, and both ports' last at the completion. -/
theorem test_mod_records :
    (nextState (step twoBits)).map (fun t => (t.segOut, t.busy)) =
        some ([{ tone := true, prof := .p2400, last := false }], true)
      ∧ (nextState (step (emitting 1 1))).map (fun t => (t.segOut, t.smpOut.map Smp.last, t.busy)) =
        some ([{ tone := true, prof := .p2400, last := true }], [true], false) := by decide +kernel

/-- R265: a reset after the segment port's `last` was accepted, the sample port's not, leaves no `last` delivered. -/
theorem test_reset_leaves_no_last :
    (nextState (step (emitting 0 0))).map (fun t => (t.tx.map Transmit.seg, t.segOut, t.busy)) =
        some (some 1, [], true)
      ∧ (nextState (step { emitting 1 0 with inbox := [.reset] })).map (fun t => (t.segOut, t.smpOut, t.busy)) =
        some ([], [], false) := by decide +kernel

/-- 95_test_vectors.md, section 2.7: a second MOD. -/
theorem test_mod_again :
    (nextState (step (holding2 0x60000002#32 .done [true]))).map (fun t => (t.status, t.errcmd, t.segOut)) =
      some (0x724F0#32, 0x60000002#32, []) := by decide +kernel

/-- VR6. -/
theorem test_run_in_addr :
    (nextState (step (holding 0x70000002#32 .addr []))).map State.status = some 0x004F0#32 := by decide +kernel

/-- VR5, program P5: RUN fails in its STUFF step, and the FCS step's effect stays. -/
theorem test_run_overflow :
    (nextState (step (holding2 0x70000002#32 .info (bytes
        [0x84#8, 0x8E#8, 0x6E#8, 0xB4#8, 0x88#8, 0xA2#8, 0xE0#8, 0x84#8, 0x92#8, 0x68#8, 0xA0#8, 0xB2#8, 0x9A#8,
         0x63#8, 0x03#8, 0xF0#8, 0xFF#8, 0xFF#8])))).map
        (fun t => (t.status, t.len, t.fcsreg, t.errcmd, windowWord t.bitbuf 4)) =
      some (0x323F0#32, 160, 0x6BD7#16, 0x70000002#32, 0x6BD7FFFF#32) := by decide +kernel

/-- 95_test_vectors.md, section 2.10: an illegal word, from reset, as the host runs it. -/
theorem test_illegal_from_reset :
    (nextState (step (State.reset.withFetchWord 32 1))).map (fun t => (t.status, t.errcmd)) =
      some (0x005F0#32, 0x00000001#32) := by decide +kernel

/-! ## Units -/

/-- The CRC check value of "123456789" (95_test_vectors.md, V-CRC). -/
theorem test_crc_check_value :
    crc16 (bytes [0x31#8, 0x32#8, 0x33#8, 0x34#8, 0x35#8, 0x36#8, 0x37#8, 0x38#8, 0x39#8]) = 0x906E#16 := by
  decide +kernel

/-- The tuning words of 44_afsk.md R191 and 95_test_vectors.md, section 2.8. -/
theorem test_tuning_words :
    tuningWord 48000 1600 = 143165577#32 ∧ tuningWord 44100 2200 = 214261407#32
      ∧ tuningWord 9600 2600 = 1163220309#32 ∧ tuningWord 8000 800 = 429496730#32 := by decide +kernel

/-- 95_test_vectors.md, section 2.8: sample counts of 265 bits. -/
theorem test_sample_counts :
    numSamples 48000 .p1200 265 = 10600 ∧ numSamples 44100 .p2400 265 = 4870
      ∧ numSamples 8000 .p300 265 = 7067 := by decide +kernel

/-- 95_test_vectors.md, section 2.8, at FS = 9600: seven marks, then a space; the phase is not reset at a bit boundary. -/
theorem test_phase :
    phaseAt 9600 .p1200 [true, true, true, true, true, true, true, false] 8 = 0#32
      ∧ phaseAt 9600 .p1200 [true, true, true, true, true, true, true, false] 58 = 1968526678#32 := by
  decide +kernel

/-- 95_test_vectors.md, section 2.8: bit 3 of the schedule at FS = 44100, PROF 2 has 36 samples. -/
theorem test_schedule :
    sampleBit 44100 .p1200 110 = 2 ∧ sampleBit 44100 .p1200 111 = 3 ∧ sampleBit 44100 .p1200 146 = 3
      ∧ sampleBit 44100 .p1200 147 = 4 := by decide +kernel

/-! ## The bus -/

/-- VB1, VB4 and VB5 (CAP = 160 here): CONFIG, CMD, and the first offset past the window. -/
theorem test_reads_after_reset :
    [0x4020, 0x4000, 0x5014].map (fun a => (nextState (busRead a 4 (State.resetOf smallConfig))).map State.rdata) =
      [some 0x00000005#32, some 0#32, some 0#32] := by decide +kernel

/-- VB6. -/
theorem test_call_hi_keeps_16_bits :
    (nextState (step { State.resetOf smallConfig with inbox := [.write 0x401C 4 0xFFFFFFFF#32] })).map State.callHi =
      some 0xFFFF#16 := by decide +kernel

/-- VB9: the CLEAR is dropped. -/
theorem test_drop :
    (nextState (busWrite 0x4000 4 0x01000000#32 (holding 0x00000000#32 .addr []))).map
        (fun t => (t.drop, t.pend.map Pending.word)) = some (true, some 0x00000000#32) := by decide +kernel

/-- VB13, and an address below the window. -/
theorem test_refused_accesses :
    busRead 0x4004 2 (State.resetOf smallConfig) = .refused .unsupportedAccess
      ∧ busRead 0x4006 4 (State.resetOf smallConfig) = .refused .unsupportedAccess
      ∧ busRead 0x3FFC 4 (State.resetOf smallConfig) = .fault .outsideWindow := ⟨rfl, rfl, rfl⟩

/-! ## Text -/

/-- 30_encoding.md R75. -/
theorem test_assemble :
    assemble ['A', 'D', 'D', 'R', ' ', '6', ',', ' ', '0', 'x', 'F', ',', ' ', '1'] = some 0x1000061F#32
      ∧ assemble ['R', 'U', 'N', ' ', 'P', '1', '2', '0', '0'] = some 0x70000002#32 := by decide +kernel

/-- 30_encoding.md R76, and program P2's SETCALL "WIDE1". -/
theorem test_setcall :
    readHostLine 160 ['S', 'E', 'T', 'C', 'A', 'L', 'L', ' ', '"', 'W', 'I', 'D', 'E', '1', '"'] =
        some [.setCall [0x57#8, 0x49#8, 0x44#8, 0x45#8, 0x31#8]]
      ∧ callLoWord [0x57#8, 0x49#8, 0x44#8, 0x45#8, 0x31#8] = 0x45444957#32
      ∧ callHiWord [0x57#8, 0x49#8, 0x44#8, 0x45#8, 0x31#8] = 0x2031#32 := by decide +kernel

/-- 95_test_vectors.md, program P4's lines with comments, one shortened (assumption 12); and a `;` in a text is text. -/
theorem test_comments :
    readHostLine 160 ['C', 'T', 'L', 'P', 'I', 'D', ' ', ' ', ';', ' ', '0', 'x', '1', '1'] = some [.command .ctlpid]
      ∧ readHostLine 160 ['I', 'N', 'F', 'O', ' ', '0', 'x', '4', '1', ' ', ';', ' ', '"', 'A', '"'] =
        some [.command (.info 0x41#8)]
      ∧ readHostLine 160 ['I', 'N', 'F', 'O', 'S', ' ', '"', ';', '"', ';'] = some [.command (.info 0x3B#8)]
      ∧ readHostLine 160 [' ', ';', 'x'] = some [] := by decide +kernel

/-- 20_memory.md R53: with CAP = 160 the window has words 0 to 4. -/
theorem test_bufwin_index :
    readHostLine 160 ['R', 'D', ' ', 'B', 'U', 'F', 'W', 'I', 'N', '[', '4', ']'] = some [.rd (.bufwin 4)]
      ∧ readHostLine 160 ['R', 'D', ' ', 'B', 'U', 'F', 'W', 'I', 'N', '[', '5', ']'] = none := by decide +kernel

/-- 40_address_frame.md R107: a payload outside ASCII is its UTF-8 bytes (U+00E9 is C3 A9). -/
theorem test_infos_utf8 :
    readHostLine 160 ['I', 'N', 'F', 'O', 'S', ' ', '"', Char.ofNat 0xE9, '"'] =
      some [.command (.info 0xC3#8), .command (.info 0xA9#8)] := by decide +kernel

/-- 30_encoding.md R76: a WAIT whose reads all give BUSY = 1 goes on to no later line. -/
theorem test_wait_does_not_go_on :
    (match runProgram 0 [.wait, .wr .callLo 1#32] (State.resetOf smallConfig) with
      | .waiting t => some t.callLo
      | .ended _ => none) = some 0#32 := by decide +kernel

/-! ## Witnesses: each meets all the hypotheses of the statement it is named after -/

/-- What every state built by `holding` and `holding2` meets: the witnesses below add the rest. -/
theorem holding_meets (w : Word) (st : Stage) (bits : BitSeq) :
    ((holding w st bits).pend = some (held w) ∧ (holding w st bits).tx = none ∧ (holding w st bits).stage = st
        ∧ (holding w st bits).inbox = [] ∧ (holding w st bits).addrcnt = 0#4)
      ∧ ((holding2 w st bits).pend = some (held w) ∧ (holding2 w st bits).tx = none ∧ (holding2 w st bits).stage = st
        ∧ (holding2 w st bits).inbox = [] ∧ (holding2 w st bits).addrcnt = 2#4) :=
  ⟨⟨rfl, rfl, rfl, rfl, rfl⟩, rfl, rfl, rfl, rfl, rfl⟩

theorem witness_DecodeOfEncode : WellFormed (.addr 7 true 15) = true ∧ WellFormed (.run .p2400) = true := by decide

theorem witness_EncodeOfDecode : decode 0x1000071F#32 = .ok (.addr 7 true 15) := rfl

/-- Both schedules of the first clause, the word of the second, and the idle core of the third. -/
theorem witness_StepRunsDecodedCommand :
    ((failed 0x00000000#32).pend = some (held 0x00000000#32) ∧ decode (held 0x00000000#32).word = .ok .nop
        ∧ (failed 0x00000000#32).inbox = [])
      ∧ ({ failed 0x00000000#32 with inbox := [.core, .reset] } : State).inbox = .core :: [.reset]
      ∧ decode 0x70000003#32 = .ok (.run .p2400)
      ∧ (State.resetOf smallConfig).pend = none ∧ (State.resetOf smallConfig).inbox = [] :=
  ⟨⟨rfl, rfl, rfl⟩, rfl, rfl, rfl, rfl⟩

/-- With nothing scheduled, and with the turn scheduled. -/
theorem witness_IllegalWordRaises :
    ((holding 0x02000000#32 .done []).pend = some (held 0x02000000#32)
        ∧ decode (held 0x02000000#32).word = .error .unusedOpcode ∧ TakesTurn (holding 0x02000000#32 .done []) []
        ∧ (holding 0x02000000#32 .done []).stage ≠ .error)
      ∧ TakesTurn { failed 0x10000020#32 with inbox := [.core, .reset] } [.reset]
      ∧ (failed 0x10000020#32).pend = some (held 0x10000020#32)
      ∧ decode (held 0x10000020#32).word = .error .reservedBits ∧ (failed 0x10000020#32).stage = .error :=
  ⟨⟨rfl, rfl, .inl ⟨rfl, rfl⟩, by decide⟩, .inr rfl, rfl, rfl, rfl⟩

theorem witness_ErrorStateIgnoresCommands :
    ((failed 0x01000000#32).stage = .error ∧ (failed 0x01000000#32).tx = none
        ∧ (failed 0x01000000#32).pend = some (held 0x01000000#32) ∧ TakesTurn (failed 0x01000000#32) []
        ∧ decode (held 0x01000000#32).word = .ok .clear)
      ∧ (failed 0x11000000#32).pend = some (held 0x11000000#32) ∧ TakesTurn (failed 0x11000000#32) []
      ∧ decode (held 0x11000000#32).word ≠ .ok .clear :=
  ⟨⟨rfl, rfl, rfl, .inl ⟨rfl, rfl⟩, rfl⟩, rfl, .inl ⟨rfl, rfl⟩, fun h => by cases h⟩

/-- A CLEAR leaves S_ERROR. -/
theorem witness_OnlyClearOrResetLeavesError :
    (failed 0x01000000#32).stage = .error ∧ (failed 0x01000000#32).tx = none
      ∧ ∃ t, step (failed 0x01000000#32) = .next t ∧ t.stage ≠ .error :=
  ⟨rfl, rfl, _, rfl, by decide⟩

theorem witness_FirstErrorIsKept :
    (failed 0x99000000#32).stage = .error ∧ (failed 0x99000000#32).tx = none
      ∧ ∃ t, step (failed 0x99000000#32) = .next t ∧ t.stage = .error :=
  ⟨rfl, rfl, _, rfl, rfl⟩

theorem witness_OutputsOnlyAppendedByModAndRun :
    ∃ t, step twoBits = .next t ∧ t.segOut ≠ twoBits.segOut ∧ t.pend ≠ none :=
  ⟨_, rfl, by decide, by decide⟩

/-- A MOD meets every clause's premises. -/
theorem witness_CommandsWriteOnlyTheirRegisters :
    (∃ t, exec (.mod .p2400) (emitting 0 0) = .next t)
      ∧ (Instr.mod .p2400 ≠ .clear) ∧ (∀ clen last ssid, Instr.mod .p2400 ≠ .addr clen last ssid)
      ∧ (∀ b, Instr.mod .p2400 ≠ .info b) ∧ Instr.mod .p2400 ≠ .fcs ∧ (∀ prof, Instr.mod .p2400 ≠ .run prof)
      ∧ ∀ u, (emitting 0 0).tx = some u → u.fcs = (emitting 0 0).fcsreg :=
  ⟨⟨_, rfl⟩, nofun, nofun, nofun, nofun, nofun, fun u h => by cases h; rfl⟩

/-- The clauses in order: success at the 104-bit limit and as the last address, then the five errors, each at a boundary. -/
theorem witness_AddrAppendsOneField :
    ((holding2 0x1000061F#32 .addr (List.replicate 104 false)).pend = some (held 0x1000061F#32)
        ∧ (holding2 0x1000061F#32 .addr (List.replicate 104 false)).stage = .addr ∧ 6 ≤ 6
        ∧ ¬((holding2 0x1000061F#32 .addr (List.replicate 104 false)).addrcnt = 0#4 ∧ true = true)
        ∧ ¬((holding2 0x1000061F#32 .addr (List.replicate 104 false)).addrcnt = 9#4 ∧ true = false)
        ∧ (holding2 0x1000061F#32 .addr (List.replicate 104 false)).bitbuf.length + 56 ≤ smallConfig.cap)
      ∧ ((holding2 0x10000700#32 .ctl []).stage ≠ .addr ∧ (holding2 0x10000700#32 .ctl []).stage ≠ .error)
      ∧ ((holding 0x10000700#32 .addr []).stage = .addr ∧ 6 < 7)
      ∧ ((holding 0x10000010#32 .addr []).stage = .addr ∧ 0 ≤ 6 ∧ (holding 0x10000010#32 .addr []).addrcnt = 0#4)
      ∧ (({ holding 0x10000501#32 .addr [] with addrcnt := 9#4 } : State).stage = .addr ∧ 5 ≤ 6
        ∧ ({ holding 0x10000501#32 .addr [] with addrcnt := 9#4 } : State).addrcnt = 9#4)
      ∧ smallConfig.cap < (holding2 0x1000061F#32 .addr (List.replicate 105 false)).bitbuf.length + 56 := by
  decide +kernel

theorem witness_AddressFieldBytes : (6 ≤ 6 ∧ 5 < 6) ∧ 0 ≤ 6 := by decide

/-- An address built from a snapshot of word 0. -/
def stationA : Address := { snapshot := held 0x10000600#32, clen := 6, ssid := 0 }

theorem witness_ChainMarksFirstAndLast :
    (List.replicate 10 stationA).length ≤ 10 ∧ 9 < (List.replicate 10 stationA).length := by decide

/-- A full callsign, and the empty one. -/
theorem witness_AddressRoundTrip :
    (6 ≤ 6 ∧ 15 < 16 ∧ (∀ j, j < 6 → ((held 0#32).callByte j).toNat < 0x80)
        ∧ (0 < 6 → (held 0#32).callByte (6 - 1) ≠ 0x20#8))
      ∧ (0 ≤ 6 ∧ (∀ j, j < 0 → ((held 0#32).callByte j).toNat < 0x80)
        ∧ (0 < 0 → (held 0#32).callByte (0 - 1) ≠ 0x20#8)) := by decide

theorem witness_CtlpidAppendsControlAndPid :
    ((holding2 0x11000000#32 .ctl (List.replicate 144 false)).pend = some (held 0x11000000#32)
        ∧ (holding2 0x11000000#32 .ctl (List.replicate 144 false)).stage = .ctl
        ∧ (holding2 0x11000000#32 .ctl (List.replicate 144 false)).bitbuf.length + 16 ≤ smallConfig.cap)
      ∧ ((holding2 0x11000000#32 .info []).stage ≠ .ctl ∧ (holding2 0x11000000#32 .info []).stage ≠ .error)
      ∧ smallConfig.cap < (holding2 0x11000000#32 .ctl (List.replicate 145 false)).bitbuf.length + 16 := by
  decide +kernel

theorem witness_InfoAppendsTheByte :
    ((holding2 0x120000FF#32 .info (List.replicate 152 false)).pend = some (held 0x120000FF#32)
        ∧ (holding2 0x120000FF#32 .info (List.replicate 152 false)).stage = .info
        ∧ (holding2 0x120000FF#32 .info (List.replicate 152 false)).bitbuf.length + 8 ≤ smallConfig.cap)
      ∧ ((holding2 0x120000FF#32 .fcs []).stage ≠ .info ∧ (holding2 0x120000FF#32 .fcs []).stage ≠ .error)
      ∧ smallConfig.cap < (holding2 0x120000FF#32 .info (List.replicate 153 false)).bitbuf.length + 8 := by
  decide +kernel

theorem witness_FcsAppendsTheCheckSequence :
    ((holding2 0x20000000#32 .info (List.replicate 144 false)).pend = some (held 0x20000000#32)
        ∧ (holding2 0x20000000#32 .info (List.replicate 144 false)).stage = .info
        ∧ (holding2 0x20000000#32 .info (List.replicate 144 false)).bitbuf.length + 16 ≤ smallConfig.cap)
      ∧ ((holding2 0x20000000#32 .ctl []).stage ≠ .info ∧ (holding2 0x20000000#32 .ctl []).stage ≠ .error)
      ∧ smallConfig.cap < (holding2 0x20000000#32 .info (List.replicate 145 false)).bitbuf.length + 16 := by
  decide +kernel

theorem witness_StuffStuffsTheBody :
    ((holding2 0x30000000#32 .fcs (List.replicate 160 false)).pend = some (held 0x30000000#32)
        ∧ (holding2 0x30000000#32 .fcs (List.replicate 160 false)).stage = .fcs
        ∧ (stuff (holding2 0x30000000#32 .fcs (List.replicate 160 false)).bitbuf).length ≤ smallConfig.cap)
      ∧ ((holding2 0x30000000#32 .info []).stage ≠ .fcs ∧ (holding2 0x30000000#32 .info []).stage ≠ .error)
      ∧ smallConfig.cap < (stuff (holding2 0x30000000#32 .fcs (List.replicate 160 true)).bitbuf).length := by
  decide +kernel

theorem witness_FrameAddsTwoFlags :
    ((holding2 0x40000000#32 .stuffed (List.replicate 144 false)).pend = some (held 0x40000000#32)
        ∧ (holding2 0x40000000#32 .stuffed (List.replicate 144 false)).stage = .stuffed
        ∧ (holding2 0x40000000#32 .stuffed (List.replicate 144 false)).bitbuf.length + 16 ≤ smallConfig.cap)
      ∧ ((holding2 0x40000000#32 .fcs []).stage ≠ .stuffed ∧ (holding2 0x40000000#32 .fcs []).stage ≠ .error)
      ∧ smallConfig.cap < (holding2 0x40000000#32 .stuffed (List.replicate 145 false)).bitbuf.length + 16 := by
  decide +kernel

theorem witness_OnlyTheFlagsHoldSixOnes :
    (holding2 0x40000000#32 .stuffed (stuff [true, true, true, true, true, true])).pend = some (held 0x40000000#32)
      ∧ (holding2 0x40000000#32 .stuffed (stuff [true, true, true, true, true, true])).stage = .stuffed
      ∧ ∃ t, exec .frame (holding2 0x40000000#32 .stuffed (stuff [true, true, true, true, true, true])) = .next t
          ∧ t.stage = .framed :=
  ⟨rfl, rfl, _, rfl, rfl⟩

theorem witness_NrziLineEncodes :
    ((holding2 0x50000000#32 .framed [true]).pend = some (held 0x50000000#32)
        ∧ (holding2 0x50000000#32 .framed [true]).stage = .framed)
      ∧ ((holding2 0x50000000#32 .line []).stage ≠ .framed ∧ (holding2 0x50000000#32 .line []).stage ≠ .error) := by
  decide

theorem witness_NrziIsParityOfZeros : 1 < ([true, false] : BitSeq).length := by decide

theorem witness_TuningWordIsNearest : 0 < 48000 ∧ 2 * 2600 < 48000 := by decide

theorem witness_SampleScheduleCoversEveryBit :
    0 < 44100 ∧ 0 < numSamples 44100 .p1200 1 ∧ 36 < numSamples 44100 .p1200 1 := by decide +kernel

theorem witness_PhaseIsContinuous : 0 < 1 := by decide

theorem witness_ModStartsOnlyInLine :
    ((holding2 0x60000002#32 .line [true, false]).pend = some (held 0x60000002#32)
        ∧ (holding2 0x60000002#32 .line [true, false]).tx = none
        ∧ (holding2 0x60000002#32 .line [true, false]).stage = .line
        ∧ (holding2 0x60000002#32 .line [true, false]).segReady = true
        ∧ (holding2 0x60000002#32 .line [true, false]).bitbuf = true :: [false])
      ∧ ((holding2 0x60000002#32 .done []).stage ≠ .line ∧ (holding2 0x60000002#32 .done []).stage ≠ .error) := by
  decide

/-- The four clauses in order: a segment, a sample, a wait (the sink of the sample port stopped), the completion. -/
theorem witness_EmittingCommandTurn :
    Emits (.mod .p2400)
      ∧ ((emitting 0 0).tx = some (oneBit 0 0) ∧ 0 < (oneBit 0 0).bits.length ∧ (emitting 0 0).segReady = true)
      ∧ ((emitting 1 0).tx = some (oneBit 1 0) ∧ ¬(1 < (oneBit 1 0).bits.length ∧ (emitting 1 0).segReady = true)
        ∧ 0 < numSamples smallConfig.fs .p2400 (oneBit 1 0).bits.length ∧ (emitting 1 0).smpReady = true)
      ∧ (¬(0 < numSamples smallConfig.fs .p2400 (oneBit 1 0).bits.length
            ∧ ((emitting 1 0).setReady .sample false).smpReady = true)
        ∧ (1 < (oneBit 1 0).bits.length ∨ 0 < numSamples smallConfig.fs .p2400 (oneBit 1 0).bits.length))
      ∧ ((emitting 1 1).tx = some (oneBit 1 1) ∧ (oneBit 1 1).bits.length ≤ 1
        ∧ numSamples smallConfig.fs .p2400 (oneBit 1 1).bits.length ≤ 1) :=
  ⟨⟨_, .inl rfl⟩, ⟨rfl, by decide, rfl⟩, ⟨rfl, by decide, by decide +kernel, rfl⟩,
    ⟨by decide, .inr (by decide +kernel)⟩, rfl, by decide, by decide +kernel⟩

theorem witness_ModDeliversItsArtifact :
    (holding2 0x60000002#32 .line [true, false]).pend = some (held 0x60000002#32)
      ∧ decode (held 0x60000002#32).word = .ok (.mod .p1200)
      ∧ (holding2 0x60000002#32 .line [true, false]).tx = none
      ∧ (holding2 0x60000002#32 .line [true, false]).stage = .line
      ∧ SinkAccepts (holding2 0x60000002#32 .line [true, false]) :=
  ⟨rfl, rfl, rfl, rfl, rfl, rfl, rfl⟩

/-- The segment port's sink has stopped. -/
theorem witness_StoppedSinkHangsTheCore :
    ((emitting 0 1).setReady .segment false).pend = some (held 0x60000003#32)
      ∧ decode (held 0x60000003#32).word = .ok (.mod .p2400) ∧ Emits (.mod .p2400)
      ∧ ((emitting 0 1).setReady .segment false).tx = some (oneBit 0 1)
      ∧ ((emitting 0 1).setReady .segment false).inbox = []
      ∧ (0 < (oneBit 0 1).bits.length → ((emitting 0 1).setReady .segment false).segReady = false)
      ∧ (1 < numSamples smallConfig.fs .p2400 (oneBit 0 1).bits.length →
          ((emitting 0 1).setReady .segment false).smpReady = false)
      ∧ (0 < (oneBit 0 1).bits.length ∨ 1 < numSamples smallConfig.fs .p2400 (oneBit 0 1).bits.length) :=
  ⟨rfl, rfl, ⟨_, .inl rfl⟩, rfl, rfl, fun _ => rfl, by decide +kernel, by decide⟩

/-- The clauses in order: Sequence; the FCS, STUFF and FRAME steps overflowing, each at its boundary; and a body that fits. -/
theorem witness_RunSettlesOrStops :
    ((holding 0x70000002#32 .addr []).pend = some (held 0x70000002#32) ∧ (holding 0x70000002#32 .addr []).tx = none
        ∧ (holding 0x70000002#32 .addr []).stage ≠ .info ∧ (holding 0x70000002#32 .addr []).stage ≠ .error)
      ∧ ((holding2 0x70000002#32 .info (List.replicate 145 false)).stage = .info
        ∧ smallConfig.cap < (List.replicate 145 false).length + 16)
      ∧ ((List.replicate 144 true).length + 16 ≤ smallConfig.cap
        ∧ smallConfig.cap < (stuff (withFcs (List.replicate 144 true))).length)
      ∧ ((List.replicate 144 false).length + 16 ≤ smallConfig.cap
        ∧ (stuff (withFcs (List.replicate 144 false))).length ≤ smallConfig.cap
        ∧ smallConfig.cap < (stuff (withFcs (List.replicate 144 false))).length + 16)
      ∧ ((holding2 0x70000002#32 .info (List.replicate 100 true)).stage = .info
        ∧ (List.replicate 100 true).length + 16 ≤ smallConfig.cap
        ∧ (stuff (withFcs (List.replicate 100 true))).length + 16 ≤ smallConfig.cap
        ∧ (holding2 0x70000002#32 .info (List.replicate 100 true)).segReady = true) := by decide +kernel

theorem witness_RunDeliversItsArtifact :
    (holding2 0x70000002#32 .info []).pend = some (held 0x70000002#32)
      ∧ decode (held 0x70000002#32).word = .ok (.run .p1200) ∧ (holding2 0x70000002#32 .info []).tx = none
      ∧ (holding2 0x70000002#32 .info []).stage = .info ∧ SinkAccepts (holding2 0x70000002#32 .info [])
      ∧ BodyFits smallConfig.cap (holding2 0x70000002#32 .info []).bitbuf :=
  ⟨rfl, rfl, rfl, rfl, ⟨rfl, rfl, rfl⟩, by decide +kernel, by decide +kernel⟩

theorem witness_RunIsTheFiveCommands :
    ({ holding2 0#32 .info [true] with pend := none } : State).pend = none
      ∧ ({ holding2 0#32 .info [true] with pend := none } : State).tx = none
      ∧ ({ holding2 0#32 .info [true] with pend := none } : State).stage = .info
      ∧ SinkAccepts { holding2 0#32 .info [true] with pend := none } ∧ BodyFits smallConfig.cap [true] :=
  ⟨rfl, rfl, rfl, ⟨rfl, rfl, rfl⟩, by decide +kernel, by decide +kernel⟩

/-- A RUN's emission that has sent everything: the line image of the empty body. -/
def allSent : Transmit :=
  { prof := .p2400, bits := lineImage false [], fcs := crc16 [], seg := 32, smp := 32, phase := 0#32
    segLast := (segRecords .p2400 (lineImage false [])).getLast?
    smpLast := (smpRecords smallConfig.fs .p2400 (lineImage false [])).getLast? }

/-- That RUN, pending. -/
def runSent : State := { holding2 0x70000003#32 .info [] with tx := some allSent }

theorem runSent_completes : exec (.run .p2400) runSent = .next (runSent.commit allSent).finish := by
  have h : execRun .p2400 runSent = transmitStep allSent runSent := execRun_emitting rfl
  exact h.trans (transmitStep_done (by decide +kernel) (by decide +kernel))

/-- The second clause for FCS, and for a MOD and a RUN at their completion. -/
theorem witness_StageAcceptance :
    ((holding2 0x20000000#32 .fcs []).pend = some (held 0x20000000#32) ∧ (holding2 0x20000000#32 .fcs []).tx = none
        ∧ (holding2 0x20000000#32 .fcs []).stage ≠ .error
        ∧ accepts .fcs (holding2 0x20000000#32 .fcs []).stage = false)
      ∧ ((holding2 0x20000000#32 .info []).pend ≠ none ∧ accepts .fcs (holding2 0x20000000#32 .info []).stage = true
        ∧ (holding2 0x20000000#32 .info []).err = none
        ∧ ∃ t, exec .fcs (holding2 0x20000000#32 .info []) = .next t ∧ t.pend = none ∧ t.err = none)
      ∧ ((emitting 1 1).pend ≠ none ∧ accepts (.mod .p2400) (emitting 1 1).stage = true ∧ (emitting 1 1).err = none
        ∧ ∃ t, exec (.mod .p2400) (emitting 1 1) = .next t ∧ t.pend = none ∧ t.err = none)
      ∧ (runSent.pend ≠ none ∧ accepts (.run .p2400) runSent.stage = true ∧ runSent.err = none
        ∧ ∃ t, exec (.run .p2400) runSent = .next t ∧ t.pend = none ∧ t.err = none) :=
  ⟨⟨rfl, rfl, by decide, rfl⟩, ⟨by decide, rfl, rfl, _, rfl, rfl, rfl⟩, ⟨by decide, rfl, rfl, _, rfl, rfl, rfl⟩,
    by decide, rfl, rfl, _, runSent_completes, rfl, rfl⟩

theorem witness_ErrorEntryIsPrecise :
    (holding2 0x20000000#32 .ctl []).pend = some (held 0x20000000#32) ∧ CoreTurn (holding2 0x20000000#32 .ctl [])
      ∧ (holding2 0x20000000#32 .ctl []).tx = none ∧ (holding2 0x20000000#32 .ctl []).stage ≠ .error
      ∧ (∃ t, step (holding2 0x20000000#32 .ctl []) = .next t ∧ t.stage = .error)
      ∧ ∀ prof, decode (held 0x20000000#32).word ≠ .ok (.run prof) :=
  ⟨rfl, .inl rfl, rfl, by decide, ⟨_, rfl, rfl⟩, fun _ h => by cases h⟩

theorem witness_OtherCommandsCompleteInOneTurn : ¬Emits .nop := by
  rintro ⟨_, h | h⟩ <;> cases h

/-- Offsets at the ends of the map's ranges: CMD, CONFIG, the window's first and last word, and the first past it. -/
theorem witness_ReadsWhileIdle :
    (State.resetOf smallConfig).pend = none ∧ (State.resetOf smallConfig).cfg.cap % 32 = 0
      ∧ ∀ off ∈ [0x000, 0x020, 0x024, 0x1000, 0x1010, 0x1014, 0xFFFC], off % 4 = 0 ∧ off < 0x10000 := by decide

theorem witness_WindowShowsTheBits :
    (State.resetOf smallConfig).cfg.Legal ∧ (State.resetOf smallConfig).pend = none ∧ 4 < smallConfig.cap / 32
      ∧ 31 < 32 := by decide

/-- The unmapped ranges at their ends. -/
theorem witness_ReadsWhileBusy :
    (holding 0#32 .addr []).pend = some (held 0#32) ∧ (holding 0#32 .addr []).cfg.Legal ∧ 4 < smallConfig.cap / 32
      ∧ (∀ off ∈ [0x024, 0xFFC], off % 4 = 0 ∧ 0x024 ≤ off ∧ off < 0x1000)
      ∧ ∀ off ∈ [0x1014, 0xFFFC], off % 4 = 0 ∧ 0x1000 + smallConfig.cap / 8 ≤ off ∧ off < 0x10000 := by
  decide

theorem witness_CmdWriteAcceptsOrDrops :
    (State.resetOf smallConfig).pend = none ∧ (holding 0#32 .addr []).pend ≠ none := by decide

theorem witness_CallWritesAndIgnoredWrites :
    ∀ off ∈ [0x004, 0x014, 0x020, 0xFFFC], off < 0x10000 ∧ off % 4 = 0 ∧ off ≠ 0x000 ∧ off ≠ 0x018 ∧ off ≠ 0x01C := by
  decide

theorem witness_AddrUsesItsSnapshot : (holding 0x10000600#32 .addr []).pend = some (held 0x10000600#32) := rfl

theorem witness_UnsupportedAccessesAreRefused :
    (0x004 < 0x10000 ∧ (2 ≠ 4 ∨ 0x004 % 4 ≠ 0)) ∧ (0xFFFE < 0x10000 ∧ (4 ≠ 4 ∨ 0xFFFE % 4 ≠ 0)) := by decide

theorem witness_StatusAndConfigFields : ({ smallConfig with cap := 491520 } : Config).Legal := by decide

/-- `twoBits`, a turn of the core and a reset scheduled. -/
def twoBitsCut : State := { twoBits with inbox := [.core, .reset] }

/-- The clauses in order: a reset with an emission in progress; a reset one turn into an emission; and prefixes of one record of
two on each port. -/
theorem witness_HardwareReset :
    ({ emitting 1 0 with inbox := [.reset, .core] } : State).inbox = .reset :: [.core]
      ∧ (WillEmit twoBitsCut .p2400 [true, false]
        ∧ (∀ m, m ≤ 1 → ∀ w, steps m twoBitsCut = .next w → w.pend ≠ none)
        ∧ ∃ v, steps 1 twoBitsCut = .next v ∧ v.inbox = .reset :: [] ∧ v.segOut ≠ [])
      ∧ WillEmit twoBits .p2400 [true, false] ∧ 1 < ([true, false] : BitSeq).length
      ∧ 1 < numSamples smallConfig.fs .p2400 2 := by
  refine ⟨rfl, ⟨⟨rfl, _, rfl, .inl ⟨rfl, rfl, rfl⟩⟩, ?_, _, rfl, rfl, by decide⟩,
    ⟨rfl, _, rfl, .inl ⟨rfl, rfl, rfl⟩⟩, by decide, by decide +kernel⟩
  intro m hm w hw
  interval_cases m <;> cases hw <;> decide

/-- An emission in progress is coherent. -/
theorem coherent_emitting : Coherent (emitting 0 0) where
  legal := by decide
  capacity := by decide
  chainOpen := nofun
  chainClosed := by decide
  chainBound := by decide
  errorHeld := by decide
  noErrorHeld := by decide
  emission := by
    rintro t ⟨⟩
    exact ⟨by decide, held 0x60000003#32, rfl, .inl ⟨rfl, rfl⟩⟩

theorem onCourse_emitting : EmissionOnCourse (emitting 0 0) where
  source := by rintro t ⟨⟩; exact .inl ⟨rfl, rfl, rfl⟩
  counts := by rintro t ⟨⟩; exact ⟨Nat.zero_le _, Nat.zero_le _⟩
  phase := by rintro t ⟨⟩; rfl
  segments := by rintro t ⟨⟩; exact ⟨[], rfl⟩
  samples := by rintro t ⟨⟩; exact ⟨[], rfl⟩
  segHeld := by rintro t ⟨⟩; simp only [oneBit, closing_zero]
  smpHeld := by rintro t ⟨⟩; simp only [oneBit, closing_zero]

theorem witness_StepKeepsCoherent : Coherent (emitting 0 0) ∧ ∃ t, step (emitting 0 0) = .next t :=
  ⟨coherent_emitting, _, rfl⟩

theorem witness_StepKeepsEmissionOnCourse :
    Coherent (emitting 0 0) ∧ EmissionOnCourse (emitting 0 0) ∧ ∃ t, step (emitting 0 0) = .next t :=
  ⟨coherent_emitting, onCourse_emitting, _, rfl⟩

/-- The Destination is in the buffer, and the ADDR of the Source is pending. -/
def oneAddress : State :=
  { holding 0x10000611#32 .addr (bytes (chainBytes false [stationA])) with addrcnt := 1#4 }

theorem coherent_oneAddress : Coherent oneAddress where
  legal := by decide
  capacity := by decide +kernel
  chainOpen := by decide
  chainClosed := fun h => absurd rfl h
  chainBound := by decide
  errorHeld := by decide
  noErrorHeld := by decide
  emission := nofun

theorem witness_StepKeepsFrameContents :
    Coherent oneAddress ∧ EmissionOnCourse oneAddress ∧ FrameContents oneAddress ∧ ∃ t, step oneAddress = .next t :=
  ⟨coherent_oneAddress, ⟨nofun, nofun, nofun, nofun, nofun, nofun, nofun⟩, ⟨[stationA], ⟨rfl, by decide⟩, rfl, rfl⟩, _, rfl⟩

/-- "BG7ZDQ"-0 and "BI4PYM"-1. -/
def twoStations : List Station :=
  [{ call := [0x42#8, 0x47#8, 0x37#8, 0x5A#8, 0x44#8, 0x51#8], ssid := 0 },
   { call := [0x42#8, 0x49#8, 0x34#8, 0x50#8, 0x59#8, 0x4D#8], ssid := 1 }]

/-- The payload fills the buffer to CAP. -/
theorem witness_BodyCommandsBuildTheFrame :
    0 < 1 ∧ (State.resetOf smallConfig).pend = none ∧ (State.resetOf smallConfig).stage = .addr
      ∧ (State.resetOf smallConfig).bitbuf = [] ∧ (State.resetOf smallConfig).addrcnt = 0#4
      ∧ (State.resetOf smallConfig).infocnt = 0#32 ∧ ChainValid twoStations ∧ smallConfig.Legal
      ∧ 56 * twoStations.length + 16 + 8 * (List.replicate 4 0x7E#8).length ≤ smallConfig.cap :=
  ⟨by decide, rfl, rfl, rfl, rfl, rfl, ⟨by decide, by decide, by decide⟩, by decide, by decide⟩

/-- The idle core after a frame that failed. -/
def afterError : State := { failed 0#32 with pend := none, cfg := { smallConfig with cap := 4096 } }

/-- From the error state of an earlier frame; and the longest chain is valid. -/
theorem witness_FrameProtocolIsPure :
    (afterError.pend = none ∧ SinkAccepts afterError ∧ ChainValid twoStations ∧ afterError.cfg.Legal
        ∧ BodyFits afterError.cfg.cap (bodyOf twoStations [0xFF#8])
        ∧ emissionTurns afterError.cfg.fs .p1200 (lineImage afterError.cfg.nrziInit (bodyOf twoStations [0xFF#8])) ≤ 10000)
      ∧ ChainValid (twoStations ++ List.replicate 8 { call := [], ssid := 15 }) :=
  ⟨⟨rfl, ⟨rfl, rfl, rfl⟩, ⟨by decide, by decide, by decide⟩, by decide, ⟨by decide +kernel, by decide +kernel⟩,
    by decide +kernel⟩, by decide, by decide, by decide⟩

/-- What the host asks of each row: from reset, a word put with `withFetchWord` runs at the next step. -/
theorem test_every_row_runs_from_reset :
    ([0x00000000, 0x01000000, 0x10000000, 0x11000000, 0x12000000, 0x20000000, 0x30000000, 0x40000000, 0x50000000,
      0x60000000, 0x70000000].map fun w => ((nextState (step (State.reset.withFetchWord 32 w))).map State.status)) =
      [some 0x00000#32, some 0x00000#32, some 0x01000#32, some 0x004F0#32, some 0x004F0#32, some 0x004F0#32,
       some 0x004F0#32, some 0x004F0#32, some 0x004F0#32, some 0x004F0#32, some 0x004F0#32] := by decide +kernel

theorem witness_StepDeliversTheEnvironment :
    ({ emitting 1 0 with inbox := [.read 0x4004 4, .core] } : State).inbox = .read 0x4004 4 :: [.core]
      ∧ ({ emitting 1 0 with inbox := [.write 0x4018 4 1#32] } : State).inbox = .write 0x4018 4 1#32 :: []
      ∧ ({ emitting 1 0 with inbox := [.sink .segment false] } : State).inbox = .sink .segment false :: []
      ∧ ({ emitting 1 0 with inbox := [.sink .sample true] } : State).inbox = .sink .sample true :: [] :=
  ⟨rfl, rfl, rfl, rfl⟩

end Sys2Proof.Machine
end

section
/-! What a turn leaves unchanged, said once per group of registers: what no command writes (10_state.md R31), the counters,
FCSREG and DROP (R23, R24, R30, R34), and the two output histories (R37). -/

namespace Sys2Proof.Machine

/-! ### What no command writes -/

/-- The parameters, the callsign registers, and the environment's side of the bus and of the sink. -/
def State.beyondCommands (s : State) : Config × Word × Half × List Event × Bool × Bool × Word × Nat :=
  (s.cfg, s.callLo, s.callHi, s.inbox, s.segReady, s.smpReady, s.rdata, s.draws)

/-- What every turn of an emission keeps. -/
structure KeptByEmission (s u : State) : Prop where
  beyondCommands : u.beyondCommands = s.beyondCommands
  drop : u.drop = s.drop
  addrcnt : u.addrcnt = s.addrcnt
  infocnt : u.infocnt = s.infocnt

theorem transmitStep_keeps {t : Transmit} {s u : State} (h : transmitStep t s = .next u) : KeptByEmission s u := by
  obtain ⟨-, -, rfl⟩ | ⟨-, -, rfl⟩ | rfl | ⟨-, -, rfl⟩ := transmitStep_cases h <;> exact ⟨rfl, rfl, rfl, rfl⟩

/-- The completion of an emission is the one of its turns that writes FCSREG. -/
theorem transmitStep_fcsreg {t : Transmit} {s u : State} (h : transmitStep t s = .next u) (hf : t.fcs = s.fcsreg) :
    u.fcsreg = s.fcsreg := by
  obtain ⟨-, -, rfl⟩ | ⟨-, -, rfl⟩ | rfl | ⟨-, -, rfl⟩ := transmitStep_cases h
  · rfl
  · rfl
  · rfl
  · exact hf

theorem Turn.beyondCommands_eq {i : Instr} {s t : State} (h : Turn i s t) :
    t.beyondCommands = s.beyondCommands := by
  cases h with
  | modStart _ _ h | runStart _ _ _ _ h | emitting _ _ h => exact (transmitStep_keeps h).beyondCommands
  | _ => rfl

theorem Turn.drop_eq {i : Instr} {s t : State} (h : Turn i s t) (hi : i ≠ .clear) : t.drop = s.drop := by
  cases h with
  | clear => exact absurd rfl hi
  | modStart _ _ h | runStart _ _ _ _ h | emitting _ _ h => exact (transmitStep_keeps h).drop
  | _ => rfl

theorem Turn.addrcnt_eq {i : Instr} {s t : State} (h : Turn i s t) (hi : i ≠ .clear)
    (ha : ∀ clen last ssid, i ≠ .addr clen last ssid) : t.addrcnt = s.addrcnt := by
  cases h with
  | clear => exact absurd rfl hi
  | addr => exact absurd rfl (ha _ _ _)
  | modStart _ _ h | runStart _ _ _ _ h | emitting _ _ h => exact (transmitStep_keeps h).addrcnt
  | _ => rfl

theorem Turn.infocnt_eq {i : Instr} {s t : State} (h : Turn i s t) (hi : i ≠ .clear)
    (hb : ∀ b, i ≠ .info b) : t.infocnt = s.infocnt := by
  cases h with
  | clear => exact absurd rfl hi
  | info => exact absurd rfl (hb _)
  | modStart _ _ h | runStart _ _ _ _ h | emitting _ _ h => exact (transmitStep_keeps h).infocnt
  | _ => rfl

/-- A MOD carries FCSREG's own value to its completion; an emission found in progress is asked to. -/
theorem Turn.fcsreg_eq {i : Instr} {s t : State} (h : Turn i s t) (hi : i ≠ .clear) (hf : i ≠ .fcs)
    (hr : ∀ prof, i ≠ .run prof) (htx : ∀ u, s.tx = some u → u.fcs = s.fcsreg) : t.fcsreg = s.fcsreg := by
  cases h with
  | clear => exact absurd rfl hi
  | fcs => exact absurd rfl hf
  | runStuffFailed | runFrameFailed | runStart => exact absurd rfl (hr _)
  | modStart _ _ h => exact transmitStep_fcsreg h rfl
  | emitting _ ht h => exact transmitStep_fcsreg h (htx _ ht)
  | _ => rfl

/-! ### The output histories -/

/-- A command that is not MOD or RUN ends in its one turn and sends nothing (10_state.md R33, R37). -/
theorem Turn.completes {i : Instr} {s t : State} (h : Turn i s t) (hi : ¬Emits i) :
    t.pend = none ∧ t.tx = none ∧ t.segOut = s.segOut ∧ t.smpOut = s.smpOut := by
  cases h with
  | modStart => exact absurd ⟨_, .inl rfl⟩ hi
  | runStart => exact absurd ⟨_, .inr rfl⟩ hi
  | emitting he => exact absurd he hi
  | _ => exact ⟨rfl, rfl, rfl, rfl⟩

/-- Both histories grow by at most one record, and while the command stays pending by at most one in all, which is not a last
one (44_afsk.md R186, 70_reset_and_hazards.md R265). -/
def OutputsGrow (s t : State) : Prop :=
  ∃ a b, t.segOut = s.segOut ++ a ∧ t.smpOut = s.smpOut ++ b ∧ a.length ≤ 1 ∧ b.length ≤ 1
    ∧ (t.pend ≠ none → a.length + b.length ≤ 1 ∧ (∀ r ∈ a, r.last = false) ∧ ∀ r ∈ b, r.last = false)

theorem OutputsGrow.of_eq {s t : State} (hg : t.segOut = s.segOut) (hm : t.smpOut = s.smpOut) : OutputsGrow s t :=
  ⟨[], [], by simp [hg], by simp [hm], by simp, by simp, by simp⟩

theorem Transmit.segNow_length_le (t : Transmit) : t.segNow.length ≤ 1 := by
  rcases t.segNow_cases with h | ⟨h, -⟩ <;> simp [h]

theorem Transmit.segNow_not_last (t : Transmit) : ∀ r ∈ t.segNow, r.last = false := by
  rcases t.segNow_cases with h | ⟨h, hl⟩
  · simp [h]
  · simp [h, hl]

theorem Transmit.smpNow_length_le (fs : Nat) (t : Transmit) : (t.smpNow fs).length ≤ 1 := by
  rcases t.smpNow_cases fs with h | ⟨h, -⟩ <;> simp [h]

theorem Transmit.smpNow_not_last (fs : Nat) (t : Transmit) : ∀ r ∈ t.smpNow fs, r.last = false := by
  rcases t.smpNow_cases fs with h | ⟨h, hl⟩
  · simp [h]
  · simp [h, hl]

theorem transmitStep_outputsGrow {t : Transmit} {s u : State} (h : transmitStep t s = .next u) : OutputsGrow s u := by
  obtain ⟨-, -, rfl⟩ | ⟨-, -, rfl⟩ | rfl | ⟨-, -, rfl⟩ := transmitStep_cases h
  · exact ⟨t.segNow, [], rfl, by simp, t.segNow_length_le, by simp,
      fun _ => ⟨t.segNow_length_le, t.segNow_not_last, by simp⟩⟩
  · exact ⟨[], t.smpNow s.cfg.fs, by simp, rfl, by simp, t.smpNow_length_le _,
      fun _ => ⟨by simpa using t.smpNow_length_le _, by simp, t.smpNow_not_last _⟩⟩
  · exact .of_eq rfl rfl
  · exact ⟨_, _, rfl, rfl, Option.length_toList_le, Option.length_toList_le, fun hp => absurd rfl hp⟩

theorem Turn.outputsGrow {i : Instr} {s t : State} (h : Turn i s t) : OutputsGrow s t := by
  cases h with
  | modStart _ _ h | runStart _ _ _ _ h | emitting _ _ h => exact transmitStep_outputsGrow h
  | _ => exact .of_eq rfl rfl

/-- Only a pending MOD or RUN changes what the ports have delivered. -/
theorem coreStep_outputs {s t : State} (h : coreStep s = .next t) :
    (t.segOut = s.segOut ∧ t.smpOut = s.smpOut)
      ∨ (OutputsGrow s t ∧ ∃ p i, s.pend = some p ∧ decode p.word = .ok i ∧ Emits i) := by
  obtain ⟨-, rfl⟩ | ⟨p, i, hp, hd, ht⟩ | ⟨-, -, -, -, ⟨-, rfl⟩ | ⟨-, rfl⟩⟩ := coreStep_cases h
  · exact .inl ⟨rfl, rfl⟩
  · by_cases hi : Emits i
    · exact .inr ⟨ht.outputsGrow, p, i, hp, hd, hi⟩
    · exact .inl (ht.completes hi).2.2
  · exact .inl ⟨rfl, rfl⟩
  · exact .inl ⟨rfl, rfl⟩

/-- Of a step's kinds only a turn of the core changes what the ports have delivered. -/
theorem step_outputs {s t : State} (h : step s = .next t) :
    (t.segOut = s.segOut ∧ t.smpOut = s.smpOut)
      ∨ (OutputsGrow s t ∧ CoreTurn s ∧ ∃ p i, s.pend = some p ∧ decode p.word = .ok i ∧ Emits i) := by
  obtain ⟨rest, hi, hc⟩ | ⟨rest, -, rfl⟩ | ⟨rest, ⟨r, rfl⟩ | ⟨r, v, rfl⟩ | ⟨p, r, rfl⟩⟩ := step_cases h
  · exact (coreStep_outputs hc).imp_right fun ⟨hg, he⟩ => ⟨hg, hi.imp And.left fun h => ⟨rest, h⟩, he⟩
  all_goals exact .inl ⟨by simp, by simp⟩

end Sys2Proof.Machine
end

section
/-! Coherence (10_state.md R22, R23, R27 to R29): the ways a state keeps it, and that each turn and each event is one. -/

namespace Sys2Proof.Machine

/-! ### The ways a state keeps coherence -/

/-- The registers that coherence speaks of, an emission apart. -/
def State.frameRegs (s : State) : Config × Memory × BitVec 4 × Stage × Option Err × Word × Stage :=
  (s.cfg, s.bitbuf, s.addrcnt, s.stage, s.err, s.errcmd, s.errstg)

/-- An emission the buffer holds, under its pending command in the stage that command runs in (44_afsk.md R186, 45_control.md
R212): what `Coherent` asks of an emission in progress. -/
def Emittable (s : State) (t : Transmit) : Prop :=
  t.bits.length ≤ s.cfg.cap ∧
    ∃ p, s.pend = some p ∧
      ((s.stage = .line ∧ decode p.word = .ok (.mod t.prof)) ∨ (s.stage = .info ∧ decode p.word = .ok (.run t.prof)))

theorem Coherent.congr {s t : State} (h : Coherent s) (hr : t.frameRegs = s.frameRegs)
    (htx : ∀ e, t.tx = some e → Emittable t e) : Coherent t := by
  simp only [State.frameRegs, Prod.mk.injEq] at hr
  obtain ⟨hcfg, hbuf, hcnt, hstg, herr, hcmd, hes⟩ := hr
  exact {
    legal := by rw [hcfg]; exact h.legal
    capacity := by rw [hcfg, hbuf]; exact h.capacity
    chainOpen := by rw [hstg, hcnt]; exact h.chainOpen
    chainClosed := by rw [hstg, hcnt]; exact h.chainClosed
    chainBound := by rw [hcnt]; exact h.chainBound
    errorHeld := by rw [hstg, herr]; exact h.errorHeld
    noErrorHeld := by rw [herr, hcmd, hes]; exact h.noErrorHeld
    emission := htx }

/-- A new frame (45_control.md R211, 10_state.md R40). -/
theorem coherent_resetOf {c : Config} (hl : c.Legal) : Coherent (State.resetOf c) where
  legal := hl
  capacity := resetOf_keeps_wf c
  chainOpen := fun _ => Nat.zero_le 9
  chainClosed := fun h => absurd rfl h
  chainBound := Nat.zero_le 10
  errorHeld := by simp [State.resetOf]
  noErrorHeld := fun _ => ⟨rfl, rfl⟩
  emission := nofun

theorem Coherent.finish {s : State} (h : Coherent s) : Coherent s.finish := h.congr rfl nofun

/-- Error entry (60_exceptions.md R232) ends the frame, so nothing is asked of the chain but its bound. -/
theorem Coherent.raise_finish {s : State} (h : Coherent s) (e : Err) (w : Word) : Coherent (s.raise e w).finish where
  legal := h.legal
  capacity := h.capacity
  chainOpen := nofun
  chainClosed := fun _ hn => absurd rfl hn
  chainBound := h.chainBound
  errorHeld := by simp
  noErrorHeld := nofun
  emission := nofun

/-- From a stage after the last address to another such stage, over a sequence that fits (60_exceptions.md R235, R236). -/
theorem Coherent.advance {s : State} (h : Coherent s) {st : Stage} (hs : s.stage = st) (b : BitSeq) (st' : Stage)
    (hb : b.length ≤ s.cfg.cap) (hst : st ≠ .addr ∧ st ≠ .error := by decide)
    (hst' : st' ≠ .addr ∧ st' ≠ .error := by decide) :
    Coherent { s with bitbuf := b, stage := st', tx := none } := by
  subst hs
  exact {
    legal := h.legal
    capacity := Memory.wf_iff.mpr hb
    chainOpen := fun ha => absurd ha hst'.1
    chainClosed := fun _ _ => h.chainClosed hst.1 hst.2
    chainBound := h.chainBound
    errorHeld := iff_of_false hst'.2 fun hn => hst.2 (h.errorHeld.mpr hn)
    noErrorHeld := h.noErrorHeld
    emission := nofun }

/-- One more address in a chain that has no last one yet: it is not the tenth unless it is the last, nor the last when it is the first
(40_address_frame.md R103, R104). -/
theorem Coherent.addAddress {s : State} (h : Coherent s) (hs : s.stage = .addr) {last : Bool} {b : BitSeq}
    (h0 : ¬(s.addrcnt = 0#4 ∧ last = true)) (h9 : ¬(s.addrcnt = 9#4 ∧ last = false)) (hb : b.length ≤ s.cfg.cap) :
    Coherent { s with
      bitbuf := b, addrcnt := s.addrcnt + 1#4, stage := if last then .ctl else .addr, tx := none } := by
  have hle := h.chainOpen hs
  have hadd : (s.addrcnt + 1#4).toNat = s.addrcnt.toNat + 1 := by
    rw [BitVec.toNat_add]
    exact Nat.mod_eq_of_lt (show s.addrcnt.toNat + 1 < 16 by omega)
  have hnone : s.err = none := by
    by_contra hn
    rw [h.errorHeld.mpr hn] at hs
    cases hs
  have hfirst : last = true → s.addrcnt.toNat ≠ 0 := fun hl hz => h0 ⟨BitVec.eq_of_toNat_eq hz, hl⟩
  have htenth : last = false → s.addrcnt.toNat ≠ 9 := fun hl hz => h9 ⟨BitVec.eq_of_toNat_eq hz, hl⟩
  exact {
    legal := h.legal
    capacity := Memory.wf_iff.mpr hb
    chainOpen := by
      cases last with
      | true => simp
      | false => have := htenth rfl; simp only [hadd]; omega
    chainClosed := by
      cases last with
      | true => have := hfirst rfl; simp only [hadd]; omega
      | false => simp
    chainBound := by simp only [hadd]; omega
    errorHeld := by cases last <;> simp [hnone]
    noErrorHeld := h.noErrorHeld
    emission := nofun }

/-! ### A turn of the core -/

theorem Emittable.stage_ne {s : State} {t : Transmit} (h : Emittable s t) : s.stage ≠ .addr ∧ s.stage ≠ .error := by
  obtain ⟨-, p, -, ⟨hs, -⟩ | ⟨hs, -⟩⟩ := h <;> simp [hs]

/-- An emission keeps its bits and its command until its completion, which writes the bits (44_afsk.md R186). -/
theorem transmitStep_keeps_coherent {t : Transmit} {s u : State} (hc : Coherent s) (he : Emittable s t)
    (h : transmitStep t s = .next u) : Coherent u := by
  obtain ⟨-, -, rfl⟩ | ⟨-, -, rfl⟩ | rfl | ⟨-, -, rfl⟩ := transmitStep_cases h
  iterate 3 exact hc.congr rfl (by rintro e ⟨⟩; exact he)
  · exact (hc.advance rfl t.bits .done he.1 he.stage_ne).congr rfl nofun

theorem Turn.keeps_coherent {i : Instr} {s t : State} {p : Pending} (h : Turn i s t) (hp : s.pend = some p)
    (hd : decode p.word = .ok i) (hc : Coherent s) : Coherent t := by
  have hcap := Memory.wf_iff.mp hc.capacity
  cases h with
  | ignored => exact hc.finish
  | nop => exact hc.finish
  | clear => exact (coherent_resetOf hc.legal).congr rfl nofun
  | addr hs _ h0 h9 hl => exact (hc.addAddress hs h0 h9 (by simpa using hl)).congr rfl nofun
  | ctlpid hs hl => exact (hc.advance hs _ .info (by simpa [controlPid] using hl)).congr rfl nofun
  | @info _ b hs hl =>
    refine (hc.advance hs (s.bitbuf ++ bits8 b) .info (by simpa using hl)).congr ?_ nofun
    rw [← hs]
    rfl
  | fcs hs hl => exact (hc.advance hs (withFcs s.bitbuf) .fcs (by simpa using hl)).congr rfl nofun
  | stuff hs hl => exact (hc.advance hs _ .stuffed hl).congr rfl nofun
  | frame hs hl => exact (hc.advance hs (flag ++ s.bitbuf ++ flag) .framed (by simp; omega)).congr rfl nofun
  | nrzi hs => exact (hc.advance hs (Machine.nrzi s.cfg.nrziInit s.bitbuf) .line (by simpa using hcap)).congr rfl nofun
  | raised e => exact hc.raise_finish e _
  | runStuffFailed _ hs h1 =>
    exact ((hc.advance hs (withFcs s.bitbuf) .fcs (by simpa using h1)).raise_finish .bufferOverflow _).congr rfl nofun
  | runFrameFailed _ hs _ h2 =>
    exact ((hc.advance hs _ .stuffed h2).raise_finish .bufferOverflow _).congr rfl nofun
  | modStart _ hs h => exact transmitStep_keeps_coherent hc ⟨hcap, p, hp, .inl ⟨hs, hd⟩⟩ h
  | runStart _ hs _ h2 h =>
    exact transmitStep_keeps_coherent hc ⟨by simpa using h2, p, hp, .inr ⟨hs, hd⟩⟩ h
  | emitting _ htx h => exact transmitStep_keeps_coherent hc (hc.emission _ htx) h

theorem coreStep_keeps_coherent {s t : State} (hc : Coherent s) (h : coreStep s = .next t) : Coherent t := by
  obtain ⟨-, rfl⟩ | ⟨p, i, hp, hd, ht⟩ | ⟨-, -, -, -, ⟨-, rfl⟩ | ⟨-, rfl⟩⟩ := coreStep_cases h
  · exact hc
  · exact ht.keeps_coherent hp hd hc
  · exact hc.finish
  · exact hc.raise_finish _ _

/-! ### The environment's events -/

theorem Coherent.withInbox {s : State} (h : Coherent s) (rest : List Event) : Coherent { s with inbox := rest } :=
  h.congr rfl h.emission

theorem Coherent.hwReset {s : State} (h : Coherent s) : Coherent s.hwReset :=
  (coherent_resetOf h.legal).congr rfl nofun

theorem Coherent.readReg {s : State} (h : Coherent s) (r : Reg) : Coherent (s.readReg r) :=
  h.congr (by simp [State.frameRegs]) (by simpa [Emittable] using h.emission)

theorem Coherent.setReady {s : State} (h : Coherent s) (p : Port) (ready : Bool) : Coherent (s.setReady p ready) :=
  h.congr (by simp [State.frameRegs]) (by simpa [Emittable] using h.emission)

/-- A write leaves the pending command and its emission as they are, unless it is an accepted CMD write, whose command has
emitted nothing (10_state.md R33, R34). -/
theorem writeReg_emission (r : Reg) (v : Word) (s : State) :
    ((s.writeReg r v).pend = s.pend ∧ (s.writeReg r v).tx = s.tx) ∨ (s.writeReg r v).tx = none := by
  cases r with
  | cmd =>
    cases hb : s.busy with
    | true => left; simp [State.writeReg, hb]
    | false => right; simp [State.writeReg, hb]
  | _ => exact .inl ⟨rfl, rfl⟩

theorem Coherent.writeReg {s : State} (h : Coherent s) (r : Reg) (v : Word) : Coherent (s.writeReg r v) := by
  refine h.congr (by simp [State.frameRegs]) ?_
  obtain ⟨hp, ht⟩ | ht := writeReg_emission r v s
  · simpa [Emittable, hp, ht] using h.emission
  · simp [ht]

end Sys2Proof.Machine
end

section
/-! The statements about the state (10_state.md). -/

namespace Sys2Proof.Machine

/-- Settles O55: a step is a turn of the core or one event of the environment, and each keeps coherence. -/
theorem stepKeepsCoherent : Obligations.StepKeepsCoherent := by
  intro s t hc h
  obtain ⟨rest, -, hcore⟩ | ⟨rest, -, rfl⟩ | ⟨rest, ⟨r, rfl⟩ | ⟨r, v, rfl⟩ | ⟨p, r, rfl⟩⟩ := step_cases h
  · exact coreStep_keeps_coherent (hc.withInbox rest) hcore
  · exact (hc.withInbox rest).hwReset
  · exact (hc.withInbox rest).readReg r
  · exact (hc.withInbox rest).writeReg r v
  · exact (hc.withInbox rest).setReady p r

/-- Settles O10: a step leaves both histories, or is a turn of a pending MOD or RUN, which lets them grow as stated. -/
theorem outputsOnlyAppendedByModAndRun : Obligations.OutputsOnlyAppendedByModAndRun := by
  intro s t h
  obtain ⟨hg, hm⟩ | ⟨hgrow, hturn⟩ := step_outputs h
  · exact ⟨OutputsGrow.of_eq hg hm, fun hne => by simp [hg, hm] at hne⟩
  · exact ⟨hgrow, fun _ => hturn⟩

/-- Settles O11, one frame lemma a clause. -/
theorem commandsWriteOnlyTheirRegisters : Obligations.CommandsWriteOnlyTheirRegisters := by
  intro i s t h
  have ht := exec_turn h
  have hkept := ht.beyondCommands_eq
  simp only [State.beyondCommands, Prod.mk.injEq] at hkept
  exact ⟨hkept, ht.drop_eq, ht.addrcnt_eq, ht.infocnt_eq, ht.fcsreg_eq⟩

/-- Settles O43: every command has a next state, and one that is not MOD or RUN is then complete. -/
theorem otherCommandsCompleteInOneTurn : Obligations.OtherCommandsCompleteInOneTurn := by
  intro i s hi
  obtain ⟨t, h⟩ := exec_next i s
  exact ⟨t, h, (exec_turn h).completes hi⟩

theorem tableWord_toNat (w : Word) : tableWord 32 w.toNat = w := by
  rw [tableWord, Nat.mod_eq_of_lt w.isLt, BitVec.ofNat_toNat, BitVec.setWidth_eq]

/-- Settles O5: the core's turn, scheduled or not, is the meaning of the word it decodes. -/
theorem stepRunsDecodedCommand : Obligations.StepRunsDecodedCommand := by
  refine ⟨fun s p i hp hd => ⟨fun hi => ?_, fun rest hi => ?_⟩, fun s w i hd => ?_, fun s hp hi => ?_⟩
  · rw [step_quiet hi, coreStep_legal hp hd]
  · rw [step_event hi]
    exact coreStep_legal (s := { s with inbox := rest }) hp hd
  · rw [State.withFetchWord, tableWord_toNat, step_event (s.loadCommand_inbox w)]
    exact coreStep_legal (s := s.accept w) rfl hd
  · rw [step_quiet hi, coreStep_idle hp]

/-- Offset 0 of the window is CMD (20_memory.md R52). -/
theorem wr_cmd (w : Word) (s : State) : wr .cmd w s = .next (s.writeReg .cmd w) := by
  simp [wr, busWrite, busAccess, windowOffset, Reg.offset, regAt]

/-- Settles O47: BUSY says whether a command is pending, and decides the write. -/
theorem cmdWriteAcceptsOrDrops : Obligations.CmdWriteAcceptsOrDrops := by
  refine fun s w => ⟨fun hp => ?_, fun hp => ?_⟩
  · have hb : s.busy = false := by simp [State.busy, hp]
    simp [wr_cmd, State.writeReg, hb, State.accept]
  · have hb : s.busy = true := by simpa [State.busy, Option.isSome_iff_ne_none] using hp
    simp [wr_cmd, State.writeReg, hb]

/-- Settles O51: the word is the concatenation of its fields, so dropping the fields below one leaves that one lowest; and a
legal CAP / 32 fits its sixteen bits. -/
theorem statusAndConfigFields : Obligations.StatusAndConfigFields := by
  refine ⟨fun c hl => ⟨?_, ?_, ?_⟩, fun s => ⟨?_, ?_, ?_, ?_, ?_, ?_, ?_, ?_⟩⟩
  · rw [Config.word, BitVec.extractLsb'_append_eq_right]
    obtain ⟨-, -, hle, -⟩ := hl
    exact Nat.mod_eq_of_lt (by omega)
  · rw [Config.word, BitVec.getLsbD_append, BitVec.getLsbD_append]
    simp
  · rw [Config.word, BitVec.extractLsb'_append_eq_of_le (by decide), BitVec.extractLsb'_append_eq_left]
  · rw [State.status, BitVec.getLsbD_append]
    simp [State.busy]
  · rw [State.status, BitVec.getLsbD_append, BitVec.getLsbD_append]
    simp
  all_goals
    rw [State.status]
    repeat rw [BitVec.extractLsb'_append_eq_of_le (by decide)]
  iterate 5 exact BitVec.extractLsb'_append_eq_right
  · exact BitVec.extractLsb'_eq_self

/-- Settles O53: the reset state's fields are the table's values. -/
theorem resetValues : Obligations.ResetValues :=
  ⟨rfl, rfl, rfl, rfl, rfl, rfl, rfl, rfl, rfl, rfl, rfl, rfl, rfl, rfl⟩

theorem reference_legal : Config.reference.Legal :=
  ⟨by decide, by decide, by decide, Nat.succ_pos _⟩

/-- Settles O54: nothing is emitted at reset, and the buffer is the chain of no addresses. -/
theorem invariantsHoldAtReset : Obligations.InvariantsHoldAtReset :=
  ⟨coherent_resetOf reference_legal, ⟨nofun, nofun, nofun, nofun, nofun, nofun, nofun⟩, [], ⟨rfl, nofun⟩, rfl, rfl⟩

/-- Settles O60: the step takes the event off the schedule and delivers it. -/
theorem stepDeliversTheEnvironment : Obligations.StepDeliversTheEnvironment :=
  fun _ _ => ⟨fun _ _ h => step_event h, fun _ _ _ h => step_event h, fun _ h => step_event h, fun _ h => step_event h⟩

end Sys2Proof.Machine
end

section
/-! The bus (20_memory.md R51 to R60): what an access of the window does, what each offset of the map names, and what a read and a
write of each register do. -/

namespace Sys2Proof.Machine

/-! ### Accesses of the window -/

@[simp] theorem windowOffset_base_add {c : Config} {off : Nat} (ho : off < 0x10000) :
    windowOffset c (c.base + off) = some off := by
  simp [windowOffset, ho]

theorem busAccess_word {c : Config} {off : Nat} (go : Reg → State) (ho : off < 0x10000) (h4 : off % 4 = 0) :
    busAccess (c.base + off) 4 go c = .next (go (regAt c.cap off)) := by
  simp [busAccess, ho, h4]

theorem busAccess_unsupported {c : Config} {off n : Nat} (go : Reg → State) (ho : off < 0x10000)
    (h : n ≠ 4 ∨ off % 4 ≠ 0) : busAccess (c.base + off) n go c = .refused .unsupportedAccess := by
  have hn : ¬(n = 4 ∧ off % 4 = 0) := by omega
  simp [busAccess, ho, hn]

theorem busRead_word {s : State} {off : Nat} (ho : off < 0x10000) (h4 : off % 4 = 0) :
    busRead (s.cfg.base + off) 4 s = .next (s.readReg (regAt s.cfg.cap off)) := busAccess_word _ ho h4

theorem busWrite_word {s : State} {off : Nat} (v : Word) (ho : off < 0x10000) (h4 : off % 4 = 0) :
    busWrite (s.cfg.base + off) 4 v s = .next (s.writeReg (regAt s.cfg.cap off) v) := busAccess_word _ ho h4

/-! ### The address map -/

/-- The map gives the register its offset: all but window words at or above CAP / 32 (20_memory.md R53). -/
def Reg.Mapped (c : Config) : Reg → Prop
  | .bufwin k => c.Legal ∧ k < c.cap / 32
  | _ => True

/-- Of the registers only the window's words depend on CAP, whose greatest legal value makes them end where the 64 KiB do. -/
theorem Reg.Mapped.offset_lt {c : Config} {r : Reg} (hr : r.Mapped c) : r.offset < 0x10000 := by
  cases r with
  | bufwin k =>
    obtain ⟨⟨-, -, hcap, -⟩, hk⟩ := hr
    simp only [Reg.offset]
    omega
  | _ => decide

theorem Reg.offset_mod_four (r : Reg) : r.offset % 4 = 0 := by
  cases r with
  | bufwin k => simp only [Reg.offset]; omega
  | _ => rfl

theorem Reg.Mapped.regAt_offset {c : Config} {r : Reg} (hr : r.Mapped c) : regAt c.cap r.offset = r := by
  cases r with
  | bufwin k =>
    obtain ⟨-, hk⟩ := hr
    have hne : ∀ n < 0x1000, 0x1000 + 4 * k ≠ n := by omega
    simp [Reg.offset, regAt, hne, hk]
  | _ => simp [Reg.offset, regAt]

/-- What an aligned offset names has that offset, unless the offset is unmapped. -/
theorem offset_regAt {cap off : Nat} (h4 : off % 4 = 0) : (regAt cap off).offset = off ∨ regAt cap off = .unmapped := by
  unfold regAt
  split_ifs <;> simp [Reg.offset] <;> omega

theorem regAt_ne {cap off : Nat} {r : Reg} (h4 : off % 4 = 0) (hr : r ≠ .unmapped) (ho : off ≠ r.offset) :
    regAt cap off ≠ r := by
  rintro rfl
  exact (offset_regAt h4).elim (fun h => ho h.symm) hr

/-- The offsets of R54: between CONFIG and the buffer window, and after the window. -/
theorem regAt_unmapped {cap off : Nat} (hcap : cap % 32 = 0)
    (h : (0x024 ≤ off ∧ off < 0x1000) ∨ 0x1000 + cap / 8 ≤ off) : regAt cap off = .unmapped := by
  have hreg : ∀ n < 0x024, off ≠ n := by omega
  have hwin : ¬(0x1000 ≤ off ∧ (off - 0x1000) / 4 < cap / 32) := by omega
  simp [regAt, hreg, hwin]

/-- CAP / 32 words of the window are the CAP / 8 bytes from 0x1000 (20_memory.md R53). -/
theorem window_offsets {cap off : Nat} (hcap : cap % 32 = 0) (h4 : off % 4 = 0) :
    (0x1000 ≤ off ∧ (off - 0x1000) / 4 < cap / 32) ↔ (0x1000 ≤ off ∧ off < 0x1000 + cap / 8) := by
  omega

theorem rd_eq {s : State} {r : Reg} (hr : r.Mapped s.cfg) : rd r s = .next (s.readReg r) := by
  rw [rd, busRead_word hr.offset_lt r.offset_mod_four, hr.regAt_offset]

theorem wr_eq {s : State} {r : Reg} (v : Word) (hr : r.Mapped s.cfg) : wr r v s = .next (s.writeReg r v) := by
  rw [wr, busWrite_word v hr.offset_lt r.offset_mod_four, hr.regAt_offset]

/-! ### Reads and writes of a register -/

theorem readReg_idle {s : State} (hp : s.pend = none) (r : Reg) : s.readReg r = { s with rdata := s.regValue r } := by
  simp [State.readReg, State.busy, hp]

theorem readReg_drawn {s : State} {p : Pending} (hp : s.pend = some p) {r : Reg} (hr : r.drawnWhileBusy = true) :
    s.readReg r = { s with rdata := drawnValue r (Config.freeRead s.draws), draws := s.draws + 1 } := by
  simp [State.readReg, State.busy, hp, hr]

theorem readReg_exact {s : State} {r : Reg} (hr : r.drawnWhileBusy = false) :
    s.readReg r = { s with rdata := s.regValue r } := by
  simp [State.readReg, hr]

theorem rd_idle {s : State} {r : Reg} (hr : r.Mapped s.cfg) (hp : s.pend = none) :
    rd r s = .next { s with rdata := s.regValue r } := by
  rw [rd_eq hr, readReg_idle hp]

theorem rd_drawn {s : State} {p : Pending} {r : Reg} (hr : r.Mapped s.cfg) (hp : s.pend = some p)
    (hd : r.drawnWhileBusy = true) :
    rd r s = .next { s with rdata := drawnValue r (Config.freeRead s.draws), draws := s.draws + 1 } := by
  rw [rd_eq hr, readReg_drawn hp hd]

theorem rd_exact {s : State} {r : Reg} (hr : r.Mapped s.cfg) (hd : r.drawnWhileBusy = false) :
    rd r s = .next { s with rdata := s.regValue r } := by
  rw [rd_eq hr, readReg_exact hd]

theorem writeReg_ignored {r : Reg} (v : Word) (s : State) (h : r ≠ .cmd ∧ r ≠ .callLo ∧ r ≠ .callHi) :
    s.writeReg r v = s := by
  obtain ⟨hcmd, hlo, hhi⟩ := h
  cases r with
  | cmd => exact absurd rfl hcmd
  | callLo => exact absurd rfl hlo
  | callHi => exact absurd rfl hhi
  | _ => rfl

/-! ### The bits of a window word -/

theorem testBit_bitsToNat (bs : BitSeq) (j : Nat) : (bitsToNat bs).testBit j = bs.getD j false := by
  induction bs generalizing j with
  | nil => simp [bitsToNat]
  | cons b bs ih =>
    cases j with
    | zero => cases b <;> simp [bitsToNat]
    | succ j =>
      have hdiv : (b.toNat + 2 * bitsToNat bs) / 2 = bitsToNat bs := by have := b.toNat_lt; omega
      rw [bitsToNat, Nat.testBit_succ, hdiv, ih, List.getD_cons_succ]

theorem getLsbD_windowWord (m : Memory) (k : Nat) {j : Nat} (hj : j < 32) :
    (windowWord m k).getLsbD j = m.getD (32 * k + j) false := by
  rw [windowWord, BitVec.getLsbD_ofNat, testBit_bitsToNat]
  simp [hj, List.getD_eq_getElem?_getD, List.getElem?_drop]

/-! ### ADDR beside other live CALL registers -/

/-- The state with other live CALL registers. -/
def State.withCall (lo : Word) (hi : Half) (s : State) : State := { s with callLo := lo, callHi := hi }

theorem exec_addr_of_pend {clen ssid : Nat} {last : Bool} {s : State} {p : Pending} (hp : s.pend = some p) :
    exec (.addr clen last ssid) s = runBody (.addr clen last ssid) (addrBody clen last ssid p) s := by
  rw [exec, execAddr, current_of_pend hp]

/-- ADDR's body is given the snapshot and reads no live CALL register (20_memory.md R60). -/
theorem addrBody_withCall (clen ssid : Nat) (last : Bool) (p : Pending) (lo : Word) (hi : Half) (s : State) :
    addrBody clen last ssid p (s.withCall lo hi) = (addrBody clen last ssid p s).map (State.withCall lo hi) := by
  cases h : addrBody clen last ssid p s with
  | error e =>
    have he := addrBody_error.mp h
    exact addrBody_error.mpr he
  | ok t =>
    obtain ⟨hs, hc, h0, h9, hl, rfl⟩ := addrBody_ok.mp h
    exact addrBody_ok.mpr ⟨hs, hc, h0, h9, hl, rfl⟩

/-- The completion of a command whose body reads no live CALL register leaves them alone too (10_state.md R33). -/
theorem runBody_withCall {i : Instr} {body : State → Except Err State} {s : State} {p : Pending} {lo : Word} {hi : Half}
    (hp : s.pend = some p) (hb : body (s.withCall lo hi) = (body s).map (State.withCall lo hi)) :
    runBody i body (s.withCall lo hi) = andThen (runBody i body s) fun t => .next (t.withCall lo hi) := by
  by_cases hs : s.stage = .error
  · rw [runBody_ignored hs, runBody_ignored (s := s.withCall lo hi) hs]
    rfl
  · cases h : body s with
    | error e =>
      rw [h] at hb
      rw [runBody_of_error hs h, runBody_of_error (s := s.withCall lo hi) hs hb, current_of_pend hp,
        current_of_pend (s := s.withCall lo hi) hp]
      rfl
    | ok t =>
      rw [h] at hb
      rw [runBody_of_ok hs h, runBody_of_ok (s := s.withCall lo hi) hs hb]
      rfl

end Sys2Proof.Machine
end

section
/-! The statements about the bus (20_memory.md). -/

namespace Sys2Proof.Machine

/-- Settles O44: an idle read returns the register's value, and the map gives each offset its register. -/
theorem readsWhileIdle : Obligations.ReadsWhileIdle := by
  intro s off hp hcap h4 ho
  rw [busRead_word ho h4, readReg_idle hp]
  by_cases hcmd : off = 0
  · subst hcmd
    rfl
  · simp only [regAt, window_offsets hcap h4, apply_ite (State.regValue · s), if_neg hcmd]
    rfl

/-- Settles O45: a window word's bits are the buffer's cells from 32k on, and a write of it is ignored. -/
theorem windowShowsTheBits : Obligations.WindowShowsTheBits := by
  intro s k v hl hp hk
  have hmap : (Reg.bufwin k).Mapped s.cfg := ⟨hl, hk⟩
  refine ⟨⟨windowWord s.bitbuf k, ?_, fun j hj => ?_⟩, ?_⟩
  · exact rd_idle hmap hp
  · rw [getLsbD_windowWord _ _ hj]
    split
    · rfl
    · exact List.getD_eq_default _ _ (by omega)
  · exact (wr_eq v hmap).trans (congrArg _ (writeReg_ignored v s ⟨nofun, nofun, nofun⟩))

/-- Settles O49: ADDR's body takes the pending snapshot. -/
theorem addrUsesItsSnapshot : Obligations.AddrUsesItsSnapshot := by
  intro s p clen ssid last lo hi hp
  have hlive : (s.withCall lo hi).pend = some p := hp
  have h := runBody_withCall (i := .addr clen last ssid) hp (addrBody_withCall clen ssid last p lo hi s)
  rwa [← exec_addr_of_pend hp, ← exec_addr_of_pend hlive] at h

/-- Settles O46: a busy read is drawn or exact, as its register is. -/
theorem readsWhileBusy : Obligations.ReadsWhileBusy := by
  intro s p hp
  refine ⟨⟨Config.freeRead s.draws ||| 1#32, ?_, by simp, fun j h0 hj => ?_⟩, fun r hr => ?_, fun k hl hk => ?_,
    ?_, ?_, ?_, ?_, fun off hl h4 h => ?_⟩
  · exact rd_drawn (by trivial) hp rfl
  · have hj0 : j ≠ 0 := by omega
    simp [BitVec.getLsbD_one, hj0]
  · rcases hr with rfl | rfl | rfl | rfl <;> exact rd_drawn (by trivial) hp rfl
  · exact rd_drawn (r := .bufwin k) ⟨hl, hk⟩ hp rfl
  iterate 4 exact rd_exact (by trivial) rfl
  · obtain ⟨hcap, -⟩ := hl
    rw [busRead_word (by omega) h4, regAt_unmapped hcap (h.imp_right And.left), readReg_exact rfl]
    rfl

/-- Settles O48: only CMD, CALL_LO and CALL_HI take a write, each at its own offset. -/
theorem callWritesAndIgnoredWrites : Obligations.CallWritesAndIgnoredWrites := by
  refine fun s v => ⟨wr_eq v (by trivial), wr_eq v (by trivial), fun off ho h4 hcmd hlo hhi => ?_⟩
  rw [busWrite_word v ho h4,
    writeReg_ignored v s ⟨regAt_ne h4 nofun hcmd, regAt_ne h4 nofun hlo, regAt_ne h4 nofun hhi⟩]

/-- Settles O50: the access is in the window and not a whole aligned word of it. -/
theorem unsupportedAccessesAreRefused : Obligations.UnsupportedAccessesAreRefused :=
  fun _ _ _ _ ho h => ⟨busAccess_unsupported _ ho h, busAccess_unsupported _ ho h⟩

end Sys2Proof.Machine
end

section
/-! The decoder said once: a word decodes to a command exactly when its OPCODE is the command's and its operand fields are the
command's operands, reserved bits 0 (30_encoding.md R70 to R74); and that this is being the command's word (R75). -/

namespace Sys2Proof

/-! ### Fields of a word -/

theorem append_eq_extractLsb'_iff {m n N k : Nat} (x : BitVec m) (y : BitVec n) (w : BitVec N) :
    x ++ y = w.extractLsb' k (m + n) ↔ x = w.extractLsb' (k + n) m ∧ y = w.extractLsb' k n := by
  rw [← BitVec.extractLsb'_append_extractLsb'_eq_extractLsb' (x := w) (rfl : k + n = k + n)]
  constructor
  · intro h
    have hhigh := congrArg (BitVec.extractLsb' n m) h
    have hlow := congrArg (BitVec.extractLsb' 0 n) h
    rw [BitVec.extractLsb'_append_eq_left, BitVec.extractLsb'_append_eq_left] at hhigh
    rw [BitVec.extractLsb'_append_eq_right, BitVec.extractLsb'_append_eq_right] at hlow
    exact ⟨hhigh, hlow⟩
  · rintro ⟨rfl, rfl⟩
    rfl

/-- A number that fits its field is the field's value. -/
theorem lt_and_ofNat_eq_iff {n v : Nat} (x : BitVec n) : v < 2 ^ n ∧ BitVec.ofNat n v = x ↔ v = x.toNat := by
  constructor
  · rintro ⟨hv, rfl⟩
    exact (Nat.mod_eq_of_lt hv).symm
  · rintro rfl
    exact ⟨x.isLt, BitVec.ofNat_toNat n x ▸ x.setWidth_eq⟩

theorem ofBool_eq_extractLsb'_iff {n k : Nat} (b : Bool) (w : BitVec n) :
    BitVec.ofBool b = w.extractLsb' k 1 ↔ b = w.getLsbD k := by
  have hfield : w.extractLsb' k 1 = BitVec.ofBool (w.getLsbD k) := by
    apply BitVec.eq_of_getLsbD_eq
    intro j hj
    obtain rfl : j = 0 := by omega
    simp
  rw [hfield, BitVec.ofBool_eq_iff_eq]

/-- Every field that a mask covers is the match's. -/
theorem extractLsb'_of_match {n k len : Nat} {w mask value : BitVec n} (h : w &&& mask = value)
    (hm : mask.extractLsb' k len = BitVec.allOnes len) : w.extractLsb' k len = value.extractLsb' k len := by
  rw [← h, BitVec.extractLsb'_and, hm, BitVec.and_allOnes]

theorem Profile.code_eq_iff (prof : Profile) (c : BitVec 2) : prof.code = c ↔ prof = .ofCode c := by
  cases prof <;> revert c <;> decide

/-! ### What the decoder accepts -/

@[simp] theorem whenReserved_eq_ok {zero : Bool} {i j : Instr} :
    whenReserved zero i = .ok j ↔ zero = true ∧ i = j := by
  cases zero <;> simp [whenReserved]

/-- The rows of the decoder are tried in turn (30_encoding.md R74). -/
theorem ite_whenReserved_eq_ok {c : Prop} [Decidable c] {zero : Bool} {i j : Instr} {rest : Except Reject Instr}
    (h : (if c then whenReserved zero i else rest) = .ok j) : (c ∧ zero = true ∧ i = j) ∨ rest = .ok j := by
  split at h
  case isTrue hc => exact .inl ⟨hc, whenReserved_eq_ok.mp h⟩
  case isFalse => exact .inr h

/-- The operand fields of the word hold the operands of the command, and its reserved bits are 0 (30_encoding.md R72, R73). -/
def HoldsOperands (w : Word) : Instr → Prop
  | .addr clen last ssid =>
      (w.extractLsb' 5 3 = 0#3 ∧ w.extractLsb' 11 13 = 0#13) ∧ clen = (w.extractLsb' 8 3).toNat ∧ last = w.getLsbD 4
        ∧ ssid = (w.extractLsb' 0 4).toNat
  | .info byte => w.extractLsb' 8 16 = 0#16 ∧ byte = w.extractLsb' 0 8
  | .mod prof => w.extractLsb' 2 22 = 0#22 ∧ prof = .ofCode (w.extractLsb' 0 2)
  | .run prof => w.extractLsb' 2 22 = 0#22 ∧ prof = .ofCode (w.extractLsb' 0 2)
  | _ => w.extractLsb' 0 24 = 0#24

theorem opcode_and_operands_of_decode {w : Word} {i : Instr} (h : decode w = .ok i) :
    opcodeOf w = i.opcode ∧ HoldsOperands w i := by
  unfold decode at h
  iterate 11
    obtain ⟨hop, hzero, rfl⟩ | h := ite_whenReserved_eq_ok h
    · exact ⟨hop, by simpa [HoldsOperands] using hzero⟩
  cases h

theorem decode_of_opcode_and_operands {w : Word} {i : Instr} (hop : opcodeOf w = i.opcode)
    (h : HoldsOperands w i) : decode w = .ok i := by
  cases i with
  | addr clen last ssid =>
    obtain ⟨hzero, rfl, rfl, rfl⟩ := h
    simpa [decode, hop, Instr.opcode] using hzero
  | info byte | mod prof | run prof =>
    obtain ⟨hzero, rfl⟩ := h
    simpa [decode, hop, Instr.opcode] using hzero
  | _ => simpa [decode, hop, Instr.opcode, HoldsOperands] using h

theorem decode_eq_ok_iff {w : Word} {i : Instr} : decode w = .ok i ↔ opcodeOf w = i.opcode ∧ HoldsOperands w i :=
  ⟨opcode_and_operands_of_decode, fun ⟨hop, h⟩ => decode_of_opcode_and_operands hop h⟩

/-! ### The word of a command -/

theorem encode_eq_iff {i : Instr} {w : Word} :
    encode i = w ↔ i.opcode = opcodeOf w ∧ i.operandField = w.extractLsb' 0 24 := by
  have h := append_eq_extractLsb'_iff (k := 0) i.opcode i.operandField w
  rwa [BitVec.extractLsb'_eq_self] at h

/-- The operand field of bits 23:0, put together from its parts (30_encoding.md R72). -/
theorem holdsOperands_iff {w : Word} {i : Instr} :
    HoldsOperands w i ↔ WellFormed i = true ∧ i.operandField = w.extractLsb' 0 24 := by
  cases i with
  | addr clen last ssid =>
    rw [Instr.operandField, append_eq_extractLsb'_iff, append_eq_extractLsb'_iff, append_eq_extractLsb'_iff,
      append_eq_extractLsb'_iff, ofBool_eq_extractLsb'_iff]
    simp only [HoldsOperands, WellFormed, ← lt_and_ofNat_eq_iff, Bool.and_eq_true, decide_eq_true_eq]
    rw [eq_comm (a := 0#13), eq_comm (a := 0#3)]
    tauto
  | info byte =>
    rw [Instr.operandField, append_eq_extractLsb'_iff]
    simp [HoldsOperands, WellFormed, eq_comm]
  | mod prof | run prof =>
    rw [Instr.operandField, append_eq_extractLsb'_iff, Profile.code_eq_iff]
    simp [HoldsOperands, WellFormed, eq_comm]
  | _ => simp [HoldsOperands, WellFormed, Instr.operandField, eq_comm]

/-- The decoder and the encoder are one relation of words and well-formed commands (30_encoding.md R74, R75). -/
theorem decode_eq_ok_iff_encode {w : Word} {i : Instr} : decode w = .ok i ↔ WellFormed i = true ∧ encode i = w := by
  rw [decode_eq_ok_iff, encode_eq_iff, holdsOperands_iff, eq_comm (a := opcodeOf w)]
  exact and_left_comm

/-! ### The rows of the opcode table -/

theorem encode_matches_row (i : Instr) : encode i &&& (Laws.TableRow.row i).2 = (Laws.TableRow.row i).1 :=
  match i with
  | .nop => Laws.TableRow.nop.1
  | .clear => Laws.TableRow.clear.1
  | .addr clen last ssid => (Laws.TableRow.addr clen last ssid).1
  | .ctlpid => Laws.TableRow.ctlpid.1
  | .info byte => (Laws.TableRow.info byte).1
  | .fcs => Laws.TableRow.fcs.1
  | .stuff => Laws.TableRow.stuff.1
  | .frame => Laws.TableRow.frame.1
  | .nrzi => Laws.TableRow.nrzi.1
  | .mod prof => (Laws.TableRow.mod prof).1
  | .run prof => (Laws.TableRow.run prof).1

theorem row_mem_legalRows (i : Instr) : Laws.TableRow.row i ∈ Machine.legalRows := by
  cases i <;> simp [Laws.TableRow.row, Machine.legalRows]

/-- A row's mask covers the OPCODE and the reserved bits, and the other fields are read as the operands. -/
theorem decode_ok_of_match {w : Word} {r : Word × Word} (hr : r ∈ Machine.legalRows) (h : w &&& r.2 = r.1) :
    ∃ i, decode w = .ok i := by
  have hop := extractLsb'_of_match (k := 24) (len := 8) h
  simp only [decode_eq_ok_iff]
  simp only [Machine.legalRows, List.mem_cons, List.not_mem_nil, or_false] at hr
  rcases hr with rfl | rfl | rfl | rfl | rfl | rfl | rfl | rfl | rfl | rfl | rfl
  · exact ⟨.nop, hop rfl, extractLsb'_of_match h rfl⟩
  · exact ⟨.clear, hop rfl, extractLsb'_of_match h rfl⟩
  · exact ⟨.addr _ _ _, hop rfl, ⟨extractLsb'_of_match h rfl, extractLsb'_of_match h rfl⟩, rfl, rfl, rfl⟩
  · exact ⟨.ctlpid, hop rfl, extractLsb'_of_match h rfl⟩
  · exact ⟨.info _, hop rfl, extractLsb'_of_match h rfl, rfl⟩
  · exact ⟨.fcs, hop rfl, extractLsb'_of_match h rfl⟩
  · exact ⟨.stuff, hop rfl, extractLsb'_of_match h rfl⟩
  · exact ⟨.frame, hop rfl, extractLsb'_of_match h rfl⟩
  · exact ⟨.nrzi, hop rfl, extractLsb'_of_match h rfl⟩
  · exact ⟨.mod _, hop rfl, extractLsb'_of_match h rfl, rfl⟩
  · exact ⟨.run _, hop rfl, extractLsb'_of_match h rfl, rfl⟩

end Sys2Proof
end

section
/-! The statements about the encoding (30_encoding.md). -/

namespace Sys2Proof.Machine

/-- Settles O1: the command is well formed, so it is what its word decodes to. -/
theorem decodeOfEncode : Obligations.DecodeOfEncode :=
  fun _ hwf => decode_eq_ok_iff_encode.mpr ⟨hwf, rfl⟩

/-- Settles O2: the other direction of the same equivalence. -/
theorem encodeOfDecode : Obligations.EncodeOfDecode :=
  fun _ _ h => decode_eq_ok_iff_encode.mp h

/-- Settles O3: a word that decodes is a command's word, which meets the command's row; and a word that meets a row decodes. -/
theorem legalWordsAreTheTableRows : Obligations.LegalWordsAreTheTableRows := by
  refine fun w => ⟨fun ⟨i, h⟩ => ?_, fun ⟨r, hr, h⟩ => decode_ok_of_match hr h⟩
  obtain ⟨-, rfl⟩ := decode_eq_ok_iff_encode.mp h
  exact ⟨_, row_mem_legalRows i, encode_matches_row i⟩

/-- Settles O4: the decoder computes each word's answer. -/
theorem decodeSampleWords : Obligations.DecodeSampleWords :=
  ⟨rfl, rfl, rfl, rfl, rfl, rfl, rfl, rfl, rfl, rfl⟩

end Sys2Proof.Machine
end

section
/-! The frame in the buffer (40_address_frame.md R105, R108): how each command of the body extends it, how the later
commands transform it, and that each turn and each event keeps it what its stage says. -/

namespace Sys2Proof.Machine

/-! ### The frame as far as the body's commands have come -/

/-- The buffer is the chain of `as` alone (40_address_frame.md R105). -/
def HoldsChain (s : State) (closed : Bool) (as : List Address) : Prop :=
  ChainOf s as ∧ PayloadOf s [] ∧ s.bitbuf = bytes (chainBytes closed as)

/-- The buffer is the frame before its FCS (40_address_frame.md R108). -/
def HoldsFrame (s : State) (as : List Address) (info : List Byte) : Prop :=
  ChainOf s as ∧ PayloadOf s info ∧ s.bitbuf = frameBits as info

/-- The stage itself says which clause of `FrameContents` holds. -/
theorem FrameContents.atStage {s : State} {st : Stage} (h : FrameContents s) (hs : s.stage = st) :
    FrameContents { s with stage := st } := by
  subst hs
  exact h

theorem HoldsChain.frameContents {s : State} {closed : Bool} {as : List Address} (h : HoldsChain s closed as)
    (hs : s.stage = if closed then .ctl else .addr) : FrameContents s := by
  cases closed <;> (rw [FrameContents, hs]; exact ⟨as, h⟩)

theorem HoldsFrame.frameContents {s : State} {as : List Address} {info : List Byte} (h : HoldsFrame s as info)
    (hs : s.stage = .info) : FrameContents s := by
  rw [FrameContents, hs]
  exact ⟨as, info, h⟩

theorem holdsChain_nil {s : State} (hbuf : s.bitbuf = []) (hcnt : s.addrcnt = 0#4) (hinfo : s.infocnt = 0#32) :
    HoldsChain s false [] :=
  ⟨⟨by simp [hcnt], nofun⟩, by simp [PayloadOf, hinfo], hbuf⟩

theorem HoldsChain.toNat_addrcnt {s : State} {closed : Bool} {as : List Address} (h : HoldsChain s closed as) :
    s.addrcnt.toNat = as.length := h.1.1.symm

theorem HoldsChain.length_bitbuf {s : State} {closed : Bool} {as : List Address} (h : HoldsChain s closed as) :
    s.bitbuf.length = 56 * as.length := by
  obtain ⟨-, -, hbuf⟩ := h
  rw [hbuf, length_bytes, length_chainBytes]
  omega

theorem HoldsFrame.length_bitbuf {s : State} {as : List Address} {info : List Byte} (h : HoldsFrame s as info) :
    s.bitbuf.length = 56 * as.length + 16 + 8 * info.length := by
  obtain ⟨-, -, hbuf⟩ := h
  rw [hbuf, length_frameBits]

/-- ADDR puts one more field at the end of an open chain, and closes it or not (40_address_frame.md R103). -/
theorem HoldsChain.addAddress {s : State} {as : List Address} (h : HoldsChain s false as) (a : Address)
    (hc : a.clen ≤ 6) (hn : as.length ≤ 9) (last : Bool) (st : Stage) :
    HoldsChain { s with
      bitbuf := s.bitbuf ++ bytes (a.snapshot.addressField a.clen s.addrcnt a.ssid last)
      addrcnt := s.addrcnt + 1#4, stage := st } last (as ++ [a]) := by
  obtain ⟨⟨hlen, hle⟩, hinfo, hbuf⟩ := h
  refine ⟨⟨?_, ?_⟩, hinfo, ?_⟩
  · rw [BitVec.toNat_add, ← hlen, List.length_append]
    exact (Nat.mod_eq_of_lt (show as.length + 1 < 16 by omega)).symm
  · intro b hb
    rcases List.mem_append.mp hb with hb | hb
    · exact hle b hb
    · rwa [List.mem_singleton.mp hb]
  · have hpos : BitVec.ofNat 4 as.length = s.addrcnt := by rw [hlen, BitVec.ofNat_toNat, BitVec.setWidth_eq]
    rw [chainBytes_concat, bytes_append, hpos, hbuf]

/-- CTLPID puts the control and PID bytes after the closed chain (40_address_frame.md R106). -/
theorem HoldsChain.ctlpid {s : State} {as : List Address} (h : HoldsChain s true as) (st : Stage) :
    HoldsFrame { s with bitbuf := s.bitbuf ++ bytes controlPid, stage := st } as [] := by
  obtain ⟨hchain, hinfo, hbuf⟩ := h
  exact ⟨hchain, hinfo, by simp [frameBits, hbuf]⟩

/-- INFO puts one more byte at the end of the payload; INFOCNT, wider than any buffer, does not wrap
(40_address_frame.md R107, 10_state.md R24). -/
theorem HoldsFrame.addInfo {s : State} {as : List Address} {info : List Byte} (h : HoldsFrame s as info)
    (hl : s.cfg.Legal) (hfit : s.bitbuf.length + 8 ≤ s.cfg.cap) (b : Byte) :
    HoldsFrame { s with bitbuf := s.bitbuf ++ bits8 b, infocnt := s.infocnt + 1#32 } as (info ++ [b]) := by
  have hlen := h.length_bitbuf
  obtain ⟨hchain, hinfo, hbuf⟩ := h
  refine ⟨hchain, ?_, ?_⟩
  · obtain ⟨-, -, hcap, -⟩ := hl
    rw [PayloadOf, BitVec.toNat_add, ← show info.length = s.infocnt.toNat from hinfo, List.length_append]
    exact (Nat.mod_eq_of_lt (show info.length + 1 < 2 ^ 32 by omega)).symm
  · simp [frameBits, hbuf]

/-! ### The frame from its FCS on -/

/-- FCS completes the frame, on its own or as the first step of a RUN (41_fcs.md R132, 45_control.md R212). -/
theorem HoldsFrame.finishedAs {s t : State} {as : List Address} {info : List Byte} (h : HoldsFrame s as info)
    {f : BitSeq → BitSeq} (hbuf : t.bitbuf = f s.bitbuf) (hfcs : t.fcsreg = crc16 s.bitbuf)
    (hcnt : t.addrcnt = s.addrcnt := by rfl) (hinfo : t.infocnt = s.infocnt := by rfl) : FinishedAs t f := by
  obtain ⟨hchain, hpay, hbits⟩ := h
  exact ⟨as, info, by rwa [ChainOf, hcnt], by rwa [PayloadOf, hinfo], by rw [hbuf, hbits], by rw [hfcs, hbits]⟩

/-- A command after FCS replaces the image by a function of it, and keeps FCSREG (10_state.md R26, R30). -/
theorem FinishedAs.map {s t : State} {f : BitSeq → BitSeq} (h : FinishedAs s f) (g : BitSeq → BitSeq)
    (hbuf : t.bitbuf = g s.bitbuf) (hfcs : t.fcsreg = s.fcsreg := by rfl) (hcnt : t.addrcnt = s.addrcnt := by rfl)
    (hinfo : t.infocnt = s.infocnt := by rfl) : FinishedAs t (g ∘ f) := by
  obtain ⟨as, info, hchain, hpay, hbits, hcrc⟩ := h
  exact ⟨as, info, by rwa [ChainOf, hcnt], by rwa [PayloadOf, hinfo], by rw [hbuf, hbits]; rfl, hfcs.trans hcrc⟩

/-! ### What the contents depend on -/

/-- The registers that `FrameContents` speaks of. -/
def State.frameImage (s : State) : Bool × Memory × BitVec 4 × Word × Stage × Half :=
  (s.cfg.nrziInit, s.bitbuf, s.addrcnt, s.infocnt, s.stage, s.fcsreg)

theorem FrameContents.congr {s t : State} (h : FrameContents s) (hr : t.frameImage = s.frameImage) :
    FrameContents t := by
  simp only [State.frameImage, Prod.mk.injEq] at hr
  obtain ⟨hinit, hbuf, hcnt, hinfo, hstg, hfcs⟩ := hr
  simpa only [FrameContents, FinishedAs, ChainOf, PayloadOf, hinit, hbuf, hcnt, hinfo, hstg, hfcs] using h

/-! ### A turn of the core -/

/-- The emission sends the frame's line image, with its FCS for FCSREG: what `EmissionOnCourse` asks of its source. -/
def SendsTheFrame (s : State) (t : Transmit) : Prop :=
  (s.stage = .line ∧ t.bits = s.bitbuf ∧ t.fcs = s.fcsreg)
    ∨ (s.stage = .info ∧ t.bits = lineImage s.cfg.nrziInit s.bitbuf ∧ t.fcs = crc16 s.bitbuf)

/-- The completion of a MOD keeps the line image; that of a RUN puts it in place of the frame
(44_afsk.md R184, 45_control.md R212). -/
theorem FrameContents.commit {s : State} {t : Transmit} (h : FrameContents s) (hsrc : SendsTheFrame s t) :
    FrameContents (s.commit t) := by
  obtain ⟨hs, hbits, hfcs⟩ | ⟨hs, hbits, hfcs⟩ := hsrc
  · have hline : FinishedAs s (lineImage s.cfg.nrziInit) := h.atStage hs
    exact hline.map id hbits hfcs
  · obtain ⟨as, info, hframe⟩ : ∃ as info, HoldsFrame s as info := h.atStage hs
    exact hframe.finishedAs hbits hfcs

/-- Only the completion of an emission writes a register of the frame (10_state.md R33). -/
theorem transmitStep_keeps_frameContents {t : Transmit} {s u : State} (hf : FrameContents s)
    (hsrc : SendsTheFrame s t) (h : transmitStep t s = .next u) : FrameContents u := by
  obtain ⟨-, -, rfl⟩ | ⟨-, -, rfl⟩ | rfl | ⟨-, -, rfl⟩ := transmitStep_cases h
  iterate 3 exact hf.congr rfl
  · exact (hf.commit hsrc).congr rfl

theorem Turn.keeps_frameContents {i : Instr} {s t : State} (h : Turn i s t) (hc : Coherent s)
    (he : EmissionOnCourse s) (hf : FrameContents s) : FrameContents t := by
  cases h with
  | ignored | nop => exact hf.congr rfl
  | clear => exact (holdsChain_nil rfl rfl rfl).frameContents rfl
  | @addr _ clen ssid last hs hlen =>
    obtain ⟨as, hchain⟩ : ∃ as, HoldsChain s false as := hf.atStage hs
    have hn : as.length ≤ 9 := hchain.toNat_addrcnt ▸ hc.chainOpen hs
    exact (hchain.addAddress ⟨s.current (.addr clen last ssid), clen, ssid⟩ hlen hn last _).frameContents rfl
  | ctlpid hs =>
    obtain ⟨as, hchain⟩ : ∃ as, HoldsChain s true as := hf.atStage hs
    exact (hchain.ctlpid .info).frameContents rfl
  | @info _ b hs hl =>
    obtain ⟨as, info, hframe⟩ : ∃ as info, HoldsFrame s as info := hf.atStage hs
    exact (hframe.addInfo hc.legal hl b).frameContents hs
  | fcs hs =>
    obtain ⟨as, info, hframe⟩ : ∃ as info, HoldsFrame s as info := hf.atStage hs
    exact hframe.finishedAs (f := withFcs) rfl rfl
  | stuff hs =>
    have hfcs : FinishedAs s withFcs := hf.atStage hs
    exact hfcs.map Machine.stuff rfl
  | frame hs =>
    have hstuffed : FinishedAs s fun body => Machine.stuff (withFcs body) := hf.atStage hs
    exact hstuffed.map (fun body => flag ++ body ++ flag) rfl
  | nrzi hs =>
    have hframed : FinishedAs s framed := hf.atStage hs
    exact hframed.map (Machine.nrzi s.cfg.nrziInit) rfl
  | raised | runStuffFailed | runFrameFailed => trivial
  | modStart _ hs h => exact transmitStep_keeps_frameContents hf (.inl ⟨hs, rfl, rfl⟩) h
  | runStart _ hs _ _ h => exact transmitStep_keeps_frameContents hf (.inr ⟨hs, rfl, rfl⟩) h
  | emitting _ htx h => exact transmitStep_keeps_frameContents hf (he.source _ htx) h

theorem coreStep_keeps_frameContents {s t : State} (hc : Coherent s) (he : EmissionOnCourse s)
    (hf : FrameContents s) (h : coreStep s = .next t) : FrameContents t := by
  obtain ⟨-, rfl⟩ | ⟨p, i, -, -, ht⟩ | ⟨-, -, -, -, ⟨-, rfl⟩ | ⟨-, rfl⟩⟩ := coreStep_cases h
  · exact hf
  · exact ht.keeps_frameContents hc he hf
  · exact hf.congr rfl
  · trivial

/-- The schedule is no part of an emission. -/
theorem EmissionOnCourse.withInbox {s : State} (h : EmissionOnCourse s) (rest : List Event) :
    EmissionOnCourse { s with inbox := rest } :=
  ⟨h.source, h.counts, h.phase, h.segments, h.samples, h.segHeld, h.smpHeld⟩

end Sys2Proof.Machine
end

section
/-! The bytes of an address field (40_address_frame.md R101 to R103, R105, R109). -/

namespace Sys2Proof.Machine

/-! ### The callsign bytes -/

/-- The two CALL registers are one row of six characters, the first lowest (10_state.md R31). -/
theorem callByte_eq_extractLsb' (p : Pending) {j : Nat} (hj : j < 6) :
    p.callByte j = (p.callHi ++ p.callLo).extractLsb' (8 * j) 8 := by
  unfold Pending.callByte
  split
  · rw [BitVec.extractLsb'_append_eq_of_add_le (by omega)]
  · rw [BitVec.extractLsb'_append_eq_of_le (by omega)]
    congr 1
    omega

theorem toNat_callByte (p : Pending) {j : Nat} (hj : j < 6) :
    (p.callByte j).toNat = (p.callHi.toNat * 2 ^ 32 + p.callLo.toNat) / 2 ^ (8 * j) % 256 := by
  rw [callByte_eq_extractLsb' p hj, BitVec.extractLsb'_toNat, BitVec.toNat_append,
    ← Nat.shiftLeft_add_eq_or_of_lt p.callLo.isLt, Nat.shiftLeft_eq, Nat.shiftRight_eq_div_pow]

theorem toNat_shiftedChar (p : Pending) (clen j : Nat) :
    (p.shiftedChar clen j).toNat = (2 * if j < clen then (p.callByte j).toNat else 0x20) % 256 := by
  unfold Pending.shiftedChar
  rw [BitVec.toNat_shiftLeft, Nat.shiftLeft_eq]
  split
  · rw [Nat.mul_comm]
  · rfl

theorem callBytes_eq_map (p : Pending) (clen : Nat) :
    p.callBytes clen = (List.range 6).map (p.shiftedChar clen) := rfl

/-- A character below 0x80 loses nothing to the shift of R101. -/
theorem shiftedChar_shiftRight {p : Pending} {clen j : Nat} (h : j < clen → (p.callByte j).toNat < 0x80) :
    p.shiftedChar clen j >>> 1 = if j < clen then p.callByte j else 0x20#8 := by
  apply BitVec.eq_of_toNat_eq
  rw [BitVec.toNat_ushiftRight, toNat_shiftedChar, Nat.shiftRight_eq_div_pow]
  split
  · have := h ‹_›
    omega
  · rfl

/-! ### The seventh byte -/

theorem ssidByte_eq_append (pos ssid : BitVec 4) (last : Bool) :
    ssidByte pos ssid last = BitVec.ofBool (cBit pos) ++ 3#2 ++ ssid ++ BitVec.ofBool last := by
  unfold ssidByte
  generalize cBit pos = c
  revert c ssid last
  decide

theorem toNat_ssidByte (pos ssid : BitVec 4) (last : Bool) :
    (ssidByte pos ssid last).toNat = (if pos = 0#4 then 128 else 0) + 64 + 32 + 2 * ssid.toNat + last.toNat := by
  have hc : (if pos = 0#4 then 128 else 0) = 128 * (cBit pos).toNat := by
    rw [cBit]
    split <;> simp [*]
  rw [ssidByte_eq_append, hc]
  generalize cBit pos = c
  revert c ssid last
  decide

/-- X is bit 0 of the byte, C bit 7, SSID bits 4 to 1 (40_address_frame.md R102). -/
theorem ssidByte_xBit (pos ssid : BitVec 4) (last : Bool) : (ssidByte pos ssid last).getLsbD 0 = last := by
  rw [ssidByte_eq_append, BitVec.getLsbD_append]
  simp

theorem ssidByte_cBit (pos ssid : BitVec 4) (last : Bool) : (ssidByte pos ssid last).getLsbD 7 = cBit pos := by
  rw [ssidByte_eq_append, BitVec.getLsbD_append, BitVec.getLsbD_append, BitVec.getLsbD_append]
  simp

theorem ssidByte_ssid (pos ssid : BitVec 4) (last : Bool) : (ssidByte pos ssid last).extractLsb' 1 4 = ssid := by
  rw [ssidByte_eq_append, BitVec.extractLsb'_append_eq_of_le (by decide)]
  exact BitVec.extractLsb'_append_eq_right

/-! ### The bits of a chain -/

theorem getElem?_bytes (bs : List Byte) (k : Nat) {j : Nat} (hj : j < 8) :
    (bytes bs)[8 * k + j]? = bs[k]?.map fun b => b.getLsbD j := by
  induction bs generalizing k with
  | nil => rfl
  | cons b bs ih =>
    cases k with
    | zero =>
      rw [bytes, List.getElem?_append_left (by simpa using hj), bits8_eq_map]
      simp [hj]
    | succ k =>
      rw [bytes, List.getElem?_append_right (by simp; omega), length_bits8, List.getElem?_cons_succ, ← ih k]
      congr 1
      omega

/-- Field i of a chain ends in the SSID byte for position i, which marks the last field of a closed chain
(40_address_frame.md R103, R105). -/
theorem getElem?_chainBytes_ssid (closed : Bool) (as : List Address) {i : Nat} (hi : i < as.length) :
    ∃ ssid, (chainBytes closed as)[7 * i + 6]? =
      some (ssidByte (BitVec.ofNat 4 i) ssid (closed && i + 1 == as.length)) := by
  induction as using List.reverseRecOn generalizing closed with
  | nil => nomatch hi
  | append_singleton as a ih =>
    rw [List.length_append, List.length_singleton] at hi ⊢
    rw [chainBytes_concat]
    by_cases hlast : i = as.length
    · subst hlast
      refine ⟨BitVec.ofNat 4 a.ssid, ?_⟩
      rw [List.getElem?_append_right (by simp), length_chainBytes]
      simp [Pending.addressField, Pending.callBytes]
    · obtain ⟨ssid, h⟩ := ih false (by omega)
      have hne : (i + 1 == as.length + 1) = false := by simpa using hlast
      refine ⟨ssid, ?_⟩
      rw [List.getElem?_append_left (by rw [length_chainBytes]; omega), h, hne, Bool.and_false, Bool.false_and]

/-- Ten positions fit the 4 bits that the C bit is read from. -/
theorem cBit_ofNat {i : Nat} (hi : i < 16) : cBit (BitVec.ofNat 4 i) = (i == 0) := by
  revert i
  decide

/-! ### Decoding -/

theorem decodeCall_addressField (p : Pending) (clen : Nat) (pos : BitVec 4) (ssid : Nat) (last : Bool) :
    decodeCall (p.addressField clen pos ssid last) =
      ((p.callBytes clen).map fun b : Byte => b >>> 1).rdropWhile fun b : Byte => b == 0x20#8 := rfl

theorem map_shiftRight_callBytes {p : Pending} {clen : Nat} (hc : clen ≤ 6)
    (hchars : ∀ j, j < clen → (p.callByte j).toNat < 0x80) :
    ((p.callBytes clen).map fun b : Byte => b >>> 1) =
      (List.range clen).map p.callByte ++ List.replicate (6 - clen) 0x20#8 := by
  rw [callBytes_eq_map, List.map_map]
  apply List.ext_getElem
  · simp only [List.length_map, List.length_range, List.length_append, List.length_replicate]
    omega
  · intro j _ _
    simp [List.getElem_append, shiftedChar_shiftRight (hchars j)]

/-- Trailing spaces fall away, up to a last character that is none. -/
theorem rdropWhile_map_range {f : Nat → Byte} {c : Byte} {n k : Nat} (hn : 0 < n → f (n - 1) ≠ c) :
    ((List.range n).map f ++ List.replicate k c).rdropWhile (· == c) = (List.range n).map f := by
  rw [List.rdropWhile, List.reverse_append, List.reverse_replicate, List.dropWhile_append_of_pos (by simp)]
  refine List.rdropWhile_eq_self_iff.mpr fun hne => ?_
  have hpos : 0 < n := by simpa [Nat.pos_iff_ne_zero] using hne
  simpa [List.getLast_map] using hn hpos

end Sys2Proof.Machine
end

section
/-! The completion of ADDR, CTLPID and INFO: their words (30_encoding.md R72), what each appends, and error entry
(40_address_frame.md R103, R106, R107; 60_exceptions.md R232). -/

namespace Sys2Proof.Machine

theorem encode_addr : ∀ clen < 8, ∀ ssid < 16, ∀ last : Bool,
    encode (.addr clen last ssid) =
      0x10000000#32 ||| (BitVec.ofNat 32 clen <<< 8) ||| (BitVec.ofNat 32 last.toNat <<< 4)
        ||| BitVec.ofNat 32 ssid := by
  decide +kernel

theorem encode_info (b : Byte) : encode (.info b) = 0x12000000#32 ||| b.zeroExtend 32 := by
  revert b
  decide +kernel

/-- The completion of a failing command, with the word that is pending (60_exceptions.md R232). -/
theorem runBody_raises {i : Instr} {body : State → Except Err State} {s : State} {p : Pending} {e : Err}
    (hp : s.pend = some p) (hs : s.stage ≠ .error) (hb : body s = .error e) :
    runBody i body s = .next (errorEntered e p.word s) := by
  rw [runBody_of_error hs hb, current_of_pend hp]
  rfl

theorem exec_addr_appends {s : State} {p : Pending} {clen ssid : Nat} {last : Bool} (hp : s.pend = some p)
    (hs : s.stage = .addr) (hc : clen ≤ 6) (h0 : ¬(s.addrcnt = 0#4 ∧ last = true))
    (h9 : ¬(s.addrcnt = 9#4 ∧ last = false)) (hl : s.bitbuf.length + 56 ≤ s.cfg.cap) :
    exec (.addr clen last ssid) s =
      .next (State.finish { s with
        bitbuf := s.bitbuf ++ bytes (p.addressField clen s.addrcnt ssid last)
        addrcnt := s.addrcnt + 1#4, stage := if last then .ctl else .addr }) := by
  rw [exec_addr_of_pend hp]
  exact runBody_of_ok (by simp [hs]) (addrBody_ok.mpr ⟨hs, hc, h0, h9, hl, rfl⟩)

theorem exec_ctlpid_appends {s : State} (hs : s.stage = .ctl) (hl : s.bitbuf.length + 16 ≤ s.cfg.cap) :
    exec .ctlpid s = .next (State.finish { s with bitbuf := s.bitbuf ++ bytes controlPid, stage := .info }) :=
  runBody_of_ok (by simp [hs]) (ctlpidBody_ok.mpr ⟨hs, hl, rfl⟩)

theorem exec_info_appends {s : State} (b : Byte) (hs : s.stage = .info) (hl : s.bitbuf.length + 8 ≤ s.cfg.cap) :
    exec (.info b) s =
      .next (State.finish { s with bitbuf := s.bitbuf ++ bits8 b, infocnt := s.infocnt + 1#32 }) :=
  runBody_of_ok (by simp [hs]) (infoBody_ok.mpr ⟨hs, hl, rfl⟩)

end Sys2Proof.Machine
end

section
/-! Host programs that end, line after line (30_encoding.md R76), and the lines of a frame's body
(70_reset_and_hazards.md R263). -/

namespace Sys2Proof.Machine

/-! ### Lines that end -/

/-- The lines run to their end from `s`, in a state that meets `Q`. -/
def Leads (polls : Nat) (ls : List HostLine) (s : State) (Q : State → Prop) : Prop :=
  ∃ t, runProgram polls ls s = .ended (.next t) ∧ Q t

variable {polls : Nat} {s s₀ : State} {P Q : State → Prop}

theorem Leads.append {a b : List HostLine} (ha : Leads polls a s P) (hb : ∀ t, P t → Leads polls b t Q) :
    Leads polls (a ++ b) s Q := by
  obtain ⟨t, ht, hP⟩ := ha
  obtain ⟨u, hu, hQ⟩ := hb t hP
  exact ⟨u, by rw [runProgram_append, ht, hostThen_next, hu], hQ⟩

theorem leads_nil (h : Q s) : Leads polls [] s Q := ⟨s, rfl, h⟩

theorem leads_line {l : HostLine} {t : State} (h : l.perform polls s = .ended (.next t)) (hQ : Q t) :
    Leads polls [l] s Q :=
  ⟨t, by rw [runProgram, h]; rfl, hQ⟩

theorem leads_setCall (chars : List Byte)
    (hQ : Q { s with callLo := callLoWord chars, callHi := (callHiWord chars).extractLsb' 0 16 }) :
    Leads polls [.setCall chars] s Q := by
  refine leads_line ?_ hQ
  rw [HostLine.perform, wr_eq _ (by trivial), hostThen_next, wr_eq _ (by trivial)]
  rfl

/-- A WAIT ends at its first poll when the core's turn before it completes the command. -/
theorem waitIdle_of_completes {t : State} (hpolls : 0 < polls) (h : coreStep s = .next t) (ht : t.pend = none) :
    waitIdle polls s = .ended (.next { t with rdata := t.status }) := by
  obtain ⟨n, rfl⟩ := Nat.exists_eq_succ_of_ne_zero hpolls.ne'
  have hbusy : t.status.getLsbD 0 = false := by rw [(statusAndConfigFields.2 t).1, ht]; rfl
  rw [waitIdle, h, hostThen_next, rd_idle (by trivial) ht, hostThen_next]
  exact if_neg (ne_true_of_eq_false hbusy)

/-- A command that completes in the core's first turn on it (30_encoding.md R76). -/
theorem leads_command {i : Instr} {t : State} (hpolls : 0 < polls) (hp : s.pend = none) (hwf : WellFormed i = true)
    (h : exec i (s.accept (encode i)) = .next t) (ht : t.pend = none) (hQ : Q { t with rdata := t.status }) :
    Leads polls [.command i] s Q := by
  have hcore : coreStep (s.accept (encode i)) = .next t :=
    (coreStep_legal (s.accept_pend _) (decodeOfEncode i hwf)).trans h
  refine leads_line ?_ hQ
  rw [HostLine.perform, (cmdWriteAcceptsOrDrops s _).1 hp, hostThen_next]
  exact waitIdle_of_completes hpolls hcore ht

/-! ### The lines of a frame's body -/

/-- What the lines of a frame's body leave alone. -/
def State.besideBody (s : State) :
    Config × Half × Option Err × Word × Stage × Bool × List Event × List Seg × List Smp × Bool × Bool :=
  (s.cfg, s.fcsreg, s.err, s.errcmd, s.errstg, s.drop, s.inbox, s.segOut, s.smpOut, s.segReady, s.smpReady)

/-- Idle between two lines of the body that began in `s₀`. -/
structure Between (s₀ : State) (st : Stage) (s : State) : Prop where
  idle : s.pend = none
  stage : s.stage = st
  beside : s.besideBody = s₀.besideBody

theorem Between.cfg {st : Stage} (h : Between s₀ st s) : s.cfg = s₀.cfg := congrArg Prod.fst h.beside

/-- The chain so far, between two ADDRESS lines or after the last. -/
structure ChainGiven (s₀ : State) (closed : Bool) (as : List Address) (s : State) : Prop
    extends Between s₀ (if closed then .ctl else .addr) s where
  chain : HoldsChain s closed as

/-- The frame so far, after CTLPID. -/
structure FrameGiven (s₀ : State) (as : List Address) (info : List Byte) (s : State) : Prop
    extends Between s₀ .info s where
  frame : HoldsFrame s as info

/-- One ADDRESS line: no last address first, and the tenth the last (40_address_frame.md R103, R104). -/
theorem leads_addressLines {as : List Address} {a : Station} {last : Bool} (hpolls : 0 < polls)
    (h : ChainGiven s₀ false as s) (ha : a.call.length ≤ 6 ∧ a.ssid < 16) (h0 : last = true → 0 < as.length)
    (h9 : last = false → as.length < 9) (hn : as.length ≤ 9) (hfit : 56 * (as.length + 1) ≤ s₀.cfg.cap) :
    Leads polls (addressLines a last) s (ChainGiven s₀ last (as ++ [a.address false])) := by
  obtain ⟨hcall, hssid⟩ := ha
  have hcnt := h.chain.toNat_addrcnt
  refine Leads.append (a := [_]) (leads_setCall a.call rfl) ?_
  rintro _ rfl
  refine leads_command hpolls h.idle (by simp [WellFormed]; omega)
    (exec_addr_appends (State.accept_pend _ _) h.stage hcall ?_ ?_ ?_) rfl ⟨⟨rfl, rfl, h.beside⟩, ?_⟩
  · rintro ⟨hz, hl⟩
    have := h0 hl
    have hz' : s.addrcnt.toNat = 0 := congrArg BitVec.toNat hz
    omega
  · rintro ⟨hz, hl⟩
    have := h9 hl
    have hz' : s.addrcnt.toNat = 9 := congrArg BitVec.toNat hz
    omega
  · show s.bitbuf.length + 56 ≤ s.cfg.cap
    rw [h.chain.length_bitbuf, h.cfg]
    omega
  · exact h.chain.addAddress (a.address false) hcall hn last (if last then .ctl else .addr)

theorem leads_chainLines {as : List Address} {chain : List Station} (hpolls : 0 < polls) (h : ChainGiven s₀ false as s)
    (hne : chain ≠ []) (hvalid : ∀ a ∈ chain, a.call.length ≤ 6 ∧ a.ssid < 16) (h2 : 2 ≤ as.length + chain.length)
    (h10 : as.length + chain.length ≤ 10) (hfit : 56 * (as.length + chain.length) ≤ s₀.cfg.cap) :
    Leads polls (chainLines chain) s (ChainGiven s₀ true (as ++ chain.map fun a => a.address false)) := by
  induction chain using chainLines.induct generalizing s as with
  | case1 => exact absurd rfl hne
  | case2 a =>
    simp only [List.length_singleton] at h2 h10 hfit
    exact leads_addressLines hpolls h (hvalid a (by simp)) (by omega) nofun (by omega) hfit
  | case3 a b rest ih =>
    simp only [List.length_cons] at h2 h10 hfit ih
    refine (leads_addressLines (last := false) hpolls h (hvalid a (by simp)) nofun (by omega) (by omega)
      (by omega)).append
      fun t ht => ?_
    have hrest := ih ht (by simp) (fun c hc => hvalid c (List.mem_cons_of_mem a hc))
    simp only [List.length_append, List.length_singleton, List.append_assoc] at hrest
    exact hrest (by omega) (by omega) (by omega)

theorem leads_ctlpid {as : List Address} (hpolls : 0 < polls) (h : ChainGiven s₀ true as s)
    (hfit : 56 * as.length + 16 ≤ s₀.cfg.cap) : Leads polls [.command .ctlpid] s (FrameGiven s₀ as []) := by
  have hroom : s.bitbuf.length + 16 ≤ s.cfg.cap := by
    rw [h.chain.length_bitbuf, h.cfg]
    omega
  exact leads_command hpolls h.idle rfl (exec_ctlpid_appends h.stage hroom) rfl
    ⟨⟨rfl, rfl, h.beside⟩, h.chain.ctlpid .info⟩

theorem leads_infoLines {as : List Address} {info bs : List Byte} (hpolls : 0 < polls) (h : FrameGiven s₀ as info s)
    (hl : s₀.cfg.Legal) (hfit : 56 * as.length + 16 + 8 * (info.length + bs.length) ≤ s₀.cfg.cap) :
    Leads polls (infoLines bs) s (FrameGiven s₀ as (info ++ bs)) := by
  induction bs generalizing s info with
  | nil => exact leads_nil (by rwa [List.append_nil])
  | cons b bs ih =>
    rw [List.length_cons] at hfit
    have hroom : s.bitbuf.length + 8 ≤ s.cfg.cap := by
      rw [h.frame.length_bitbuf, h.cfg]
      omega
    have hbyte : Leads polls [.command (.info b)] s (FrameGiven s₀ as (info ++ [b])) :=
      leads_command hpolls h.idle rfl (exec_info_appends b h.stage hroom) rfl
        ⟨⟨rfl, h.stage, h.beside⟩, h.frame.addInfo (h.cfg ▸ hl) hroom b⟩
    refine hbyte.append fun t ht => ?_
    have hrest := ih ht
    rw [List.length_append, List.length_singleton, List.append_assoc] at hrest
    exact hrest (by omega)

/-- Steps 2 to 4 of the frame protocol, from an empty frame (70_reset_and_hazards.md R263). -/
theorem leads_bodyLines {chain : List Station} {info : List Byte} (hpolls : 0 < polls) (hp : s.pend = none)
    (hs : s.stage = .addr) (hbuf : s.bitbuf = []) (hcnt : s.addrcnt = 0#4) (hinfo : s.infocnt = 0#32)
    (hv : ChainValid chain) (hl : s.cfg.Legal) (hfit : 56 * chain.length + 16 + 8 * info.length ≤ s.cfg.cap) :
    Leads polls (bodyLines chain info) s (FrameGiven s (chain.map fun a => a.address false) info) := by
  obtain ⟨h2, h10, hvalid⟩ := hv
  have hne : chain ≠ [] := by rintro rfl; simp at h2
  have hstart : ChainGiven s false [] s := ⟨⟨hp, hs, rfl⟩, holdsChain_nil hbuf hcnt hinfo⟩
  have hchain := leads_chainLines hpolls hstart hne hvalid (by simpa using h2) (by simpa using h10) (by simp; omega)
  have hhead := hchain.append fun t ht => leads_ctlpid hpolls ht (by simp; omega)
  exact hhead.append fun t ht => leads_infoLines hpolls ht hl (by simpa using hfit)

end Sys2Proof.Machine
end

section
/-! The statements about addresses and the frame (40_address_frame.md). -/

namespace Sys2Proof.Machine

/-- Settles O57: a turn of the core keeps the buffer the image of a frame, a reset empties it, and every other event
leaves the frame's registers alone. -/
theorem stepKeepsFrameContents : Obligations.StepKeepsFrameContents := by
  intro s t hc he hf h
  obtain ⟨rest, -, hcore⟩ | ⟨rest, -, rfl⟩ | ⟨rest, ⟨r, rfl⟩ | ⟨r, v, rfl⟩ | ⟨p, r, rfl⟩⟩ := step_cases h
  · exact coreStep_keeps_frameContents (hc.withInbox rest) (he.withInbox rest) (hf.congr rfl) hcore
  · exact (holdsChain_nil rfl rfl rfl).frameContents rfl
  all_goals exact hf.congr (by simp [State.frameImage])

/-- Settles O14: the body's effect, and its five errors in check order. -/
theorem addrAppendsOneField : Obligations.AddrAppendsOneField := by
  refine ⟨fun clen ssid last hc hs => encode_addr clen hc ssid hs last, fun s p clen ssid last hp => ?_⟩
  have raises {e : Err} (hs : s.stage ≠ .error) (he : addrBody clen last ssid p s = .error e) :
      exec (.addr clen last ssid) s = .next (errorEntered e p.word s) := by
    rw [exec_addr_of_pend hp]
    exact runBody_raises hp hs he
  refine ⟨exec_addr_appends hp, fun hs hne => ?_, fun hs hc => ?_, fun hs hc h0 hl => ?_, fun hs hc h9 hl => ?_,
    fun hs hc h0 h9 hl => ?_⟩
  · exact raises hne (addrBody_error.mpr (.inl ⟨hs, rfl⟩))
  all_goals refine raises (by simp [hs]) (addrBody_error.mpr (.inr ?_))
  · exact .inl ⟨hs, hc, rfl⟩
  · exact .inr (.inl ⟨hs, hc, h0, hl, rfl⟩)
  · exact .inr (.inr (.inl ⟨hs, hc, h9, hl, rfl⟩))
  · exact .inr (.inr (.inr ⟨hs, hc, h0, h9, hl, rfl⟩))

/-- Settles O18: 0x03 and 0xF0 are the sixteen bits. -/
theorem ctlpidAppendsControlAndPid : Obligations.CtlpidAppendsControlAndPid := by
  refine ⟨by decide, fun s p hp => ⟨exec_ctlpid_appends, fun hs hne => ?_, fun hs hl => ?_⟩⟩
  · exact runBody_raises hp hne (ctlpidBody_error.mpr (.inl ⟨hs, rfl⟩))
  · exact runBody_raises hp (by simp [hs]) (ctlpidBody_error.mpr (.inr ⟨hs, hl, rfl⟩))

/-- Settles O19: the byte's bits are appended lowest first. -/
theorem infoAppendsTheByte : Obligations.InfoAppendsTheByte := by
  refine ⟨encode_info, fun s p b hp => ⟨exec_info_appends b, fun hs hne => ?_, fun hs hl => ?_⟩⟩
  · exact runBody_raises hp hne (infoBody_error.mpr (.inl ⟨hs, rfl⟩))
  · exact runBody_raises hp (by simp [hs]) (infoBody_error.mpr (.inr ⟨hs, hl, rfl⟩))

/-- Settles O15: the characters are the bytes of the two registers taken together, and the seventh byte is its four
fields. -/
theorem addressFieldBytes : Obligations.AddressFieldBytes := by
  refine ⟨fun p clen _ => ⟨rfl, fun j hj => ?_⟩, toNat_ssidByte⟩
  rw [callBytes_eq_map, ← toNat_callByte p hj, ← toNat_shiftedChar]
  simp [hj]

/-- Settles O16: both bits are bits of each field's seventh byte. -/
theorem chainMarksFirstAndLast : Obligations.ChainMarksFirstAndLast := by
  intro closed as hlen
  refine ⟨by rw [length_bytes, length_chainBytes]; omega, fun i hi => ?_⟩
  obtain ⟨ssid, h⟩ := getElem?_chainBytes_ssid closed as hi
  constructor
  · rw [show 56 * i + 55 = 8 * (7 * i + 6) + 7 by omega, getElem?_bytes _ _ (by decide), h, Option.map_some,
      ssidByte_cBit, cBit_ofNat (by omega)]
  · rw [show 56 * i + 48 = 8 * (7 * i + 6) + 0 by omega, getElem?_bytes _ _ (by decide), h, Option.map_some,
      ssidByte_xBit]

/-- Settles O17: shifting back gives the characters and then only spaces, which fall away. -/
theorem addressRoundTrip : Obligations.AddressRoundTrip := by
  intro p clen ssid pos last hc hs
  constructor
  · show ((ssidByte pos (BitVec.ofNat 4 ssid) last).extractLsb' 1 4).toNat = ssid
    rw [ssidByte_ssid]
    exact Nat.mod_eq_of_lt hs
  · intro hchars hlast
    rw [decodeCall_addressField, map_shiftRight_callBytes hc hchars, rdropWhile_map_range hlast]

/-- Settles O58: the lines lead to the frame line by line, and the registers count what it was built from. -/
theorem bodyCommandsBuildTheFrame : Obligations.BodyCommandsBuildTheFrame := by
  intro s chain info polls hpolls hp hs hbuf hcnt hinfo hv hl hfit
  obtain ⟨t, hrun, ⟨hidle, hstage, hbeside⟩, ⟨hlen, -⟩, hpay, hbits⟩ :=
    leads_bodyLines hpolls hp hs hbuf hcnt hinfo hv hl hfit
  simp only [State.besideBody, Prod.mk.injEq] at hbeside
  obtain ⟨-, -, herr, -, -, -, -, hseg, hsmp, -⟩ := hbeside
  rw [List.length_map] at hlen
  refine ⟨t, hrun, hbits, ?_, hstage, hidle, hlen.symm, hpay.symm, herr, hseg, hsmp⟩
  rw [hbits, length_frameBits, List.length_map]

end Sys2Proof.Machine
end

section
/-! The CRC register over its own bits, the check sequence's bit order, and the statements about it (41_fcs.md). -/

namespace Sys2Proof.Machine

/-! ### The CRC register -/

/-- The step is linear over exclusive or: the input bit `a[0]` cancels the part `a` of the register, which is only
shifted (41_fcs.md R130). -/
theorem crcStep_xor_lsb (a q : Half) : crcStep (a ^^^ q) (a.getLsbD 0) = (a >>> 1) ^^^ crcStep q false := by
  have hbit : (a ^^^ q).getLsbD 0 = a.getLsbD 0 ↔ q.getLsbD 0 = false := by
    rw [BitVec.getLsbD_xor]
    cases a.getLsbD 0 <;> simp
  simp only [crcStep, hbit, BitVec.ushiftRight_xor_distrib]
  split
  · rfl
  · exact BitVec.xor_assoc ..

/-- Bits of `a`, fed from `a[0]` on, shift the part `a` of the register out and leave the other part to run over
zeros. -/
theorem crcRegister_xor_bits (a q : Half) (n : Nat) :
    crcRegister (a ^^^ q) ((List.range n).map fun j => a.getLsbD j) =
      (a >>> n) ^^^ crcRegister q (List.replicate n false) := by
  induction n generalizing a q with
  | zero => simp [crcRegister]
  | succ n ih =>
    have hrest : (fun j => a.getLsbD j) ∘ Nat.succ = fun j => (a >>> 1).getLsbD j := by
      funext j
      rw [BitVec.getLsbD_ushiftRight, Nat.add_comm]
      rfl
    rw [List.range_succ_eq_map, List.map_cons, List.map_map, hrest, crcRegister, crcStep_xor_lsb, ih,
      ← BitVec.shiftRight_add, Nat.add_comm 1 n]
    rfl

/-! ### The check sequence -/

/-- The low byte first, each byte least significant bit first, is the bits of `f` in order (41_fcs.md R131). -/
theorem fcsBits_eq_map (f : Half) : fcsBits f = (List.range 16).map fun j => f.getLsbD j := by
  simp [fcsBits, bits8_eq_map, List.range_succ]

/-- The complement leaves 0xFFFF to run over sixteen zeros, whatever the register `r` was (41_fcs.md R133). -/
theorem crcRegister_fcsBits_complement (r : Half) : crcRegister r (fcsBits (r ^^^ 0xFFFF#16)) = 0xF0B8#16 := by
  have hsplit : r ^^^ 0xFFFF#16 ^^^ 0xFFFF#16 = r := by rw [BitVec.xor_assoc, BitVec.xor_self, BitVec.xor_zero]
  have hout : (r ^^^ 0xFFFF#16) >>> 16 = 0#16 := BitVec.ushiftRight_eq_zero (Nat.le_refl 16)
  have hzeros : crcRegister 0xFFFF#16 (List.replicate 16 false) = 0xF0B8#16 := by decide +kernel
  have h := crcRegister_xor_bits (r ^^^ 0xFFFF#16) 0xFFFF#16 16
  rwa [hsplit, ← fcsBits_eq_map, hout, hzeros, BitVec.zero_xor] at h

theorem exec_fcs_appends {s : State} (hs : s.stage = .info) (hl : s.bitbuf.length + 16 ≤ s.cfg.cap) :
    exec .fcs s =
      .next (State.finish { s with bitbuf := withFcs s.bitbuf, fcsreg := crc16 s.bitbuf, stage := .fcs }) :=
  runBody_of_ok (by simp [hs]) (fcsBody_ok.mpr ⟨hs, hl, rfl⟩)

/-! ### The statements -/

/-- Settles O21: the register after the body meets its own complement, bit by bit. -/
theorem crcResidue : Obligations.CrcResidue := by
  intro s
  rw [crcRegister_append]
  exact crcRegister_fcsBits_complement _

/-- Settles O20: the bits in order, the body's effect, and its two errors. -/
theorem fcsAppendsTheCheckSequence : Obligations.FcsAppendsTheCheckSequence := by
  refine ⟨rfl, fcsBits_eq_map, fun s p hp => ⟨exec_fcs_appends, fun hs hne => ?_, fun hs hl => ?_⟩⟩
  · exact runBody_raises hp hne (fcsBody_error.mpr (.inl ⟨hs, rfl⟩))
  · exact runBody_raises hp (by simp [hs]) (fcsBody_error.mpr (.inr ⟨hs, hl, rfl⟩))

end Sys2Proof.Machine
end

section
/-! The stuffer bit by bit, its round trip, its runs of 1s, and the statements about STUFF and FRAME
(42_stuff_frame.md). Between two bits the stuffer's run counter is below 5: the hypothesis `cnt < 5` of its inductions. -/

namespace Sys2Proof.Machine

/-! ### The stuffer bit by bit (42_stuff_frame.md R150) -/

@[simp] theorem stuffFrom_nil (cnt : Nat) : stuffFrom cnt [] = [] := rfl

@[simp] theorem stuffFrom_false (cnt : Nat) (bs : BitSeq) :
    stuffFrom cnt (false :: bs) = false :: stuffFrom 0 bs := rfl

@[simp] theorem stuffFrom_fifth_true (bs : BitSeq) :
    stuffFrom 4 (true :: bs) = true :: false :: stuffFrom 0 bs := rfl

theorem stuffFrom_true {cnt : Nat} (h : cnt < 4) (bs : BitSeq) :
    stuffFrom cnt (true :: bs) = true :: stuffFrom (cnt + 1) bs :=
  if_neg (by omega)

/-! ### How many bits stuffing adds (42_stuff_frame.md R150) -/

/-- With `cnt` 1s counted, `k` more complete `(cnt + k) / 5` groups of five. -/
theorem length_stuffFrom_ones {cnt : Nat} (hc : cnt < 5) (k : Nat) (rest : BitSeq) :
    (stuffFrom cnt (List.replicate k true ++ rest)).length =
      k + (cnt + k) / 5 + (stuffFrom ((cnt + k) % 5) rest).length := by
  induction k generalizing cnt with
  | zero => simp [Nat.div_eq_of_lt hc, Nat.mod_eq_of_lt hc]
  | succ k ih =>
    rw [List.replicate_succ, List.cons_append]
    obtain rfl | hlt : cnt = 4 ∨ cnt < 4 := by omega
    · rw [stuffFrom_fifth_true, List.length_cons, List.length_cons, ih (by decide),
        show 4 + (k + 1) = 0 + k + 5 by omega, Nat.add_mod_right]
      omega
    · rw [stuffFrom_true hlt, List.length_cons, ih (by omega), Nat.add_right_comm cnt 1 k, ← Nat.add_assoc cnt k 1]
      omega

theorem length_le_length_stuffFrom (cnt : Nat) (s : BitSeq) : s.length ≤ (stuffFrom cnt s).length := by
  fun_induction stuffFrom cnt s with
  | case1 => simp
  | case2 cnt bs _ ih => simp only [List.length_cons]; omega
  | case3 cnt bs _ ih | case4 cnt bs ih => simpa using ih

/-- A stuff bit is paid for by five 1s, of which `cnt` may stand before `s`. -/
theorem length_stuffFrom_le {cnt : Nat} (hc : cnt < 5) (s : BitSeq) :
    (stuffFrom cnt s).length ≤ s.length + (cnt + s.length) / 5 := by
  fun_induction stuffFrom cnt s with
  | case1 => simp
  | case2 cnt bs h ih | case3 cnt bs h ih | case4 cnt bs ih => simp only [List.length_cons]; omega

/-! ### Unstuffing (42_stuff_frame.md R152) -/

/-- The receiver's counter goes along with the stuffer's, so it deletes the stuff bits and no other 0. -/
theorem unstuffFrom_stuffFrom {cnt : Nat} (hc : cnt < 5) (s : BitSeq) : unstuffFrom cnt (stuffFrom cnt s) = s := by
  fun_induction stuffFrom cnt s with
  | case1 => rfl
  | case2 cnt bs h ih => simp [unstuffFrom, hc, h, ih]
  | case3 cnt bs h ih => simp [unstuffFrom, hc, ih (by omega)]
  | case4 cnt bs ih => simp [unstuffFrom, hc.ne, ih]

/-! ### Runs of 1s in a stuffed sequence (42_stuff_frame.md R152) -/

/-- Where five 1s stand in `t`, the rest of `t` after them begins with a 0. -/
def ZeroFollowsFiveOnes (t : BitSeq) : Prop :=
  ∀ b, List.replicate 5 true ++ b <:+ t → ∃ c, b = false :: c

/-- Five 1s at the start of a run of at most five are the whole run. -/
theorem rest_of_five_ones {n : Nat} (hn : n ≤ 5) {b t : BitSeq}
    (h : List.replicate 5 true ++ b = List.replicate n true ++ false :: t) : b = false :: t := by
  obtain ⟨k, hk⟩ := Nat.exists_eq_add_of_le hn
  rw [hk, ← List.replicate_append_replicate, List.append_assoc, List.append_cancel_left_eq] at h
  cases k with
  | zero => exact h
  | succ k => cases h

/-- A run of at most five 1s that a 0 closes keeps the property. -/
theorem ZeroFollowsFiveOnes.ones_zero {t : BitSeq} (ht : ZeroFollowsFiveOnes t) {n : Nat} (hn : n ≤ 5) :
    ZeroFollowsFiveOnes (List.replicate n true ++ false :: t) := by
  intro b hb
  induction n with
  | zero =>
    obtain heq | hb := List.suffix_cons_iff.mp hb
    · exact ⟨t, rest_of_five_ones hn heq⟩
    · exact ht b hb
  | succ n ih =>
    obtain heq | hb := List.suffix_cons_iff.mp hb
    · exact ⟨t, rest_of_five_ones hn heq⟩
    · exact ih (Nat.le_of_succ_le hn) hb

/-- The counter says how many 1s stand before what is stuffed next. -/
theorem zeroFollowsFiveOnes_stuffFrom {cnt : Nat} (hc : cnt < 5) (s : BitSeq) :
    ZeroFollowsFiveOnes (List.replicate cnt true ++ stuffFrom cnt s) := by
  fun_induction stuffFrom cnt s with
  | case1 cnt =>
    intro b hb
    have hlen := hb.length_le
    simp only [List.length_append, List.length_replicate, List.length_nil] at hlen
    omega
  | case2 cnt bs h ih =>
    rw [List.append_cons, ← List.replicate_succ', h]
    exact (ih (by decide)).ones_zero le_rfl
  | case3 cnt bs h ih =>
    rw [List.append_cons, ← List.replicate_succ']
    exact ih (by omega)
  | case4 cnt bs ih => exact (ih (by decide)).ones_zero hc.le

theorem zeroFollowsFiveOnes_stuff (s : BitSeq) : ZeroFollowsFiveOnes (stuff s) :=
  zeroFollowsFiveOnes_stuffFrom (cnt := 0) (by decide) s

theorem ZeroFollowsFiveOnes.ne_six_ones {t : BitSeq} (ht : ZeroFollowsFiveOnes t) (a b : BitSeq) :
    t ≠ a ++ List.replicate 6 true ++ b := by
  rintro rfl
  obtain ⟨c, hc⟩ := ht (true :: b) ⟨a, by simp [List.replicate_succ]⟩
  simp at hc

/-! ### Six 1s by their index (42_stuff_frame.md R155) -/

/-- Six 1s start at index `i`. -/
def SixOnesAt (t : BitSeq) (i : Nat) : Prop := ∀ j, j < 6 → t[i + j]? = some true

theorem sixOnesAt_iff_prefix {t : BitSeq} {i : Nat} : SixOnesAt t i ↔ List.replicate 6 true <+: t.drop i := by
  simp only [SixOnesAt, List.prefix_iff_getElem?, List.length_replicate, List.getElem?_drop,
    List.getElem_replicate]

theorem SixOnesAt.lt_length {t : BitSeq} {i : Nat} (h : SixOnesAt t i) : i + 5 < t.length :=
  (List.getElem?_eq_some_iff.mp (h 5 (by decide))).1

theorem not_sixOnesAt_stuff (s : BitSeq) (i : Nat) : ¬ SixOnesAt (stuff s) i := by
  intro h
  obtain ⟨b, hb⟩ := sixOnesAt_iff_prefix.mp h
  refine (zeroFollowsFiveOnes_stuff s).ne_six_ones ((stuff s).take i) b ?_
  rw [List.append_assoc, hb, List.take_append_drop]

theorem sixOnesAt_six_ones {i : Nat} : SixOnesAt (List.replicate 6 true) i ↔ i = 0 := by
  constructor
  · intro h
    have hlt := h.lt_length
    rw [List.length_replicate] at hlt
    omega
  · rintro rfl j hj
    rw [Nat.zero_add, List.getElem?_replicate_of_lt hj]

/-- No run of 1s goes across a 0. -/
theorem sixOnesAt_append_zero {l r : BitSeq} {i : Nat} :
    SixOnesAt (l ++ false :: r) i ↔ SixOnesAt l i ∨ (l.length < i ∧ SixOnesAt r (i - (l.length + 1))) := by
  have left {k : Nat} (hk : k < l.length) : (l ++ false :: r)[k]? = l[k]? := List.getElem?_append_left hk
  have right {j : Nat} (hi : l.length < i) : (l ++ false :: r)[i + j]? = r[i - (l.length + 1) + j]? := by
    rw [List.getElem?_append_right (by omega),
      show i + j - l.length = i - (l.length + 1) + j + 1 by omega, List.getElem?_cons_succ]
  constructor
  · intro h
    obtain hl | hz | hr : i + 5 < l.length ∨ (i ≤ l.length ∧ l.length - i < 6) ∨ l.length < i := by omega
    · exact .inl fun j hj => left (k := i + j) (by omega) ▸ h j hj
    · have hzero := h (l.length - i) hz.2
      simp [Nat.add_sub_cancel' hz.1] at hzero
    · exact .inr ⟨hr, fun j hj => right hr ▸ h j hj⟩
  · rintro (h | ⟨hr, h⟩) j hj
    · have hlt := h.lt_length
      rw [left (by omega), h j hj]
    · rw [right hr, h j hj]

theorem flag_eq : flag = false :: (List.replicate 6 true ++ [false]) := by decide

/-- Around a body without six 1s, the two flags hold the only ones. -/
theorem sixOnesAt_flag_append_flag {t : BitSeq} (ht : ∀ i, ¬ SixOnesAt t i) (i : Nat) :
    SixOnesAt (flag ++ t ++ flag) i ↔ i = 1 ∨ i + 7 = (flag ++ t ++ flag).length := by
  have hnil (k : Nat) : ¬ SixOnesAt [] k := fun h => absurd h.lt_length (Nat.not_lt_zero _)
  have hsplit : flag ++ t ++ flag =
      [] ++ false :: (List.replicate 6 true ++ false :: (t ++ false :: (List.replicate 6 true ++ false :: []))) := by
    rw [flag_eq]
    simp
  rw [hsplit]
  simp only [sixOnesAt_append_zero, sixOnesAt_six_ones, ht, hnil, List.length_append, List.length_cons,
    List.length_nil, List.length_replicate, and_false, or_false, false_or]
  omega

/-! ### The two commands (42_stuff_frame.md R151, R154) -/

theorem exec_stuff_stuffs {s : State} (hs : s.stage = .fcs) (hl : (stuff s.bitbuf).length ≤ s.cfg.cap) :
    exec .stuff s = .next (State.finish { s with bitbuf := stuff s.bitbuf, stage := .stuffed }) :=
  runBody_of_ok (by simp [hs]) (stuffBody_ok.mpr ⟨hs, hl, rfl⟩)

theorem exec_frame_frames {s : State} (hs : s.stage = .stuffed) (hl : s.bitbuf.length + 16 ≤ s.cfg.cap) :
    exec .frame s = .next (State.finish { s with bitbuf := flag ++ s.bitbuf ++ flag, stage := .framed }) :=
  runBody_of_ok (by simp [hs]) (frameBody_ok.mpr ⟨hs, hl, rfl⟩)

/-- A turn of FRAME that changes the stage to S_FRAMED has added the flags. -/
theorem Turn.bitbuf_of_frame {s t : State} (h : Turn .frame s t) (hs : s.stage ≠ .framed) (ht : t.stage = .framed) :
    t.bitbuf = flag ++ s.bitbuf ++ flag := by
  cases h with
  | frame => rfl
  | ignored => exact absurd ht hs
  | raised => cases ht
  | emitting hi => obtain ⟨prof, hi | hi⟩ := hi <;> cases hi

/-! ### The statements -/

/-- Settles O24: the round trip, and what follows five 1s of a stuffed sequence, both over the scan. -/
theorem unstuffOfStuff : Obligations.UnstuffOfStuff := by
  intro s
  have five_ones := zeroFollowsFiveOnes_stuff s
  refine ⟨unstuffFrom_stuffFrom (by decide) s, five_ones.ne_six_ones, fun a b h => ?_⟩
  exact five_ones b ⟨a, by rw [h, List.append_assoc]⟩

/-- Settles O23: the counts of a leading run, and the two bounds. -/
theorem everyFifthOneIsStuffed : Obligations.EveryFifthOneIsStuffed := by
  refine ⟨fun k rest => ?_, fun k => ?_, fun s => ⟨?_, ?_⟩⟩
  · rw [stuff, length_stuffFrom_ones (by decide), stuffFrom_false, List.length_cons, Nat.zero_add, stuff]
    omega
  · simpa [stuff] using length_stuffFrom_ones (cnt := 0) (by decide) k []
  · exact length_le_length_stuffFrom 0 s
  · simpa [stuff] using length_stuffFrom_le (cnt := 0) (by decide) s

/-- Settles O26: the flags are the ends of the sequence, and the stuffed body between them has no six 1s. -/
theorem onlyTheFlagsHoldSixOnes : Obligations.OnlyTheFlagsHoldSixOnes := by
  intro s t p body _ hs hbody h ht
  have hbuf : t.bitbuf = flag ++ stuff body ++ flag := by
    rw [(exec_turn h).bitbuf_of_frame (by simp [hs]) ht, hbody]
  rw [hbuf]
  refine ⟨?_, List.drop_left' (by simp [Nat.add_comm]), sixOnesAt_flag_append_flag (not_sixOnesAt_stuff body)⟩
  rw [List.append_assoc]
  exact List.take_left' rfl

/-- Settles O22: the word, the body's effect, and its two errors. -/
theorem stuffStuffsTheBody : Obligations.StuffStuffsTheBody := by
  refine ⟨rfl, fun s p hp => ⟨exec_stuff_stuffs, fun hs hne => ?_, fun hs hl => ?_⟩⟩
  · exact runBody_raises hp hne (stuffBody_error.mpr (.inl ⟨hs, rfl⟩))
  · exact runBody_raises hp (by simp [hs]) (stuffBody_error.mpr (.inr ⟨hs, hl, rfl⟩))

/-- Settles O25: the word, the flag's bits, the body's effect, and its two errors. -/
theorem frameAddsTwoFlags : Obligations.FrameAddsTwoFlags := by
  refine ⟨rfl, flag_eq, fun s p hp => ⟨exec_frame_frames, fun hs hne => ?_, fun hs hl => ?_⟩⟩
  · exact runBody_raises hp hne (frameBody_error.mpr (.inl ⟨hs, rfl⟩))
  · exact runBody_raises hp (by simp [hs]) (frameBody_error.mpr (.inr ⟨hs, hl, rfl⟩))

end Sys2Proof.Machine
end

section
/-! The line code bit by bit, its closed form, its polarity and its inverse, and the statements about NRZI (43_nrzi.md).
Its inductions go over every line state: each bit hands its own on to the next. -/

namespace Sys2Proof.Machine

/-! ### The line code bit by bit (43_nrzi.md R170) -/

/-- Both cases of the rule in one: the line state changes by the complement of the bit. -/
theorem nrzi_cons (line b : Bool) (bs : BitSeq) :
    nrzi line (b :: bs) = (line ^^ !b) :: nrzi (line ^^ !b) bs := by
  cases b <;> simp [nrzi]

/-- A bit in front changes the parity of the 0s if it is a 0. -/
theorem odd_count_false_cons (b : Bool) (bs : BitSeq) :
    decide ((b :: bs).count false % 2 = 1) = ((!b) ^^ decide (bs.count false % 2 = 1)) := by
  cases b with
  | true => simp
  | false =>
    obtain h | h := Nat.mod_two_eq_zero_or_one (bs.count false) <;> simp [Nat.add_mod, h]

theorem getElem?_nrzi (line : Bool) {s : BitSeq} {i : Nat} (hi : i < s.length) :
    (nrzi line s)[i]? = some (line ^^ decide ((s.take (i + 1)).count false % 2 = 1)) := by
  induction s generalizing line i with
  | nil => cases hi
  | cons b s ih =>
    rw [nrzi_cons, List.take_succ_cons, odd_count_false_cons]
    cases i with
    | zero => simp
    | succ i => rw [List.getElem?_cons_succ, ih _ (Nat.lt_of_succ_lt_succ hi), Bool.xor_assoc]

/-! ### Polarity and inverse (43_nrzi.md R172, R173) -/

theorem nrzi_not (line : Bool) (s : BitSeq) : nrzi (!line) s = (nrzi line s).map not := by
  induction s generalizing line with
  | nil => rfl
  | cons b s ih => rw [nrzi_cons, nrzi_cons, Bool.not_xor, ih, List.map_cons]

theorem unnrzi_nrzi (line : Bool) (s : BitSeq) : unnrzi line (nrzi line s) = s := by
  induction s generalizing line with
  | nil => rfl
  | cons b s ih =>
    have hb : ((line ^^ !b) == line) = b := by cases line <;> cases b <;> rfl
    rw [nrzi_cons, unnrzi, hb, ih]

/-! ### The command (43_nrzi.md R171) -/

theorem exec_nrzi_encodes {s : State} (hs : s.stage = .framed) :
    exec .nrzi s = .next (State.finish { s with bitbuf := nrzi s.cfg.nrziInit s.bitbuf, stage := .line }) :=
  runBody_of_ok (by simp [hs]) (nrziBody_ok.mpr ⟨hs, rfl⟩)

/-! ### The statements -/

/-- Settles O28: each bit toggles the line state by its own complement, so the toggles up to bit i add up to a parity. -/
theorem nrziIsParityOfZeros : Obligations.NrziIsParityOfZeros :=
  fun init _ _ hi => getElem?_nrzi init hi

/-- Settles O29: both laws hold bit by bit, from every line state. -/
theorem nrziPolarityAndInverse : Obligations.NrziPolarityAndInverse :=
  ⟨nrzi_not false, unnrzi_nrzi⟩

/-- Settles O27: the word, the body's effect, and its one error. -/
theorem nrziLineEncodes : Obligations.NrziLineEncodes := by
  refine ⟨rfl, fun s p hp => ⟨fun hs => ⟨exec_nrzi_encodes hs, length_nrzi _ _⟩, fun hs hne => ?_⟩⟩
  exact runBody_raises hp hne (nrziBody_error.mpr ⟨hs, rfl⟩)

end Sys2Proof.Machine
end

section
/-! An emission as a whole (44_afsk.md R184, R186, R193): how far its counts, its phase and its held records have come,
the state it has made of the state it began in, and that each of its turns goes on with both. -/

namespace Sys2Proof.Machine

/-! ### How far an emission has come -/

/-- P is P_n, and each port's last record is held exactly when the sink has accepted it: what `EmissionOnCourse` asks of
the emission itself. -/
structure Transmit.OnCourse (fs : Nat) (t : Transmit) : Prop where
  seg_le : t.seg ≤ t.bits.length
  smp_le : t.smp ≤ numSamples fs t.prof t.bits.length
  phase : t.phase = phaseAt fs t.prof t.bits t.smp
  segHeld : t.segLast = closing (segRecords t.prof t.bits) t.seg
  smpHeld : t.smpLast = closing (smpRecords fs t.prof t.bits) t.smp

theorem onCourse_start (fs : Nat) (prof : Profile) (bits : BitSeq) (fcs : Half) :
    (Transmit.start prof bits fcs).OnCourse fs where
  seg_le := Nat.zero_le _
  smp_le := Nat.zero_le _
  phase := rfl
  segHeld := (closing_zero _).symm
  smpHeld := (closing_zero _).symm

theorem closing_of_lt {α : Type} {rs : List α} {k : Nat} (hk : k < rs.length) : closing rs k = none := if_pos hk

theorem Transmit.OnCourse.segSent {fs : Nat} {t : Transmit} (h : t.OnCourse fs) (hl : t.seg < t.bits.length) :
    t.segSent.OnCourse fs where
  seg_le := hl
  smp_le := h.smp_le
  phase := h.phase
  segHeld := by
    have hopen : t.segLast = none := h.segHeld.trans (closing_of_lt (by simpa using hl))
    simp [(segSent_delivers hl).2, hopen]
  smpHeld := h.smpHeld

theorem Transmit.OnCourse.smpSent {fs : Nat} {t : Transmit} (h : t.OnCourse fs)
    (hl : t.smp < numSamples fs t.prof t.bits.length) : (t.smpSent fs).OnCourse fs where
  seg_le := h.seg_le
  smp_le := hl
  phase := by simp [phaseAt, h.phase]
  segHeld := h.segHeld
  smpHeld := by
    have hopen : t.smpLast = none := h.smpHeld.trans (closing_of_lt (by simpa using hl))
    simp [(smpSent_delivers h.phase hl).2, hopen]

/-! ### The state an emission has made of the state it began in -/

/-- `s` with the emission `t` begun in it and come as far as it has: each port has delivered the records accepted so far,
but for a last one (70_reset_and_hazards.md R265, assumption 10). -/
def State.during (t : Transmit) (s : State) : State :=
  { s with
    segOut := s.segOut ++ openPrefix (segRecords t.prof t.bits) t.seg
    smpOut := s.smpOut ++ openPrefix (smpRecords s.cfg.fs t.prof t.bits) t.smp
    tx := some t }

/-- `s` with the emission `t` begun in it and completed: the whole artifact, and the command's register effects
(44_afsk.md R184, 10_state.md R33). -/
def State.transmitted (t : Transmit) (s : State) : State :=
  { s with
    bitbuf := t.bits, fcsreg := t.fcs, stage := .done, pend := none, tx := none
    segOut := s.segOut ++ segRecords t.prof t.bits
    smpOut := s.smpOut ++ smpRecords s.cfg.fs t.prof t.bits }

theorem during_start (prof : Profile) (bits : BitSeq) (fcs : Half) (s : State) :
    s.during (Transmit.start prof bits fcs) = { s with tx := some (Transmit.start prof bits fcs) } := by
  simp [State.during]

theorem sendSeg_during {t : Transmit} (s : State) (hl : t.seg < t.bits.length) :
    (s.during t).sendSeg t = s.during t.segSent := by
  simp [State.during, State.sendSeg, (segSent_delivers hl).1]

theorem sendSmp_during {t : Transmit} {s : State} (hp : t.phase = phaseAt s.cfg.fs t.prof t.bits t.smp)
    (hl : t.smp < numSamples s.cfg.fs t.prof t.bits.length) :
    (s.during t).sendSmp t = s.during (t.smpSent s.cfg.fs) := by
  simp [State.during, State.sendSmp, (smpSent_delivers hp hl).1]

/-- The completion delivers what is held, which makes the artifact whole. -/
theorem commit_during {t : Transmit} {s : State} (h : t.OnCourse s.cfg.fs) (hseg : t.bits.length ≤ t.seg)
    (hsmp : numSamples s.cfg.fs t.prof t.bits.length ≤ t.smp) :
    ((s.during t).commit t).finish = s.transmitted t := by
  simp only [State.during, State.commit, State.finish, State.transmitted, h.segHeld, h.smpHeld, List.append_assoc]
  rw [openPrefix_append_closing (by simpa using hseg), openPrefix_append_closing (by simpa using hsmp)]

/-! ### A turn of an emission -/

theorem exec_emitting {i : Instr} {s : State} {t : Transmit} (hi : Emits i) (ht : s.tx = some t) :
    exec i s = transmitStep t s := by
  obtain ⟨prof, rfl | rfl⟩ := hi
  · exact execMod_emitting ht
  · exact execRun_emitting ht

/-- A turn of an emission begins from the emission it is given, not from the one the state holds. -/
theorem transmitStep_withTx (t : Transmit) (s : State) (e : Option Transmit) :
    transmitStep t { s with tx := e } = transmitStep t s := rfl

/-- Before its first turn a command has sent nothing, so that turn is the emission's from its start. -/
theorem transmitStep_start (prof : Profile) (bits : BitSeq) (fcs : Half) (s : State) :
    transmitStep (Transmit.start prof bits fcs) (s.during (Transmit.start prof bits fcs)) =
      transmitStep (Transmit.start prof bits fcs) s := by
  rw [during_start, transmitStep_withTx]

/-! ### Every step keeps an emission on course -/

theorem emissionOnCourse_of_tx_none {s : State} (h : s.tx = none) : EmissionOnCourse s := by
  constructor <;> simp [h]

theorem emissionOnCourse_during {t : Transmit} {s : State} (hsrc : SendsTheFrame s t) (ht : t.OnCourse s.cfg.fs) :
    EmissionOnCourse (s.during t) where
  source := by rintro _ ⟨⟩; exact hsrc
  counts := by rintro _ ⟨⟩; exact ⟨ht.seg_le, ht.smp_le⟩
  phase := by rintro _ ⟨⟩; exact ht.phase
  segments := by rintro _ ⟨⟩; exact ⟨_, rfl⟩
  samples := by rintro _ ⟨⟩; exact ⟨_, rfl⟩
  segHeld := by rintro _ ⟨⟩; exact ht.segHeld
  smpHeld := by rintro _ ⟨⟩; exact ht.smpHeld

/-- An emission on course began in some state. -/
theorem EmissionOnCourse.exists_during {s : State} {t : Transmit} (h : EmissionOnCourse s) (ht : s.tx = some t) :
    ∃ s₀ : State, s = s₀.during t ∧ SendsTheFrame s₀ t ∧ t.OnCourse s₀.cfg.fs := by
  obtain ⟨segBefore, hseg⟩ := h.segments t ht
  obtain ⟨smpBefore, hsmp⟩ := h.samples t ht
  obtain ⟨hsegLe, hsmpLe⟩ := h.counts t ht
  refine ⟨{ s with segOut := segBefore, smpOut := smpBefore }, ?_, h.source t ht,
    ⟨hsegLe, hsmpLe, h.phase t ht, h.segHeld t ht, h.smpHeld t ht⟩⟩
  simp only [State.during, ← hseg, ← hsmp, ← ht]

theorem transmitStep_keeps_onCourse {t : Transmit} {s u : State} (hsrc : SendsTheFrame s t) (ht : t.OnCourse s.cfg.fs)
    (h : transmitStep t (s.during t) = .next u) : EmissionOnCourse u := by
  obtain ⟨hl, -, rfl⟩ | ⟨hl, -, rfl⟩ | rfl | ⟨-, -, rfl⟩ := transmitStep_cases h
  · rw [sendSeg_during s hl]
    exact emissionOnCourse_during hsrc (ht.segSent hl)
  · rw [sendSmp_during ht.phase hl]
    exact emissionOnCourse_during hsrc (ht.smpSent hl)
  · exact emissionOnCourse_during hsrc ht
  · exact emissionOnCourse_of_tx_none rfl

theorem Turn.keeps_onCourse {i : Instr} {s t : State} (h : Turn i s t) (hc : EmissionOnCourse s) :
    EmissionOnCourse t := by
  cases h with
  | modStart _ hs h =>
    rw [← transmitStep_start] at h
    exact transmitStep_keeps_onCourse (.inl ⟨hs, rfl, rfl⟩) (onCourse_start ..) h
  | runStart _ hs _ _ h =>
    rw [← transmitStep_start] at h
    exact transmitStep_keeps_onCourse (.inr ⟨hs, rfl, rfl⟩) (onCourse_start ..) h
  | emitting _ htx h =>
    obtain ⟨s₀, rfl, hsrc, ht⟩ := hc.exists_during htx
    exact transmitStep_keeps_onCourse hsrc ht h
  | _ => exact emissionOnCourse_of_tx_none rfl

theorem coreStep_keeps_onCourse {s t : State} (hc : EmissionOnCourse s) (h : coreStep s = .next t) :
    EmissionOnCourse t := by
  obtain ⟨-, rfl⟩ | ⟨_, _, -, -, ht⟩ | ⟨-, -, -, -, ⟨-, rfl⟩ | ⟨-, rfl⟩⟩ := coreStep_cases h
  · exact hc
  · exact ht.keeps_onCourse hc
  iterate 2 exact emissionOnCourse_of_tx_none rfl

/-- The registers and histories that `EmissionOnCourse` speaks of. -/
def State.emissionView (s : State) : Config × Memory × Stage × Half × List Seg × List Smp :=
  (s.cfg, s.bitbuf, s.stage, s.fcsreg, s.segOut, s.smpOut)

theorem EmissionOnCourse.congr {s t : State} (h : EmissionOnCourse s) (hv : t.emissionView = s.emissionView)
    (htx : t.tx = s.tx) : EmissionOnCourse t := by
  simp only [State.emissionView, Prod.mk.injEq] at hv
  obtain ⟨hcfg, hbuf, hstg, hfcs, hseg, hsmp⟩ := hv
  exact {
    source := by rw [htx, hcfg, hbuf, hstg, hfcs]; exact h.source
    counts := by rw [htx, hcfg]; exact h.counts
    phase := by rw [htx, hcfg]; exact h.phase
    segments := by rw [htx, hseg]; exact h.segments
    samples := by rw [htx, hcfg, hsmp]; exact h.samples
    segHeld := by rw [htx]; exact h.segHeld
    smpHeld := by rw [htx, hcfg]; exact h.smpHeld }

/-- A write leaves the emission as it is, or is an accepted CMD write and leaves none. -/
theorem EmissionOnCourse.writeReg {s : State} (h : EmissionOnCourse s) (r : Reg) (v : Word) :
    EmissionOnCourse (s.writeReg r v) := by
  obtain ⟨-, htx⟩ | htx := writeReg_emission r v s
  · exact h.congr (by simp [State.emissionView]) htx
  · exact emissionOnCourse_of_tx_none htx

/-- Settles O56: a turn of the core moves an emission on, starts one or ends one; a reset ends it; every other event leaves
it alone or finds none. -/
theorem stepKeepsEmissionOnCourse : Obligations.StepKeepsEmissionOnCourse := by
  intro s t _ he h
  obtain ⟨rest, -, hcore⟩ | ⟨rest, -, rfl⟩ | ⟨rest, ⟨r, rfl⟩ | ⟨r, v, rfl⟩ | ⟨p, r, rfl⟩⟩ := step_cases h
  · exact coreStep_keeps_onCourse (he.withInbox rest) hcore
  · exact emissionOnCourse_of_tx_none rfl
  · exact (he.withInbox rest).congr (by simp [State.emissionView]) (by simp)
  · exact (he.withInbox rest).writeReg r v
  · exact (he.withInbox rest).congr (by simp [State.emissionView]) (by simp)

end Sys2Proof.Machine
end

section
/-! The arithmetic of the sample port: tuning words, the sample schedule, the phase sequence (44_afsk.md R191, R192,
R195), and the statements about them and about the profiles (R181, R182). -/

namespace Sys2Proof.Machine

/-! ### The tuning word (44_afsk.md R191) -/

/-- Below half the sample rate the ratio is below 2^31, so the reduction mod 2^32 changes nothing. -/
theorem toNat_tuningWord {fs f : Nat} (hf : 2 * f < fs) :
    (tuningWord fs f).toNat = (2 * f * 2 ^ 32 + fs) / (2 * fs) := by
  have hlt : (2 * f * 2 ^ 32 + fs) / (2 * fs) < 2 ^ 32 := by
    rw [Nat.div_lt_iff_lt_mul (by omega)]
    omega
  rw [tuningWord, BitVec.toNat_ofNat, Nat.mod_eq_of_lt hlt]

/-! ### The sample schedule (44_afsk.md R192) -/

theorem baud_pos (prof : Profile) : 0 < baud prof := by cases prof <;> decide

/-- Ns is the ceiling of LEN * FS / B. -/
theorem numSamples_eq_ceilDiv (fs : Nat) (prof : Profile) (len : Nat) :
    numSamples fs prof len = (len * fs) ⌈/⌉ baud prof := by
  rw [Nat.ceilDiv_eq_add_pred_div, numSamples, Nat.add_sub_assoc (baud_pos prof)]

/-- Which samples come before the end of `len` bits, with no division. -/
theorem lt_numSamples_iff {fs : Nat} {prof : Profile} {len n : Nat} :
    n < numSamples fs prof len ↔ n * baud prof < len * fs := by
  rw [numSamples_eq_ceilDiv, ← not_le, ceilDiv_le_iff_le_mul (baud_pos prof), not_le, Nat.mul_comm n]

/-- The samples keyed by the first `len` bits are those the schedule gives `len` bits. -/
theorem sampleBit_lt_iff {fs : Nat} {prof : Profile} {len n : Nat} (hfs : 0 < fs) :
    sampleBit fs prof n < len ↔ n < numSamples fs prof len := by
  rw [sampleBit, Nat.div_lt_iff_lt_mul hfs, lt_numSamples_iff]

/-! ### The phase sequence (44_afsk.md R193, R195) -/

theorem phaseAt_eq_sum (fs : Nat) (prof : Profile) (bits : BitSeq) (n : Nat) :
    phaseAt fs prof bits n = ((List.range n).map (phaseIncrement fs prof bits)).sum := by
  induction n with
  | zero => rfl
  | succ n ih =>
    rw [phaseAt, ih, List.range_succ, List.map_append, List.sum_append, List.map_singleton, List.sum_singleton]

/-! ### The statements -/

/-- Settles O31: the tuning word is the quotient of a division by 2 * FS. -/
theorem tuningWordIsNearest : Obligations.TuningWordIsNearest := by
  intro fs f hfs hf
  rw [toNat_tuningWord hf]
  have hdiv := Nat.div_add_mod (2 * f * 2 ^ 32 + fs) (2 * fs)
  have hmod := Nat.mod_lt (2 * f * 2 ^ 32 + fs) (show 0 < 2 * fs by omega)
  rw [Nat.mul_right_comm]
  constructor <;> omega

/-- Settles O32: Ns and i(n) are the two sides of one inequality between n * B and LEN * FS. -/
theorem sampleScheduleCoversEveryBit : Obligations.SampleScheduleCoversEveryBit := by
  intro fs prof len hfs
  refine ⟨?_, fun n => ?_, fun n hn => (sampleBit_lt_iff hfs).mpr hn, fun n i => ?_⟩
  · refine eq_of_forall_lt_iff fun n => ?_
    rw [lt_numSamples_iff, Nat.lt_ceil, lt_div_iff₀ (by exact_mod_cast baud_pos prof)]
    norm_cast
  · rw [Nat.floor_div_eq_div, sampleBit]
  · rw [← Nat.not_lt, ← sampleBit_lt_iff hfs, ← sampleBit_lt_iff hfs]
    omega

/-- Settles O33: P grows by the tuning word of each sample's tone, so its steps add up to P. -/
theorem phaseIsContinuous : Obligations.PhaseIsContinuous := by
  refine fun fs prof bits n => ⟨fun hn => ?_, phaseAt_eq_sum fs prof bits n⟩
  obtain ⟨m, rfl⟩ := Nat.exists_eq_succ_of_ne_zero hn.ne'
  exact add_sub_cancel_left (phaseAt fs prof bits m) _

/-- Settles O30: the table's values, and a bit's choice between the two tones. -/
theorem profileTable : Obligations.ProfileTable := by
  refine ⟨?_, ?_, ?_, ?_, rfl, fun _ => ⟨rfl, rfl⟩⟩ <;> norm_num [baud, markHz, spaceHz, bitDurationMs]

end Sys2Proof.Machine
end

section
/-! MOD, the turns of an emission one by one and to the end, and the statements about them (44_afsk.md R184, R186). -/

namespace Sys2Proof.Machine

/-! ### Steps that are turns of a pending MOD or RUN -/

theorem step_pending {s : State} {p : Pending} {i : Instr} (hi : s.inbox = []) (hp : s.pend = some p)
    (hd : decode p.word = .ok i) : step s = exec i s := by
  rw [step_quiet hi, coreStep_legal hp hd]

theorem step_during {s : State} {p : Pending} {i : Instr} (hi : s.inbox = []) (hp : s.pend = some p)
    (hd : decode p.word = .ok i) (he : Emits i) (t : Transmit) :
    step (s.during t) = transmitStep t (s.during t) :=
  (step_pending (s := s.during t) hi hp hd).trans (exec_emitting he rfl)

theorem steps_succ {s t : State} (h : step s = .next t) (n : Nat) : steps (n + 1) s = steps n t := by
  rw [steps, h, andThen]

theorem steps_succ_congr {s t : State} (h : step s = step t) (n : Nat) : steps (n + 1) s = steps (n + 1) t := by
  rw [steps, h, steps]

theorem steps_of_fixed {s : State} (h : step s = .next s) (n : Nat) : steps n s = .next s := by
  induction n with
  | zero => rfl
  | succ n ih => rw [steps_succ h, ih]

theorem execMod_raises {prof : Profile} {s : State} {p : Pending} (hp : s.pend = some p) (ht : s.tx = none)
    (hs : s.stage ≠ .line) (hne : s.stage ≠ .error) :
    execMod prof s = .next (errorEntered .sequence p.word s) := by
  have hcheck : attempt p.word modCheck s = .error (s.raise .sequence p.word) :=
    attempt_error.mpr ⟨_, modCheck_error.mpr ⟨hs, rfl⟩, rfl⟩
  simp only [execMod, ht, if_neg hne, current_of_pend hp, hcheck]
  rfl

/-! ### An emission whose sink accepts -/

/-- How many records the sink has still to accept. -/
def Transmit.recordsLeft (fs : Nat) (t : Transmit) : Nat :=
  (t.bits.length - t.seg) + (numSamples fs t.prof t.bits.length - t.smp)

theorem recordsLeft_segSent {fs : Nat} {t : Transmit} (hl : t.seg < t.bits.length) :
    t.segSent.recordsLeft fs + 1 = t.recordsLeft fs := by
  simp only [Transmit.recordsLeft, Transmit.segSent_bits, Transmit.segSent_seg, Transmit.segSent_prof,
    Transmit.segSent_smp]
  omega

theorem recordsLeft_smpSent {fs : Nat} {t : Transmit} (hl : t.smp < numSamples fs t.prof t.bits.length) :
    (t.smpSent fs).recordsLeft fs + 1 = t.recordsLeft fs := by
  simp only [Transmit.recordsLeft, Transmit.smpSent_bits, Transmit.smpSent_seg, Transmit.smpSent_prof,
    Transmit.smpSent_smp]
  omega

/-- One record a turn until none is left, and the completion. -/
theorem steps_during {s : State} {t : Transmit} {p : Pending} {i : Instr} (hp : s.pend = some p)
    (hd : decode p.word = .ok i) (he : Emits i) (hsink : SinkAccepts s) (ht : t.OnCourse s.cfg.fs) :
    steps (t.recordsLeft s.cfg.fs + 1) (s.during t) = .next (s.transmitted t) := by
  obtain ⟨hsegReady, hsmpReady, hinbox⟩ := hsink
  have hturn := step_during hinbox hp hd he
  generalize hn : t.recordsLeft s.cfg.fs = n
  induction n generalizing t with
  | zero =>
    obtain ⟨hseg, hsmp⟩ : t.bits.length ≤ t.seg ∧ numSamples s.cfg.fs t.prof t.bits.length ≤ t.smp := by
      rw [Transmit.recordsLeft] at hn
      omega
    rw [steps_succ ((hturn t).trans (transmitStep_done hseg hsmp)), commit_during ht hseg hsmp, steps]
  | succ n ih =>
    by_cases hseg : t.seg < t.bits.length
    · have hleft := recordsLeft_segSent (fs := s.cfg.fs) hseg
      rw [steps_succ ((hturn t).trans (transmitStep_seg hseg hsegReady)), sendSeg_during s hseg]
      exact ih (ht.segSent hseg) (by omega)
    · have hsmp : t.smp < numSamples s.cfg.fs t.prof t.bits.length := by
        rw [Transmit.recordsLeft] at hn
        omega
      have hleft := recordsLeft_smpSent hsmp
      rw [steps_succ ((hturn t).trans (transmitStep_smp (fun h => hseg h.1) hsmp hsmpReady)),
        sendSmp_during ht.phase hsmp]
      exact ih (ht.smpSent hsmp) (by omega)

/-- A command whose first turn is that of an emission from its start delivers the whole artifact (44_afsk.md R184,
45_control.md R212). -/
theorem steps_emission {s : State} {p : Pending} {i : Instr} {prof : Profile} {bits : BitSeq} {fcs : Half}
    (hp : s.pend = some p) (hd : decode p.word = .ok i) (he : Emits i) (hsink : SinkAccepts s)
    (hstart : exec i s = transmitStep (Transmit.start prof bits fcs) s) :
    steps (emissionTurns s.cfg.fs prof bits) s = .next (s.transmitted (Transmit.start prof bits fcs)) := by
  have hinbox := hsink.2.2
  have hfirst : step s = step (s.during (Transmit.start prof bits fcs)) := by
    rw [step_pending hinbox hp hd, hstart, step_during hinbox hp hd he, transmitStep_start]
  rw [emissionTurns, steps_succ_congr hfirst]
  exact steps_during hp hd he hsink (onCourse_start _ prof bits fcs)

/-! ### The statements -/

/-- Settles O35: the four turns of an emission, each record and its delivery written out. -/
theorem emittingCommandTurn : Obligations.EmittingCommandTurn := by
  intro i s t hi ht
  rw [exec_emitting hi ht]
  refine ⟨fun hseg hready => ?_, fun hseg hsmp hready => ?_, fun hseg hsmp hleft => ?_, transmitStep_done⟩
  · rw [transmitStep_seg hseg hready]
    by_cases hlast : t.seg + 1 = t.bits.length <;>
      simp [State.sendSeg, Transmit.segNow, Transmit.segSent, Transmit.segRecord, hlast]
  · rw [transmitStep_smp hseg hsmp hready]
    by_cases hlast : t.smp + 1 = numSamples s.cfg.fs t.prof t.bits.length <;>
      simp [State.sendSmp, Transmit.smpNow, Transmit.smpSent, Transmit.smpRecord, phaseIncrement, hlast]
  · rw [transmitStep_wait hseg hsmp hleft, ← ht]

/-- Settles O36: MOD's first turn is its emission's, and an emission whose sink accepts goes to its end. -/
theorem modDeliversItsArtifact : Obligations.ModDeliversItsArtifact :=
  fun _ _ prof hp hd ht hs hsink => steps_emission hp hd ⟨prof, .inl rfl⟩ hsink (execMod_start ht hs)

/-- Settles O37: a turn that can send nothing, with records left, waits and so leaves the state as it is. -/
theorem stoppedSinkHangsTheCore : Obligations.StoppedSinkHangsTheCore := by
  intro n s t p i hp hd he ht hi hseg hsmp hleft
  refine steps_of_fixed ?_ n
  obtain ⟨-, -, hwait, -⟩ := emittingCommandTurn i s t he ht
  rw [step_pending hi hp hd]
  refine hwait (fun h => ?_) (fun h => ?_) hleft
  · exact absurd h.2 (by simp [hseg h.1])
  · exact absurd h.2 (by simp [hsmp h.1])

/-- Settles O34: the word, the failed stage check, the emission it starts, and that emission's first segment record. -/
theorem modStartsOnlyInLine : Obligations.ModStartsOnlyInLine := by
  refine ⟨fun prof => by cases prof <;> rfl, fun s p prof hp ht => ⟨execMod_raises hp ht, fun hs => ?_, ?_⟩⟩
  · exact execMod_start ht hs
  · intro hs hready b rest hbits
    have hfirst : transmitStep (Transmit.start prof s.bitbuf s.fcsreg) s = _ :=
      transmitStep_seg (by simp [hbits]) hready
    refine ((execMod_start ht hs).trans hfirst).trans ?_
    cases rest <;>
      simp [State.sendSeg, Transmit.segNow, Transmit.segSent, Transmit.segRecord, Transmit.start, hbits]

end Sys2Proof.Machine
end

section
/-! NOP, CLEAR and RUN: the steps a RUN settles and where they end it, the emission it starts, RUN as the five commands
it stands for, and the statements about them (45_control.md R210 to R212). -/

namespace Sys2Proof.Machine

/-! ### A RUN's first turn -/

/-- A step of RUN that fails ends it: error entry is from the state `r` that step began in, with RUN's own word. -/
theorem execRun_raises {prof : Profile} {s r : State} {p : Pending} {e : Err} (hp : s.pend = some p)
    (ht : s.tx = none) (hne : s.stage ≠ .error) (hv : lineUp p.word s = .error (r.raise e p.word)) :
    execRun prof s = .next (errorEntered e p.word r) :=
  execRun_of_error ht hne (by rwa [current_of_pend hp])

/-- The line image begins with the opening flag's first 0, which toggles the line, and the 1 after it, which holds it
(43_nrzi.md R170, 42_stuff_frame.md R153). -/
theorem lineImage_begins (init : Bool) (body : BitSeq) :
    ∃ rest, lineImage init body = (!init) :: (!init) :: rest :=
  ⟨_, rfl⟩

theorem execRun_first_segment {prof : Profile} {s : State} (ht : s.tx = none) (hs : s.stage = .info)
    (hfit : BodyFits s.cfg.cap s.bitbuf) (hready : s.segReady = true) :
    execRun prof s =
      .next { s with
        segOut := s.segOut ++ [{ tone := !s.cfg.nrziInit, prof := prof, last := false }]
        tx := some { Transmit.start prof (lineImage s.cfg.nrziInit s.bitbuf) (crc16 s.bitbuf) with seg := 1 } } := by
  obtain ⟨rest, hbits⟩ := lineImage_begins s.cfg.nrziInit s.bitbuf
  rw [execRun_start ht hs hfit.1 hfit.2, hbits, transmitStep_seg (by simp) hready]
  simp [State.sendSeg, Transmit.segNow, Transmit.segSent, Transmit.segRecord, Transmit.start]

/-! ### The five commands of a RUN, one after another -/

/-- A command accepted by an idle core and done in one turn hands its state on. -/
theorem andThen_steps_one {s t : State} {i : Instr} {f : State → Host.Outcome State Fault Refusal}
    (hinbox : s.inbox = []) (hwf : WellFormed i = true) (h : exec i (s.accept (encode i)) = .next t) :
    andThen (steps 1 (s.accept (encode i))) f = f t := by
  have hstep : step (s.accept (encode i)) = .next t :=
    (step_pending (s := s.accept (encode i)) hinbox rfl (decodeOfEncode i hwf)).trans h
  rw [steps_succ hstep, steps, andThen]

/-- `s` with the line image of its frame in BITBUF and the FCS in FCSREG, idle in S_LINE. -/
def State.lineReady (s : State) : State :=
  State.finish { s with
    bitbuf := lineImage s.cfg.nrziInit s.bitbuf, fcsreg := crc16 s.bitbuf, stage := .line }

/-- FCS, STUFF, FRAME and NRZI make the line image of a frame that fits. -/
theorem fcs_to_nrzi_lineReady {s : State} {f : State → Host.Outcome State Fault Refusal}
    (hinbox : s.inbox = []) (hs : s.stage = .info) (hfit : BodyFits s.cfg.cap s.bitbuf) :
    (andThen (steps 1 (s.accept (encode .fcs))) fun a =>
      andThen (steps 1 (a.accept (encode .stuff))) fun b =>
      andThen (steps 1 (b.accept (encode .frame))) fun c =>
      andThen (steps 1 (c.accept (encode .nrzi))) f) = f s.lineReady := by
  obtain ⟨hfcs, hframe⟩ := hfit
  have hstuff : (stuff (withFcs s.bitbuf)).length ≤ s.cfg.cap := by omega
  refine Eq.trans (andThen_steps_one hinbox rfl (exec_fcs_appends hs hfcs)) ?_
  refine Eq.trans (andThen_steps_one hinbox rfl (exec_stuff_stuffs rfl hstuff)) ?_
  refine Eq.trans (andThen_steps_one hinbox rfl (exec_frame_frames rfl hframe)) ?_
  exact andThen_steps_one hinbox rfl (exec_nrzi_encodes rfl)

/-! ### The statements -/

/-- Settles O12: NOP's meaning is the end of the handshake. -/
theorem nopOnlyEndsTheHandshake : Obligations.NopOnlyEndsTheHandshake :=
  ⟨rfl, fun _ => rfl⟩

/-- Settles O13: CLEAR's meaning writes every field of a new frame, whatever the stage. -/
theorem clearStartsANewFrame : Obligations.ClearStartsANewFrame :=
  ⟨rfl, fun _ => rfl⟩

/-- Settles O38: the word, the four ways the settled steps fail, and the emission they start with its first record. -/
theorem runSettlesOrStops : Obligations.RunSettlesOrStops := by
  refine ⟨fun prof => by cases prof <;> rfl, fun s p prof hp ht =>
    ⟨fun hs hne => ?_, fun hs hl => ?_, fun hs h1 hl => ?_, fun hs h1 h2 hl => ?_, fun hs hfit => ?_,
      execRun_first_segment ht⟩⟩
  · exact execRun_raises hp ht hne (lineUp_error.mpr (.inl ⟨hs, rfl⟩))
  · exact execRun_raises hp ht (by simp [hs]) (lineUp_error.mpr (.inr (.inl ⟨hs, hl, rfl⟩)))
  · exact execRun_raises hp ht (by simp [hs]) (lineUp_error.mpr (.inr (.inr (.inl ⟨hs, h1, hl, rfl⟩))))
  · exact execRun_raises hp ht (by simp [hs]) (lineUp_error.mpr (.inr (.inr (.inr ⟨hs, h1, h2, hl, rfl⟩))))
  · exact execRun_start ht hs hfit.1 hfit.2

/-- Settles O39: RUN's first turn is its emission's, and an emission whose sink accepts goes to its end. -/
theorem runDeliversItsArtifact : Obligations.RunDeliversItsArtifact :=
  fun _ _ prof hp hd ht hs hsink hfit =>
    steps_emission hp hd ⟨prof, .inr rfl⟩ hsink (execRun_start ht hs hfit.1 hfit.2)

/-- Settles O40: FCS to NRZI make the line image that RUN sends, and MOD delivers it as RUN does; of the word that was
pending a completion leaves nothing. -/
theorem runIsTheFiveCommands : Obligations.RunIsTheFiveCommands := by
  intro s prof _ _ hs hsink hfit
  have hrun := runDeliversItsArtifact (s.accept (encode (.run prof))) _ prof (State.accept_pend ..)
    (decodeOfEncode _ rfl) (State.accept_tx ..) hs hsink hfit
  have hmod := modDeliversItsArtifact (s.lineReady.accept (encode (.mod prof))) _ prof (State.accept_pend ..)
    (decodeOfEncode _ rfl) (State.accept_tx ..) rfl hsink
  rw [fcs_to_nrzi_lineReady hsink.2.2 hs hfit]
  refine hrun.trans (Eq.trans ?_ hmod.symm)
  simp [State.lineReady]

end Sys2Proof.Machine
end

section
/-! Turns in S_ERROR and turns that enter it, the stages a command is accepted in and leaves, and the statements about them
(60_exceptions.md R230 to R241). -/

namespace Sys2Proof.Machine

/-! ### The core's turn, scheduled or not -/

theorem step_of_takesTurn {s : State} {rest : List Event} (h : TakesTurn s rest) :
    step s = coreStep { s with inbox := rest } := by
  obtain ⟨hi, rfl⟩ | hi := h
  · rw [step_quiet hi, ← hi]
  · rw [step_event hi]
    rfl

theorem coreTurn_iff {s : State} : CoreTurn s ↔ ∃ rest, TakesTurn s rest := by
  constructor
  · rintro (hi | ⟨rest, hi⟩)
    · exact ⟨[], .inl ⟨hi, rfl⟩⟩
    · exact ⟨rest, .inr hi⟩
  · rintro ⟨rest, ⟨hi, -⟩ | hi⟩
    · exact .inl hi
    · exact .inr ⟨rest, hi⟩

/-! ### Turns in S_ERROR (60_exceptions.md R233) -/

theorem finish_of_tx_none {s : State} (h : s.tx = none) : s.finish = { s with pend := none } := by
  rw [State.finish, ← h]

/-- Every other case of a turn asks for a stage that is not S_ERROR, or for an emission. -/
theorem Turn.eq_finish_of_error {i : Instr} {s t : State} (h : Turn i s t) (hs : s.stage = .error) (htx : s.tx = none)
    (hi : i ≠ .clear) : t = s.finish := by
  cases h with
  | ignored | nop => rfl
  | clear => exact absurd rfl hi
  | raised _ hne => exact absurd hs hne
  | emitting _ ht => simp [htx] at ht
  | addr hst | ctlpid hst | info hst | fcs hst | stuff hst | frame hst | nrzi hst | runStuffFailed _ hst
  | runFrameFailed _ hst | modStart _ hst | runStart _ hst => simp [hs] at hst

theorem exec_of_error {i : Instr} {s : State} (hs : s.stage = .error) (htx : s.tx = none) (hi : i ≠ .clear) :
    exec i s = .next s.finish := by
  obtain ⟨t, h⟩ := exec_next i s
  rw [h, (exec_turn h).eq_finish_of_error hs htx hi]

theorem runIllegal_of_error {w : Word} {s : State} (hs : s.stage = .error) : runIllegal w s = .next s.finish :=
  if_pos hs

theorem runIllegal_raises {w : Word} {s : State} (hs : s.stage ≠ .error) :
    runIllegal w s = .next (errorEntered .illegalCommand w s) :=
  if_neg hs

theorem coreStep_of_error {s : State} {p : Pending} (hs : s.stage = .error) (htx : s.tx = none) (hp : s.pend = some p)
    (hc : decode p.word ≠ .ok .clear) : coreStep s = .next s.finish := by
  rcases hd : decode p.word with r | i
  · rw [coreStep_illegal hp hd, runIllegal_of_error hs]
  · rw [coreStep_legal hp hd, exec_of_error hs htx (by rintro rfl; exact hc hd)]

/-- Everything a turn of the core can do in S_ERROR. -/
theorem coreStep_error_cases {s t : State} (hs : s.stage = .error) (htx : s.tx = none) (h : coreStep s = .next t) :
    (∃ p, s.pend = some p ∧ decode p.word = .ok .clear ∧ t = s.clearFrame.finish) ∨ t = s ∨ t = s.finish := by
  rcases hp : s.pend with _ | p
  · rw [coreStep_idle hp] at h
    cases h
    exact .inr (.inl rfl)
  by_cases hc : decode p.word = .ok .clear
  · rw [coreStep_legal hp hc] at h
    cases h
    exact .inl ⟨p, rfl, hc, rfl⟩
  · rw [coreStep_of_error hs htx hp hc] at h
    cases h
    exact .inr (.inr rfl)

/-- The held error, the frame it ended, and the emission in progress. -/
def State.failure (s : State) : Option Err × Word × Stage × Memory × BitVec 4 × Word × Half × Option Transmit :=
  (s.err, s.errcmd, s.errstg, s.bitbuf, s.addrcnt, s.infocnt, s.fcsreg, s.tx)

/-- Everything a step can do in S_ERROR, to the outputs, to the stage and to what the error holds
(60_exceptions.md R233, R240, R241). -/
theorem step_error_cases {s t : State} (hs : s.stage = .error) (htx : s.tx = none) (h : step s = .next t) :
    (t.segOut = s.segOut ∧ t.smpOut = s.smpOut)
      ∧ ((t.stage ≠ .error ∧ (ClearCompletesNow s ∨ ∃ rest, s.inbox = .reset :: rest))
          ∨ (t.stage = .error ∧ t.failure = s.failure)) := by
  obtain ⟨rest, hturn, hcore⟩ | ⟨rest, hi, rfl⟩ | ⟨rest, ⟨r, rfl⟩ | ⟨r, v, rfl⟩ | ⟨port, ready, rfl⟩⟩ := step_cases h
  · obtain ⟨p, hp, hd, rfl⟩ | rfl | rfl := coreStep_error_cases (s := { s with inbox := rest }) hs htx hcore
    · exact ⟨⟨rfl, rfl⟩, .inl ⟨nofun, .inl ⟨coreTurn_iff.mpr ⟨rest, hturn⟩, p, hp, hd⟩⟩⟩
    · exact ⟨⟨rfl, rfl⟩, .inr ⟨hs, rfl⟩⟩
    · exact ⟨⟨rfl, rfl⟩, .inr ⟨hs, by simp [State.failure, htx]⟩⟩
  · exact ⟨⟨rfl, rfl⟩, .inl ⟨nofun, .inr ⟨rest, hi⟩⟩⟩
  · exact ⟨by simp, .inr (by simp [State.failure, hs])⟩
  · have hw : (State.writeReg r v { s with inbox := rest }).tx = s.tx :=
      (writeReg_emission r v _).elim And.right fun hnone => hnone.trans htx.symm
    exact ⟨by simp, .inr ⟨by simp [hs], by simp [State.failure, hw]⟩⟩
  · exact ⟨by simp, .inr (by simp [State.failure, hs])⟩

/-! ### The stage a command is accepted in, and the stage it leaves (60_exceptions.md R236) -/

theorem accepts_error_iff {i : Instr} : accepts i .error = true ↔ i = .nop ∨ i = .clear := by
  cases i <;> simp [accepts]

/-- The stage check comes first, in every command that has one (60_exceptions.md R234). -/
theorem exec_raises_sequence {i : Instr} {s : State} {p : Pending} (hp : s.pend = some p) (htx : s.tx = none)
    (hs : s.stage ≠ .error) (ha : accepts i s.stage = false) :
    exec i s = .next (errorEntered .sequence p.word s) := by
  cases i <;> simp only [accepts, beq_eq_false_iff_ne, reduceCtorEq] at ha
  case addr => exact runBody_raises hp hs (addrBody_error.mpr (.inl ⟨ha, rfl⟩))
  case ctlpid => exact runBody_raises hp hs (ctlpidBody_error.mpr (.inl ⟨ha, rfl⟩))
  case info => exact runBody_raises hp hs (infoBody_error.mpr (.inl ⟨ha, rfl⟩))
  case fcs => exact runBody_raises hp hs (fcsBody_error.mpr (.inl ⟨ha, rfl⟩))
  case stuff => exact runBody_raises hp hs (stuffBody_error.mpr (.inl ⟨ha, rfl⟩))
  case frame => exact runBody_raises hp hs (frameBody_error.mpr (.inl ⟨ha, rfl⟩))
  case nrzi => exact runBody_raises hp hs (nrziBody_error.mpr ⟨ha, rfl⟩)
  case mod => exact execMod_raises hp htx ha hs
  case run => exact execRun_raises hp htx hs (lineUp_error.mpr (.inl ⟨ha, rfl⟩))

/-- An emission keeps its command and the stage until its completion, which leaves S_DONE (44_afsk.md R186). -/
theorem transmitStep_stage {t : Transmit} {s u : State} (h : transmitStep t s = .next u) :
    (u.pend = s.pend ∧ u.stage = s.stage) ∨ (u.pend = none ∧ u.stage = .done) := by
  obtain ⟨-, -, rfl⟩ | ⟨-, -, rfl⟩ | rfl | ⟨-, -, rfl⟩ := transmitStep_cases h
  iterate 3 exact .inl ⟨rfl, rfl⟩
  · exact .inr ⟨rfl, rfl⟩

theorem transmitStep_completes {t : Transmit} {s u : State} (h : transmitStep t s = .next u) (hp : s.pend ≠ none)
    (hu : u.pend = none) : u.stage = .done := by
  obtain ⟨hkept, -⟩ | ⟨-, hdone⟩ := transmitStep_stage h
  · exact absurd (hkept.symm.trans hu) hp
  · exact hdone

theorem Turn.stage_eq_nextStage {i : Instr} {s t : State} (h : Turn i s t) (hp : s.pend ≠ none)
    (ha : accepts i s.stage = true) (htp : t.pend = none) (hte : t.err = none) : t.stage = nextStage i s.stage := by
  cases h with
  | ignored hs =>
    rw [hs] at ha ⊢
    obtain rfl | rfl := accepts_error_iff.mp ha
    · exact hs
    · contradiction
  | info hs => exact hs
  | raised | runStuffFailed | runFrameFailed => cases hte
  | modStart _ _ h | runStart _ _ _ _ h => exact transmitStep_completes h hp htp
  | emitting hi _ h => obtain ⟨prof, rfl | rfl⟩ := hi <;> exact transmitStep_completes h hp htp
  | _ => rfl

/-! ### Error entry (60_exceptions.md R232) -/

/-- `t` is `s` after error entry with the word `w`: the buffer, FCSREG and the stage are those the failing step began in,
which are `s`'s own but for a RUN (45_control.md R212). -/
def EntersError (w : Word) (isRun : Prop) (s t : State) : Prop :=
  ∃ e bits fcs began, t = errorEntered e w { s with bitbuf := bits, fcsreg := fcs, stage := began }
    ∧ (¬isRun → bits = s.bitbuf ∧ fcs = s.fcsreg ∧ began = s.stage)

theorem entersError_raise (e : Err) (w : Word) (isRun : Prop) (s : State) :
    EntersError w isRun s (s.raise e w).finish :=
  ⟨e, s.bitbuf, s.fcsreg, s.stage, rfl, fun _ => ⟨rfl, rfl, rfl⟩⟩

theorem transmitStep_stage_ne_error {t : Transmit} {s u : State} (h : transmitStep t s = .next u)
    (hs : s.stage ≠ .error) : u.stage ≠ .error := by
  obtain ⟨-, hu⟩ | ⟨-, hu⟩ := transmitStep_stage h <;> simp [hu, hs]

theorem Turn.entersError {i : Instr} {s t : State} (h : Turn i s t) (hs : s.stage ≠ .error) (ht : t.stage = .error) :
    EntersError (s.current i).word (∃ prof, i = .run prof) s t := by
  cases h with
  | raised e => exact entersError_raise e _ _ s
  | runStuffFailed | runFrameFailed => exact ⟨_, _, _, _, rfl, fun hrun => absurd ⟨_, rfl⟩ hrun⟩
  | modStart _ _ h | runStart _ _ _ _ h | emitting _ _ h => exact absurd ht (transmitStep_stage_ne_error h hs)
  | ignored hs' => exact absurd hs' hs
  | nop | info => exact absurd ht hs
  | @addr _ _ _ last => cases last <;> cases ht
  | _ => cases ht

theorem coreStep_entersError {s t : State} {p : Pending} (hp : s.pend = some p) (hs : s.stage ≠ .error)
    (h : coreStep s = .next t) (ht : t.stage = .error) :
    EntersError p.word (∃ prof, decode p.word = .ok (.run prof)) s t := by
  rcases hd : decode p.word with r | i
  · rw [coreStep_illegal hp hd, runIllegal_raises hs] at h
    cases h
    exact entersError_raise _ _ _ s
  · rw [coreStep_legal hp hd] at h
    have hturn := (exec_turn h).entersError hs ht
    rw [current_of_pend hp] at hturn
    simpa using hturn

/-! ### The statements -/

/-- Settles O8: of the steps from S_ERROR only a completing CLEAR and a reset leave it, and none sends a record. -/
theorem onlyClearOrResetLeavesError : Obligations.OnlyClearOrResetLeavesError := by
  intro s t hs htx h
  obtain ⟨hout, ⟨-, hleft⟩ | ⟨hstays, -⟩⟩ := step_error_cases hs htx h
  · exact ⟨hout, fun _ => hleft⟩
  · exact ⟨hout, fun hne => absurd hstays hne⟩

/-- Settles O9: a step that stays in S_ERROR keeps the failure, and so starts no emission. -/
theorem firstErrorIsKept : Obligations.FirstErrorIsKept := by
  intro s t hs htx h hstays
  obtain ⟨-, ⟨hleft, -⟩ | ⟨-, hkept⟩⟩ := step_error_cases hs htx h
  · exact absurd hstays hleft
  · simpa only [State.failure, Prod.mk.injEq, htx] using hkept

/-- Settles O41: the failed stage check, and the stage each case of an accepted command's turn leaves. -/
theorem stageAcceptance : Obligations.StageAcceptance :=
  ⟨fun _ _ _ hp htx hs ha => exec_raises_sequence hp htx hs ha,
    fun _ _ _ hp ha _ h htp hte => (exec_turn h).stage_eq_nextStage hp ha htp hte⟩

/-- Settles O42: the turn's state is error entry's, whose fields are read off. -/
theorem errorEntryIsPrecise : Obligations.ErrorEntryIsPrecise := by
  intro s t p hp hturn _ hs h ht
  obtain ⟨rest, hrest⟩ := coreTurn_iff.mp hturn
  rw [step_of_takesTurn hrest] at h
  obtain ⟨e, bits, fcs, began, rfl, hkept⟩ := coreStep_entersError (s := { s with inbox := rest }) hp hs h ht
  refine ⟨nofun, rfl, rfl, rfl, rfl, rfl, rfl, rfl, rfl, rfl, rfl, fun hrun => ?_⟩
  obtain ⟨hbits, hfcs, hbegan⟩ := hkept (not_exists.mpr hrun)
  exact ⟨hbegan, hbits, hfcs⟩

/-- Settles O6: the turn of an illegal word, in S_ERROR and elsewhere. -/
theorem illegalWordRaises : Obligations.IllegalWordRaises := by
  intro s p r rest hp hd hturn
  rw [step_of_takesTurn hturn, coreStep_illegal (s := { s with inbox := rest }) hp hd]
  exact ⟨fun hs => runIllegal_raises hs, fun hs => runIllegal_of_error hs⟩

/-- Settles O7: CLEAR's own meaning, and the turn of any other word in S_ERROR. -/
theorem errorStateIgnoresCommands : Obligations.ErrorStateIgnoresCommands := by
  intro s p rest hs htx hp hturn
  rw [step_of_takesTurn hturn]
  refine ⟨fun hd => coreStep_legal (s := { s with inbox := rest }) hp hd, fun hd => ?_⟩
  rw [coreStep_of_error (s := { s with inbox := rest }) hs htx hp hd,
    finish_of_tx_none (s := { s with inbox := rest }) htx]

end Sys2Proof.Machine
end

section
/-! The frame protocol (70_reset_and_hazards.md R262, R263): a WAIT through the turns of an emission, and the lines that CLEAR
and RUN add to those of a frame's body. -/

namespace Sys2Proof.Machine

/-! ### Polling -/

/-- `t` is `s` but for what reads leave: the last word read and the counter of draws (20_memory.md R58). -/
def ReadFrom (s t : State) : Prop := ∃ rdata draws, t = { s with rdata := rdata, draws := draws }

/-- A poll that finds the core busy goes on (30_encoding.md R76). -/
theorem waitIdle_of_busy {s t : State} {p : Pending} (polls : Nat) (h : coreStep s = .next t) (hp : t.pend = some p) :
    ∃ u, waitIdle (polls + 1) s = waitIdle polls u ∧ ReadFrom t u := by
  refine ⟨_, ?_, drawnValue .status (Config.freeRead t.draws), t.draws + 1, rfl⟩
  rw [waitIdle, h, hostThen_next, rd_drawn (by trivial) hp rfl, hostThen_next]
  exact if_pos (by simp [drawnValue])

theorem waitIdle_succ_congr {s t : State} (h : coreStep s = coreStep t) (polls : Nat) :
    waitIdle (polls + 1) s = waitIdle (polls + 1) t := by
  rw [waitIdle, h, waitIdle]

/-! ### A WAIT through an emission -/

theorem coreStep_during {s : State} {p : Pending} {i : Instr} (hp : s.pend = some p) (hd : decode p.word = .ok i)
    (he : Emits i) (t : Transmit) : coreStep (s.during t) = transmitStep t (s.during t) :=
  (coreStep_legal (s := s.during t) hp hd).trans (exec_emitting he rfl)

/-- With records left and a sink that accepts, a turn moves the emission on by one record and keeps what it is to leave. -/
theorem transmitStep_next_record {s : State} {t : Transmit} (hsink : SinkAccepts s) (ht : t.OnCourse s.cfg.fs)
    (hleft : t.recordsLeft s.cfg.fs ≠ 0) :
    ∃ t', transmitStep t (s.during t) = .next (s.during t') ∧ t'.OnCourse s.cfg.fs
      ∧ t'.recordsLeft s.cfg.fs + 1 = t.recordsLeft s.cfg.fs ∧ s.transmitted t' = s.transmitted t := by
  obtain ⟨hsegReady, hsmpReady, -⟩ := hsink
  by_cases hseg : t.seg < t.bits.length
  · have hturn : transmitStep t (s.during t) = _ := transmitStep_seg hseg hsegReady
    rw [sendSeg_during s hseg] at hturn
    exact ⟨t.segSent, hturn, ht.segSent hseg, recordsLeft_segSent hseg, rfl⟩
  · have hsmp : t.smp < numSamples s.cfg.fs t.prof t.bits.length := by
      rw [Transmit.recordsLeft] at hleft
      omega
    have hturn : transmitStep t (s.during t) = _ := transmitStep_smp (fun h => hseg h.1) hsmp hsmpReady
    rw [sendSmp_during ht.phase hsmp] at hturn
    exact ⟨t.smpSent s.cfg.fs, hturn, ht.smpSent hsmp, recordsLeft_smpSent hsmp, rfl⟩

theorem transmitStep_no_record {s : State} {t : Transmit} (ht : t.OnCourse s.cfg.fs)
    (hleft : t.recordsLeft s.cfg.fs = 0) : transmitStep t (s.during t) = .next (s.transmitted t) := by
  obtain ⟨hseg, hsmp⟩ : t.bits.length ≤ t.seg ∧ numSamples s.cfg.fs t.prof t.bits.length ≤ t.smp := by
    rw [Transmit.recordsLeft] at hleft
    omega
  rw [← commit_during ht hseg hsmp]
  exact transmitStep_done hseg hsmp

/-- A WAIT with more polls than there are records left ends with the emission's completion. -/
theorem waitIdle_during {s : State} {t : Transmit} {p : Pending} {i : Instr} {polls : Nat} (hp : s.pend = some p)
    (hd : decode p.word = .ok i) (he : Emits i) (hsink : SinkAccepts s) (ht : t.OnCourse s.cfg.fs)
    (hpolls : t.recordsLeft s.cfg.fs < polls) :
    ∃ u, waitIdle polls (s.during t) = .ended (.next u) ∧ ReadFrom (s.transmitted t) u := by
  induction polls generalizing s t with
  | zero => omega
  | succ polls ih =>
    have hturn := coreStep_during hp hd he t
    by_cases hleft : t.recordsLeft s.cfg.fs = 0
    · have hdone := waitIdle_of_completes (Nat.succ_pos polls) (hturn.trans (transmitStep_no_record ht hleft)) rfl
      exact ⟨_, hdone, _, _, rfl⟩
    · obtain ⟨t', hnext, ht', hcount, hsame⟩ := transmitStep_next_record hsink ht hleft
      obtain ⟨_, hpoll, rdata, draws, rfl⟩ := waitIdle_of_busy polls (hturn.trans hnext) hp
      obtain ⟨u, hwait, rdata', draws', rfl⟩ :=
        ih (s := { s with rdata := rdata, draws := draws }) (t := t') hp hsink ht' (by simp only; omega)
      refine ⟨_, hpoll.trans hwait, rdata', draws', ?_⟩
      rw [← hsame]
      rfl

/-- The WAIT of a command whose first turn is that of an emission from its start (44_afsk.md R184, R186). -/
theorem waitIdle_emission {s : State} {p : Pending} {i : Instr} {prof : Profile} {bits : BitSeq} {fcs : Half}
    {polls : Nat} (hp : s.pend = some p) (hd : decode p.word = .ok i) (he : Emits i) (hsink : SinkAccepts s)
    (hstart : exec i s = transmitStep (Transmit.start prof bits fcs) s)
    (hpolls : emissionTurns s.cfg.fs prof bits ≤ polls) :
    ∃ u, waitIdle polls s = .ended (.next u) ∧ ReadFrom (s.transmitted (Transmit.start prof bits fcs)) u := by
  have hfirst : coreStep s = coreStep (s.during (Transmit.start prof bits fcs)) := by
    rw [coreStep_legal hp hd, hstart, coreStep_during hp hd he, transmitStep_start]
  obtain ⟨n, rfl⟩ : ∃ n, polls = n + 1 := ⟨polls - 1, by rw [emissionTurns] at hpolls; omega⟩
  rw [waitIdle_succ_congr hfirst]
  exact waitIdle_during hp hd he hsink (onCourse_start _ prof bits fcs) hpolls

/-! ### The lines around a frame's body -/

section
variable {polls : Nat} {s : State}

/-- CLEAR, from any idle state, S_ERROR included. -/
theorem leads_clear (hpolls : 0 < polls) (hp : s.pend = none) : Leads polls [.command .clear] s (ReadFrom (cleared s)) :=
  leads_command hpolls hp rfl rfl rfl ⟨_, _, rfl⟩

/-- RUN of a frame that fits, the sink accepting (45_control.md R212). -/
theorem leads_run {prof : Profile} (hp : s.pend = none) (hs : s.stage = .info) (hsink : SinkAccepts s)
    (hfit : BodyFits s.cfg.cap s.bitbuf)
    (hpolls : emissionTurns s.cfg.fs prof (lineImage s.cfg.nrziInit s.bitbuf) ≤ polls) :
    Leads polls [.command (.run prof)] s
      (ReadFrom (s.transmitted (Transmit.start prof (lineImage s.cfg.nrziInit s.bitbuf) (crc16 s.bitbuf)))) := by
  obtain ⟨u, hwait, hu⟩ := waitIdle_emission (s := s.accept (encode (.run prof))) (State.accept_pend ..)
    (decodeOfEncode (.run prof) rfl) ⟨prof, .inr rfl⟩ hsink
    (execRun_start (State.accept_tx ..) hs hfit.1 hfit.2) hpolls
  refine leads_line ?_ hu
  rw [HostLine.perform, (cmdWriteAcceptsOrDrops s _).1 hp, hostThen_next]
  exact hwait

theorem leads_rd_status {Q : State → Prop} (hp : s.pend = none) (hQ : Q { s with rdata := s.status }) :
    Leads polls [.rd .status] s Q :=
  leads_line (congrArg HostResult.ended (rd_idle (by trivial) hp)) hQ

/-- CLEAR and the body's lines lead to the frame, whatever came before (70_reset_and_hazards.md R262). -/
theorem leads_clear_bodyLines {chain : List Station} {info : List Byte} (hpolls : 0 < polls) (hp : s.pend = none)
    (hv : ChainValid chain) (hl : s.cfg.Legal) (hfit : 56 * chain.length + 16 + 8 * info.length ≤ s.cfg.cap) :
    Leads polls ([.command .clear] ++ bodyLines chain info) s
      (FrameGiven (cleared s) (chain.map fun a => a.address false) info) := by
  refine (leads_clear hpolls hp).append ?_
  rintro _ ⟨rdata, draws, rfl⟩
  obtain ⟨t, hrun, ⟨hidle, hstage, hbeside⟩, hframe⟩ :=
    leads_bodyLines (s := { cleared s with rdata := rdata, draws := draws }) hpolls rfl rfl rfl rfl rfl hv hl hfit
  exact ⟨t, hrun, ⟨hidle, hstage, hbeside⟩, hframe⟩

end

/-! ### The statement -/

/-- Settles O59: CLEAR leaves nothing of an earlier frame, the body's lines lead to the frame, and RUN's WAIT goes through its
whole emission. -/
theorem frameProtocolIsPure : Obligations.FrameProtocolIsPure := by
  intro s chain info prof polls hp ⟨hsegReady, hsmpReady, hinbox⟩ hv hl hfit hpolls
  have hpos : 0 < polls := by rw [emissionTurns] at hpolls; omega
  have hroom : 56 * chain.length + 16 + 8 * info.length ≤ s.cfg.cap := by
    have hbody := hfit.1
    rw [bodyOf, length_frameBits, List.length_map] at hbody
    omega
  refine (leads_clear_bodyLines hpos hp hv hl hroom).append (b := [.command (.run prof)] ++ [.rd .status]) ?_
  rintro t ⟨⟨hidle, hstage, hbeside⟩, -, -, hbits⟩
  rw [← bodyOf] at hbits
  simp only [State.besideBody, cleared, Prod.mk.injEq] at hbeside
  obtain ⟨hcfg, -, herr, -, -, hdrop, hbox, hseg, hsmp, hsegr, hsmpr⟩ := hbeside
  rw [← hcfg, ← hbits] at hfit hpolls
  have hsink : SinkAccepts t := ⟨hsegr.trans hsegReady, hsmpr.trans hsmpReady, hbox.trans hinbox⟩
  refine (leads_run hidle hstage hsink hfit hpolls).append ?_
  rintro _ ⟨rdata, draws, rfl⟩
  refine leads_rd_status rfl ⟨?_, rfl, herr, hdrop, rfl, ?_, rfl⟩
  · rw [Delivered, ← hseg, ← hsmp, ← hcfg, ← hbits]
    exact ⟨rfl, rfl⟩
  · rw [← hbits]
    rfl

end Sys2Proof.Machine
end

section
/-! A hardware reset that cuts a MOD or RUN short (70_reset_and_hazards.md R260, R265): how far the command's records have
come under any schedule, that every step keeps count of it, and a schedule for every pair of proper prefixes. -/

namespace Sys2Proof.Machine

/-! ### How far the records of a pending MOD or RUN have come -/

/-- A MOD or a RUN is pending. -/
def EmitterPending (s : State) : Prop := ∃ p i, s.pend = some p ∧ decode p.word = .ok i ∧ Emits i

/-- The MOD or RUN that was to send `bits` from `s` is pending in `w`, and the sink has accepted `j` of its segment records
and `k` of its samples: its first turn is still to come, or it has an emission in progress. -/
structure SentSince (s : State) (prof : Profile) (bits : BitSeq) (j k : Nat) (w : State) : Prop where
  cfg : w.cfg = s.cfg
  segOut : w.segOut = s.segOut ++ openPrefix (segRecords prof bits) j
  smpOut : w.smpOut = s.smpOut ++ openPrefix (smpRecords s.cfg.fs prof bits) k
  pending : EmitterPending w
  emission : (WillEmit w prof bits ∧ j = 0 ∧ k = 0)
    ∨ ∃ t, w.tx = some t ∧ t.OnCourse s.cfg.fs ∧ t.prof = prof ∧ t.bits = bits ∧ t.seg = j ∧ t.smp = k

/-- The emission that a pending MOD or RUN starts with, once it passes its checks (44_afsk.md R184, 45_control.md R212). -/
theorem WillEmit.starts {s : State} {prof : Profile} {bits : BitSeq} (h : WillEmit s prof bits) :
    EmitterPending s ∧ ∃ fcs, coreStep s = transmitStep (Transmit.start prof bits fcs) s := by
  obtain ⟨htx, p, hp, ⟨hd, hs, rfl⟩ | ⟨hd, hs, hfit, rfl⟩⟩ := h
  · exact ⟨⟨p, _, hp, hd, prof, .inl rfl⟩, _, (coreStep_legal hp hd).trans (execMod_start htx hs)⟩
  · exact ⟨⟨p, _, hp, hd, prof, .inr rfl⟩, _, (coreStep_legal hp hd).trans (execRun_start htx hs hfit.1 hfit.2)⟩

section
variable {s w u : State} {prof : Profile} {bits : BitSeq} {j k : Nat}

theorem sentSince_start (h : WillEmit s prof bits) : SentSince s prof bits 0 0 s where
  cfg := rfl
  segOut := by simp
  smpOut := by simp
  pending := h.starts.1
  emission := .inl ⟨h, rfl, rfl⟩

/-- Begun or not, the next turn of the core is a turn of an emission that has come that far. -/
theorem SentSince.coreStep_eq (h : SentSince s prof bits j k w) :
    ∃ t, coreStep w = transmitStep t w ∧ t.OnCourse s.cfg.fs ∧ t.prof = prof ∧ t.bits = bits ∧ t.seg = j ∧ t.smp = k := by
  obtain ⟨hwill, rfl, rfl⟩ | ⟨t, htx, ht⟩ := h.emission
  · obtain ⟨-, fcs, hturn⟩ := hwill.starts
    exact ⟨_, hturn, onCourse_start _ prof bits fcs, rfl, rfl, rfl, rfl⟩
  · obtain ⟨p, i, hp, hd, he⟩ := h.pending
    exact ⟨t, (coreStep_legal hp hd).trans (exec_emitting he htx), ht⟩

/-! ### Every step keeps count -/

theorem SentSince.sendSeg {t : Transmit} (h : SentSince s t.prof t.bits t.seg t.smp w) (ht : t.OnCourse s.cfg.fs)
    (hl : t.seg < t.bits.length) : SentSince s t.prof t.bits (t.seg + 1) t.smp (w.sendSeg t) where
  cfg := h.cfg
  segOut := by rw [(segSent_delivers hl).1, State.sendSeg_segOut, h.segOut, List.append_assoc]
  smpOut := h.smpOut
  pending := h.pending
  emission := .inr ⟨t.segSent, rfl, ht.segSent hl, rfl, rfl, rfl, rfl⟩

theorem SentSince.sendSmp {t : Transmit} (h : SentSince s t.prof t.bits t.seg t.smp w) (ht : t.OnCourse s.cfg.fs)
    (hl : t.smp < numSamples s.cfg.fs t.prof t.bits.length) :
    SentSince s t.prof t.bits t.seg (t.smp + 1) (w.sendSmp t) where
  cfg := h.cfg
  segOut := h.segOut
  smpOut := by rw [(smpSent_delivers ht.phase hl).1, State.sendSmp_smpOut, h.smpOut, h.cfg, List.append_assoc]
  pending := h.pending
  emission := .inr ⟨t.smpSent s.cfg.fs, by rw [State.sendSmp_tx, h.cfg], ht.smpSent hl, rfl, rfl, rfl, rfl⟩

theorem SentSince.wait {t : Transmit} (h : SentSince s t.prof t.bits t.seg t.smp w) (ht : t.OnCourse s.cfg.fs) :
    SentSince s t.prof t.bits t.seg t.smp { w with tx := some t } where
  cfg := h.cfg
  segOut := h.segOut
  smpOut := h.smpOut
  pending := h.pending
  emission := .inr ⟨t, rfl, ht, rfl, rfl, rfl, rfl⟩

/-- A turn of the core that leaves the command pending sends at most one record, or waits. -/
theorem SentSince.of_coreStep (h : SentSince s prof bits j k w) (hu : coreStep w = .next u) (hp : u.pend ≠ none) :
    ∃ j' k', SentSince s prof bits j' k' u := by
  obtain ⟨t, hturn, ht, rfl, rfl, rfl, rfl⟩ := h.coreStep_eq
  rw [hturn] at hu
  obtain ⟨hl, -, rfl⟩ | ⟨hl, -, rfl⟩ | rfl | ⟨-, -, rfl⟩ := transmitStep_cases hu
  · exact ⟨_, _, h.sendSeg ht hl⟩
  · exact ⟨_, _, h.sendSmp ht (h.cfg ▸ hl)⟩
  · exact ⟨_, _, h.wait ht⟩
  · exact absurd rfl hp

theorem SentSince.congr (h : SentSince s prof bits j k w) (hv : u.emissionView = w.emissionView) (hp : u.pend = w.pend)
    (htx : u.tx = w.tx) : SentSince s prof bits j k u := by
  simp only [State.emissionView, Prod.mk.injEq] at hv
  obtain ⟨hcfg, hbuf, hstg, -, hseg, hsmp⟩ := hv
  exact {
    cfg := hcfg.trans h.cfg
    segOut := hseg.trans h.segOut
    smpOut := hsmp.trans h.smpOut
    pending := by rw [EmitterPending, hp]; exact h.pending
    emission := by rw [WillEmit, htx, hp, hstg, hbuf, hcfg]; exact h.emission }

/-- A write while a command is pending leaves it and its emission as they are (10_state.md R34). -/
theorem writeReg_pending (r : Reg) (v : Word) (hp : w.pend ≠ none) :
    (w.writeReg r v).pend = w.pend ∧ (w.writeReg r v).tx = w.tx := by
  cases r with
  | cmd => simp [State.writeReg, State.busy, Option.isSome_iff_ne_none.mpr hp]
  | _ => exact ⟨rfl, rfl⟩

/-- A step that leaves a command pending is no reset and no completion: it keeps count of the records. -/
theorem SentSince.of_step (h : SentSince s prof bits j k w) (hu : step w = .next u) (hp : u.pend ≠ none) :
    ∃ j' k', SentSince s prof bits j' k' u := by
  obtain ⟨rest, -, hcore⟩ | ⟨rest, -, rfl⟩ | ⟨rest, ⟨r, rfl⟩ | ⟨r, v, rfl⟩ | ⟨port, ready, rfl⟩⟩ := step_cases hu
  · exact SentSince.of_coreStep (w := { w with inbox := rest }) (h.congr rfl rfl rfl) hcore hp
  · exact absurd rfl hp
  · exact ⟨j, k, h.congr (by simp [State.emissionView]) (by simp) (by simp)⟩
  · obtain ⟨p, -, hpend, -⟩ := h.pending
    obtain ⟨hwp, hwt⟩ := writeReg_pending (w := { w with inbox := rest }) r v (by simp [hpend])
    exact ⟨j, k, h.congr (by simp [State.emissionView]) hwp hwt⟩
  · exact ⟨j, k, h.congr (by simp [State.emissionView]) (by simp) (by simp)⟩

theorem SentSince.of_steps {n : Nat} (h : SentSince s prof bits j k w)
    (hp : ∀ m, m ≤ n → ∀ x, steps m w = .next x → x.pend ≠ none) (hu : steps n w = .next u) :
    ∃ j' k', SentSince s prof bits j' k' u := by
  induction n generalizing w j k with
  | zero =>
    cases hu
    exact ⟨j, k, h⟩
  | succ n ih =>
    rcases hx : step w with x | e | e
    · have hpx : x.pend ≠ none := hp 1 (by omega) x (steps_succ hx 0)
      obtain ⟨j', k', h'⟩ := h.of_step hx hpx
      exact ih h' (fun m hm y hy => hp (m + 1) (by omega) y ((steps_succ hx m).trans hy)) ((steps_succ hx n).symm.trans hu)
    all_goals simp [steps, hx, andThen] at hu

/-! ### A schedule for every pair of proper prefixes -/

/-- Some schedule of the environment leads from `s` to a state that meets `P`, whatever is scheduled after it. -/
def Scheduled (s : State) (P : State → Prop) : Prop :=
  ∃ events, ∀ rest, ∃ u,
    steps events.length { s with inbox := events ++ rest } = .next u ∧ u.inbox = rest ∧ P u

theorem steps_trans {m n : Nat} {x : State} (hm : steps m w = .next u) (hn : steps n u = .next x) :
    steps (m + n) w = .next x := by
  induction m generalizing w with
  | zero =>
    cases hm
    rwa [Nat.zero_add]
  | succ m ih =>
    rcases hy : step w with y | e | e
    · rw [Nat.add_right_comm, steps_succ hy]
      exact ih ((steps_succ hy m).symm.trans hm)
    all_goals simp [steps, hy, andThen] at hm

theorem Scheduled.event {P Q : State → Prop} {e : Event} (h : Scheduled s P)
    (he : ∀ w rest, P w → ∃ u, deliver e { w with inbox := rest } = .next u ∧ u.inbox = rest ∧ Q u) : Scheduled s Q := by
  obtain ⟨events, hevents⟩ := h
  refine ⟨events ++ [e], fun rest => ?_⟩
  obtain ⟨w, hw, hinbox, hP⟩ := hevents (e :: rest)
  obtain ⟨u, hu, hrest, hQ⟩ := he w rest hP
  refine ⟨u, ?_, hrest, hQ⟩
  rw [List.length_append, List.append_assoc]
  exact steps_trans hw (steps_succ ((step_event hinbox).trans hu) 0)

theorem scheduled_start {P : State → Prop} (h : ∀ rest, P { s with inbox := rest }) : Scheduled s P :=
  ⟨[], fun rest => ⟨_, rfl, rfl, h rest⟩⟩

/-- The sink accepts segment records, and the core takes a turn: one more segment record. -/
theorem Scheduled.segment (h : Scheduled s (SentSince s prof bits j k)) (hj : j < bits.length) :
    Scheduled s (SentSince s prof bits (j + 1) k) := by
  have hready : Scheduled s fun w => SentSince s prof bits j k w ∧ w.segReady = true :=
    h.event (e := .sink .segment true) fun w rest hw => ⟨_, rfl, rfl, hw.congr rfl rfl rfl, rfl⟩
  refine hready.event (e := .core) fun w rest ⟨hw, hseg⟩ => ?_
  have hw' : SentSince s prof bits j k { w with inbox := rest } := hw.congr rfl rfl rfl
  obtain ⟨t, hturn, ht, rfl, rfl, rfl, rfl⟩ := hw'.coreStep_eq
  exact ⟨_, hturn.trans (transmitStep_seg hj hseg), rfl, hw'.sendSeg ht hj⟩

/-- The sink holds the segment port back and accepts samples, and the core takes a turn: one more sample. -/
theorem Scheduled.sample (h : Scheduled s (SentSince s prof bits j k)) (hk : k < numSamples s.cfg.fs prof bits.length) :
    Scheduled s (SentSince s prof bits j (k + 1)) := by
  have hheld : Scheduled s fun w => SentSince s prof bits j k w ∧ w.segReady = false :=
    h.event (e := .sink .segment false) fun w rest hw => ⟨_, rfl, rfl, hw.congr rfl rfl rfl, rfl⟩
  have hready : Scheduled s fun w => SentSince s prof bits j k w ∧ w.segReady = false ∧ w.smpReady = true :=
    hheld.event (e := .sink .sample true) fun w rest ⟨hw, hseg⟩ => ⟨_, rfl, rfl, hw.congr rfl rfl rfl, hseg, rfl⟩
  refine hready.event (e := .core) fun w rest ⟨hw, hseg, hsmp⟩ => ?_
  have hw' : SentSince s prof bits j k { w with inbox := rest } := hw.congr rfl rfl rfl
  obtain ⟨t, hturn, ht, rfl, rfl, rfl, rfl⟩ := hw'.coreStep_eq
  exact ⟨_, hturn.trans (transmitStep_smp (by simp [hseg]) (hw.cfg ▸ hk) hsmp), rfl, hw'.sendSmp ht hk⟩

theorem scheduled_sentSince (h : WillEmit s prof bits) (hj : j ≤ bits.length)
    (hk : k ≤ numSamples s.cfg.fs prof bits.length) : Scheduled s (SentSince s prof bits j k) := by
  induction k with
  | succ k ih => exact (ih (Nat.le_of_succ_le hk)).sample hk
  | zero =>
    induction j with
    | succ j ih => exact (ih (Nat.le_of_succ_le hj)).segment hj
    | zero => exact scheduled_start fun rest => (sentSince_start h).congr rfl rfl rfl

end

/-! ### The statement -/

theorem openPrefix_of_lt {α : Type} {rs : List α} {k : Nat} (hk : k < rs.length) : openPrefix rs k = rs.take k := by
  rw [openPrefix, Nat.min_eq_left (by omega)]

/-- Settles O52: a reset's and CLEAR's effects, the count that every step of a pending command keeps, and the schedule that
sends any number of records short of all. -/
theorem hardwareReset : Obligations.HardwareReset := by
  refine ⟨fun s rest hi => step_event hi, fun s => rfl, fun s v prof bits n rest hwill hp hv hi => ?_,
    fun s prof bits j k hwill hj hk => ?_⟩
  · obtain ⟨j, k, h⟩ := (sentSince_start hwill).of_steps hp hv
    exact ⟨_, _, _, step_event hi, rfl, h.segOut, segRecords_openPrefix_not_last, h.smpOut,
      smpRecords_openPrefix_not_last⟩
  · obtain ⟨events, hevents⟩ := scheduled_sentSince hwill hj.le hk.le
    obtain ⟨w, hw, hinbox, h⟩ := hevents [.reset]
    refine ⟨events, _, steps_trans hw (steps_succ (step_event hinbox) 0), rfl, ?_, ?_⟩
    · rw [← openPrefix_of_lt (by simpa using hj)]
      exact h.segOut
    · rw [← openPrefix_of_lt (by simpa using hk)]
      exact h.smpOut

end Sys2Proof.Machine
end
